-- ==== Sys2Proof/Word.lean ====
section
/-! DEFINITION. The word types of BPCE's ports and registers (rules R2, R8, R36).
Bit 0 is the least significant bit of every word (R8). BPCE moves whole words in parallel, so there is no
byte order (R26). -/

namespace Sys2Proof

/-- A parameter word or an argument word: 32 bits (R2). -/
abbrev Word32 := BitVec 32

/-- A coefficient word, and the encoding of every binary64 value inside the datapath: 64 bits (R2, R4). -/
abbrev Word64 := BitVec 64

/-- The opcode field of a command: 4 bits (R2, R36). -/
abbrev Opcode := BitVec 4

/-- One command beat: 100 bits, `{arg2, arg1, arg0, op}` (R36). -/
abbrev Beat := BitVec 100

/-- A command as its four fields: what the host puts on `cmd_op` and `cmd_arg0..2` (R35) and what `PEND`
holds between accept and commit (R20). -/
structure Command where
  op   : Opcode
  arg0 : Word32
  arg1 : Word32
  arg2 : Word32
  deriving DecidableEq, Repr

end Sys2Proof
end

