-- ==== Sys2Proof/Syntax.lean ====
section
/-! DEFINITION. The commands of BPCE, one constructor per row of spec/opcode_table.json (R39, R40).
An argument word that a command does not use is no operand of it (R41). -/

namespace Sys2Proof

/-- BPCE's "instructions": the five commands of R39 and the eleven reserved opcodes of R40, each of which is
accepted and completes with ILLEGAL. A frequency or Q word is a binary32 word and a sample-rate word an unsigned
integer (R37); every bit pattern is legal (R41). -/
inductive Instr where
  /-- `CONSTRUCT freq, q, fs`, op 0x1 (R52). -/
  | construct (freq q fs : Word32)
  /-- `SET_FREQ freq`, op 0x2 (R53). -/
  | setFreq (freq : Word32)
  /-- `SET_FS fs`, op 0x3 (R54). -/
  | setFs (fs : Word32)
  /-- `SET_Q q`, op 0x4 (R55). -/
  | setQ (q : Word32)
  /-- `CALC`, op 0x5 (R56). -/
  | calculate
  /-- Reserved opcode 0x0 (R40, R57). -/
  | reserved0
  /-- Reserved opcode 0x6 (R40, R57). -/
  | reserved6
  /-- Reserved opcode 0x7 (R40, R57). -/
  | reserved7
  /-- Reserved opcode 0x8 (R40, R57). -/
  | reserved8
  /-- Reserved opcode 0x9 (R40, R57). -/
  | reserved9
  /-- Reserved opcode 0xA (R40, R57). -/
  | reservedA
  /-- Reserved opcode 0xB (R40, R57). -/
  | reservedB
  /-- Reserved opcode 0xC (R40, R57). -/
  | reservedC
  /-- Reserved opcode 0xD (R40, R57). -/
  | reservedD
  /-- Reserved opcode 0xE (R40, R57). -/
  | reservedE
  /-- Reserved opcode 0xF (R40, R57). -/
  | reservedF
  deriving DecidableEq, Repr

end Sys2Proof
end

