-- ==== Sys2Proof/WellFormed.lean ====
section
/-! DEFINITION. Which terms are well formed. "Every 32-bit pattern is a legal operand" (R41) and an operand's
type already fixes its width, so every instruction is well formed. The one check is on a number given as a
beat: a command has 100 bits (R36). -/

namespace Sys2Proof

/-- A number is a beat when it has no bit above bit 99: "Every command has this one length and format" (R36). -/
def Beat.numberOk (n : Nat) : Bool := decide (n < 2 ^ 100)

/-- "No argument value is reserved, and no argument value makes a command illegal" (R41): no instruction is
ill formed. -/
def Instr.wellFormed : Instr → Bool
  | .construct _ _ _ => true
  | .setFreq _ => true
  | .setFs _ => true
  | .setQ _ => true
  | .calculate => true
  | .reserved0 => true
  | .reserved6 => true
  | .reserved7 => true
  | .reserved8 => true
  | .reserved9 => true
  | .reservedA => true
  | .reservedB => true
  | .reservedC => true
  | .reservedD => true
  | .reservedE => true
  | .reservedF => true

end Sys2Proof
end

