-- ==== Sys2Proof/Decode.lean ====
section
/-! DEFINITION. Decoding and encoding of command beats (R36, R39, R40, R41, R45). -/

namespace Sys2Proof

/-- The fields of a beat: `beat[3:0]` = op, `beat[35:4]` = arg0, `beat[67:36]` = arg1, `beat[99:68]` = arg2
(R36). -/
def Command.ofBeat (b : Beat) : Command where
  op   := b.extractLsb' 0 4
  arg0 := b.extractLsb' 4 32
  arg1 := b.extractLsb' 36 32
  arg2 := b.extractLsb' 68 32

/-- `beat = {cmd_arg2[31:0], cmd_arg1[31:0], cmd_arg0[31:0], cmd_op[3:0]}` (R36). -/
def Command.toBeat (c : Command) : Beat := c.arg2 ++ c.arg1 ++ c.arg0 ++ c.op

/-- The command a host's four fields select: "A decoder needs only `beat[3:0]` to identify the command" (R36,
R39, R40). Argument words the command does not use are dropped (R41). It is total: each of the 16 opcode values
is one of the five commands or reserved. -/
def decodeCommand (c : Command) : Instr :=
  match c.op.toNat with
  | 0x0 => .reserved0
  | 0x1 => .construct c.arg0 c.arg1 c.arg2
  | 0x2 => .setFreq c.arg0
  | 0x3 => .setFs c.arg0
  | 0x4 => .setQ c.arg0
  | 0x5 => .calculate
  | 0x6 => .reserved6
  | 0x7 => .reserved7
  | 0x8 => .reserved8
  | 0x9 => .reserved9
  | 0xA => .reservedA
  | 0xB => .reservedB
  | 0xC => .reservedC
  | 0xD => .reservedD
  | 0xE => .reservedE
  | _   => .reservedF

/-- Decoding of a whole beat. -/
def decodeBeat (b : Beat) : Instr := decodeCommand (.ofBeat b)

/-- Why a number is not decoded: it is no beat. -/
inductive DecodeError where
  /-- The number has a bit above bit 99 (R36). -/
  | notABeat
  deriving DecidableEq, Repr

/-- Decoding of any number: a beat of 100 bits is decoded, anything longer is rejected by name. -/
def decode (n : Nat) : Except DecodeError Instr :=
  if Beat.numberOk n then .ok (decodeBeat (BitVec.ofNat 100 n)) else .error .notABeat

/-- The opcode table's numbering is the beat's own (bit 0 is the least significant bit of the beat), and a beat is
the whole instruction, so the table's word is given to the decoder as it is, its bits above `nbits` being 0. -/
def decodeTableWord (nbits w : Nat) : Option Instr := (decode (w % 2 ^ nbits)).toOption

/-- The opcode of each command (R39, R40). -/
def Instr.opcode : Instr → Opcode
  | .construct _ _ _ => 0x1
  | .setFreq _ => 0x2
  | .setFs _ => 0x3
  | .setQ _ => 0x4
  | .calculate => 0x5
  | .reserved0 => 0x0
  | .reserved6 => 0x6
  | .reserved7 => 0x7
  | .reserved8 => 0x8
  | .reserved9 => 0x9
  | .reservedA => 0xA
  | .reservedB => 0xB
  | .reservedC => 0xC
  | .reservedD => 0xD
  | .reservedE => 0xE
  | .reservedF => 0xF

/-- The fields of each command (R36, R39). "An unused argument word is assembled as 0x00000000" (R45). -/
def Instr.command (i : Instr) : Command :=
  match i with
  | .construct freq q fs => ⟨0x1, freq, q, fs⟩
  | .setFreq freq => ⟨0x2, freq, 0, 0⟩
  | .setFs fs => ⟨0x3, fs, 0, 0⟩
  | .setQ q => ⟨0x4, q, 0, 0⟩
  | .calculate => ⟨0x5, 0, 0, 0⟩
  | .reserved0 => ⟨0x0, 0, 0, 0⟩
  | .reserved6 => ⟨0x6, 0, 0, 0⟩
  | .reserved7 => ⟨0x7, 0, 0, 0⟩
  | .reserved8 => ⟨0x8, 0, 0, 0⟩
  | .reserved9 => ⟨0x9, 0, 0, 0⟩
  | .reservedA => ⟨0xA, 0, 0, 0⟩
  | .reservedB => ⟨0xB, 0, 0, 0⟩
  | .reservedC => ⟨0xC, 0, 0, 0⟩
  | .reservedD => ⟨0xD, 0, 0, 0⟩
  | .reservedE => ⟨0xE, 0, 0, 0⟩
  | .reservedF => ⟨0xF, 0, 0, 0⟩

/-- The beat of a command: what the text syntax of R44 assembles to. -/
def encode (i : Instr) : Beat := i.command.toBeat

/-- The argument words a command reads (the "used by" column of R36): whether it reads arg0, arg1, arg2. -/
def Instr.usedArgs : Instr → Bool × Bool × Bool
  | .construct _ _ _ => (true, true, true)
  | .setFreq _ => (true, false, false)
  | .setFs _ => (true, false, false)
  | .setQ _ => (true, false, false)
  | .calculate => (false, false, false)
  | .reserved0 => (false, false, false)
  | .reserved6 => (false, false, false)
  | .reserved7 => (false, false, false)
  | .reserved8 => (false, false, false)
  | .reserved9 => (false, false, false)
  | .reservedA => (false, false, false)
  | .reservedB => (false, false, false)
  | .reservedC => (false, false, false)
  | .reservedD => (false, false, false)
  | .reservedE => (false, false, false)
  | .reservedF => (false, false, false)

/-- Whether an opcode is reserved: "Opcodes 0x0 and 0x6 to 0xF are reserved" (R40). -/
def Opcode.reserved (op : Opcode) : Bool := op.toNat == 0 || decide (6 ≤ op.toNat)

/-- Whether a command is one of the reserved opcodes (R40). -/
def Instr.reserved (i : Instr) : Bool := i.opcode.reserved

end Sys2Proof
end

