-- ==== Sys2Proof/Machine/Float64.lean ====
section
/-! DEFINITION. The arithmetic of the datapath: IEEE 754 binary64 with round to nearest, ties to even, every
operation rounded once, subnormals kept, no flag recorded (R4, R8, R90, R118); the binary32 and binary64 layouts
(R37, R43); and the exact conversions `w64`, `u2f64` and `rne_int` (R8, R66, R68).
Each operation takes its operands apart, computes on exact numbers, and rounds at the end. -/

namespace Sys2Proof.Machine

open Sys2Proof

/-- A binary interchange format: the significand's precision, the exponent of the last place of its subnormals,
and the all-ones exponent field. -/
structure Format where
  prec    : Nat
  minExp  : Int
  expOnes : Nat
  deriving DecidableEq, Repr

/-- binary32: 23 fraction bits, bias 127 (R37). -/
def binary32 : Format := ⟨24, -149, 255⟩

/-- binary64: 52 fraction bits, bias 1023 (R43). -/
def binary64 : Format := ⟨53, -1074, 2047⟩

/-- What a word encodes: NaN, an infinity with its sign, or the exact number `(-1)^neg · m · 2^e` (a zero keeps
its sign). -/
inductive Value where
  | nan
  | inf (neg : Bool)
  | fin (neg : Bool) (m : Nat) (e : Int)
  deriving DecidableEq, Repr

/-- The value of a sign, an exponent field and a fraction field (R37, R43). -/
def Format.value (f : Format) (neg : Bool) (expField frac : Nat) : Value :=
  if expField = f.expOnes then
    if frac = 0 then .inf neg else .nan
  else if expField = 0 then
    .fin neg frac f.minExp
  else
    .fin neg (2 ^ (f.prec - 1) + frac) (f.minExp + (expField - 1 : Nat))

/-- `b32(w)`: `[31]` sign, `[30:23]` biased exponent, `[22:0]` fraction (R37). -/
def b32 (w : Word32) : Value :=
  binary32.value w.msb (w.extractLsb' 23 8).toNat (w.extractLsb' 0 23).toNat

/-- The value of a binary64 word: `[63]` sign, `[62:52]` biased exponent, `[51:0]` fraction (R43). -/
def b64 (w : Word64) : Value :=
  binary64.value w.msb (w.extractLsb' 52 11).toNat (w.extractLsb' 0 52).toNat

/-- `m / 2^k` rounded to the nearest integer, ties to even. -/
def rneShift (m k : Nat) : Nat :=
  let q := m / 2 ^ k
  let r := m % 2 ^ k
  if 2 * r < 2 ^ k then q
  else if 2 ^ k < 2 * r then q + 1
  else q + q % 2

/-- The exponent of the last place of the numbers of the format near `m · 2^e` (`m ≠ 0`): the exponent that gives
`m` exactly `prec` bits, but no less than the subnormals'. -/
def Format.lastPlace (f : Format) (m : Nat) (e : Int) : Int :=
  max (e + (m.log2 + 1 : Nat) - f.prec) f.minExp

/-- The magnitude bits (exponent field and fraction) of `m · 2^e` rounded to nearest, ties to even, once. A
significand that rounds up to the next power of two carries into the exponent field, and a magnitude beyond the
largest finite value after rounding is an infinity (R90, the last row). -/
def Format.roundMag (f : Format) (m : Nat) (e : Int) : Nat :=
  if m = 0 then 0
  else
    let q := f.lastPlace m e
    let sig := if q ≤ e then m * 2 ^ (e - q).toNat else rneShift m (q - e).toNat
    min ((q - f.minExp).toNat * 2 ^ (f.prec - 1) + sig) (f.expOnes * 2 ^ (f.prec - 1))

/-- A binary64 word from its sign and its magnitude bits. -/
def pack64 (neg : Bool) (mag : Nat) : Word64 :=
  BitVec.ofNat 64 ((if neg then 2 ^ 63 else 0) + mag)

/-- A binary32 word from its sign and its magnitude bits. -/
def pack32 (neg : Bool) (mag : Nat) : Word32 :=
  BitVec.ofNat 32 ((if neg then 2 ^ 31 else 0) + mag)

/-- `(-1)^neg · m · 2^e` rounded to binary64 (R4). -/
def round64 (neg : Bool) (m : Nat) (e : Int) : Word64 :=
  pack64 neg (binary64.roundMag m e)

/-- The canonical NaN, the NaN every operation here produces (R97; "A model may use any NaN internally",
spec/93_implementation_defined.md). -/
def nan64 : Word64 := 0x7FF8000000000000

/-- A signed infinity. -/
def inf64 (neg : Bool) : Word64 := pack64 neg (2047 * 2 ^ 52)

/-- A signed zero. -/
def zero64 (neg : Bool) : Word64 := pack64 neg 0

/-- The binary64 number 1. -/
def one64 : Word64 := 0x3FF0000000000000

/-- The binary64 number 2. -/
def two64 : Word64 := 0x4000000000000000

/-- The binary64 number 4. -/
def four64 : Word64 := 0x4010000000000000

/-- `isNaN(v)` (R8). -/
def isNaN64 (w : Word64) : Bool := decide (b64 w = .nan)

/-- Whether a binary64 word is NaN or an infinity: "the all-ones exponent encodes infinity and NaN" (R18). -/
def isNonFinite64 (w : Word64) : Bool := w.extractLsb' 52 11 == 0x7FF#11

/-- The mathematical integer `(-1)^neg · m`. -/
def signed (neg : Bool) (m : Nat) : Int := if neg then -(m : Int) else (m : Int)

/-- `−a`: "it flips the sign bit and is exact for every value, NaN included" (R8). -/
def neg64 (x : Word64) : Word64 := x ^^^ 0x8000000000000000

/-- `a ⊕ b` (R8, R90). An exact zero sum is `-0` when both operands are `-0`, and `+0` otherwise. -/
def add64 (x y : Word64) : Word64 :=
  match b64 x, b64 y with
  | .nan, _ => nan64
  | .inf _, .nan => nan64
  | .fin _ _ _, .nan => nan64
  | .inf s, .inf t => if s = t then inf64 s else nan64
  | .inf s, .fin _ _ _ => inf64 s
  | .fin _ _ _, .inf t => inf64 t
  | .fin s m e, .fin t n g =>
    let low := min e g
    let z := signed s (m * 2 ^ (e - low).toNat) + signed t (n * 2 ^ (g - low).toNat)
    if z = 0 then zero64 (s && t) else round64 (decide (z < 0)) z.natAbs low

/-- `a ⊖ b`: addition of the negation (R8, R90). -/
def sub64 (x y : Word64) : Word64 := add64 x (neg64 y)

/-- `a ⊗ b` (R8, R90). -/
def mul64 (x y : Word64) : Word64 :=
  match b64 x, b64 y with
  | .nan, _ => nan64
  | .inf _, .nan => nan64
  | .fin _ _ _, .nan => nan64
  | .inf s, .inf t => inf64 (s != t)
  | .inf s, .fin t n _ => if n = 0 then nan64 else inf64 (s != t)
  | .fin s m _, .inf t => if m = 0 then nan64 else inf64 (s != t)
  | .fin s m e, .fin t n g => round64 (s != t) (m * n) (e + g)

/-- The quotient `m / n` (`n ≠ 0`) as `(k, e)`: `k · 2^e` rounds as the exact quotient does. The integer part has
at least 64 bits for a nonzero `m`, and the bit below it is 1 exactly when the division leaves a remainder. -/
def stickyQuot (m n : Nat) : Nat × Int :=
  let shift := n.log2 + 64
  let q := m * 2 ^ shift / n
  let r := m * 2 ^ shift % n
  (2 * q + (if r = 0 then 0 else 1), -(shift + 1 : Nat))

/-- `a ⊘ b` (R8, R90). -/
def div64 (x y : Word64) : Word64 :=
  match b64 x, b64 y with
  | .nan, _ => nan64
  | .inf _, .nan => nan64
  | .fin _ _ _, .nan => nan64
  | .inf _, .inf _ => nan64
  | .inf s, .fin t _ _ => inf64 (s != t)
  | .fin s _ _, .inf t => zero64 (s != t)
  | .fin s m e, .fin t n g =>
    if n = 0 then
      if m = 0 then nan64 else inf64 (s != t)
    else
      let k := stickyQuot m n
      round64 (s != t) k.1 (k.2 + e - g)

/-- A value as a binary64 word, rounded if it has to be. -/
def Value.to64 : Value → Word64
  | .nan => nan64
  | .inf neg => inf64 neg
  | .fin neg m e => round64 neg m e

/-- `w64(b32(w))`: binary32 widened to binary64, which is exact (R8, R66). -/
def w64 (w : Word32) : Word64 := (b32 w).to64

/-- `u2f64(n)`: an unsigned 32-bit integer as a binary64 number, which is exact (R8, R66). -/
def u2f64 (n : Word32) : Word64 := round64 false n.toNat 0

/-- The binary64 number equal to an integer that has one. -/
def int64 (k : Int) : Word64 := round64 (decide (k < 0)) k.natAbs 0

/-- `rne_int(v)`: a finite number rounded to the nearest integer, ties to even, as a mathematical integer (R8);
`none` for the values that have none. -/
def rneInt (v : Word64) : Option Int :=
  match b64 v with
  | .nan => none
  | .inf _ => none
  | .fin neg m e => some (signed neg (if 0 ≤ e then m * 2 ^ e.toNat else rneShift m (-e).toNat))

end Sys2Proof.Machine
end

