-- ==== Sys2Proof/Machine/State.lean ====
section
/-! DEFINITION. The state of BPCE (R10), as plain data, and its value after reset (R131).
The spec's own state is `freq`, `qf`, `fs`, `coef`, `busy` and `pend`. The other fields are the model's: the events
of the last step that the spec calls pulses and not state (`rsp`, `coefUpdate`, R21), and which agent does what next
(`schedule`, R6). "Clock cycles exist only inside `LAT` and do not appear in the model's state" (R5): they are in
Machine/Clock.lean. `NF_MASK` is a function of `coef` (R18, Machine/Flags.lean).
BPCE has no memory, no program counter and no general registers (R11, R12, R25). -/

namespace Sys2Proof.Machine

open Sys2Proof

/-- The coefficient registers `COEF[0..4]`, five binary64 words (R16). -/
structure CoefSet where
  /-- `COEF[0]`, b0. -/
  b0 : Word64
  /-- `COEF[1]`, b1. -/
  b1 : Word64
  /-- `COEF[2]`, b2. -/
  b2 : Word64
  /-- `COEF[3]`, a1. -/
  a1 : Word64
  /-- `COEF[4]`, a2. -/
  a2 : Word64
  deriving DecidableEq, Repr

/-- The completion codes BPCE drives (R42, R115). -/
inductive RspCode where
  /-- One of the five commands committed. -/
  | ok
  /-- A reserved opcode committed with no state change. -/
  | illegal
  deriving DecidableEq, Repr

/-- A response: the completion code and the echo of the committed command's opcode (R42). -/
structure Rsp where
  code : RspCode
  op   : Opcode
  deriving DecidableEq, Repr

/-- What an agent does in one step of the machine (R6). The consumer only reads, so it does nothing here. -/
inductive AgentStep where
  /-- The host asserts `rst` (R130). -/
  | reset
  /-- The host offers a command on the command channel (R35). -/
  | offer (c : Command)
  /-- The engine executes its pending command (R6, R50). -/
  | commit
  /-- No agent does anything. -/
  | quiet
  deriving DecidableEq, Repr

structure State where
  /-- `FREQ`: the committed center frequency, a binary32 word (R13). -/
  freq : Word32
  /-- `QF`: the committed quality factor, a binary32 word (R14). -/
  qf : Word32
  /-- `FS`: the committed sample rate, an unsigned integer (R15). -/
  fs : Word32
  /-- `COEF[0..4]` (R16). -/
  coef : CoefSet
  /-- `BUSY`: 1 from accept to commit (R19). -/
  busy : Bool
  /-- `PEND`: the accepted command with its valid bit; `none` is invalid (R20). -/
  pend : Option Command
  /-- The outputs `rsp_valid`, `rsp_code` and `rsp_op` that the last step emitted; `none` is `rsp_valid` = 0
  (R21, R42). -/
  rsp : Option Rsp
  /-- The output `coef_update` that the last step emitted (R21, R99). -/
  coefUpdate : Bool
  /-- The model's own: what the agents do in the coming steps, the next step first (R6). -/
  schedule : List AgentStep
  deriving DecidableEq, Repr

/-- Why the machine stops. BPCE itself "raises no exception, fault or trap" (R115). -/
inductive Fault where
  /-- Raised by `step` alone, in a state with `BUSY` = 1 and `PEND` invalid whose commit has come. The spec
  rules this state out ("valid exactly when `BUSY` = 1", R20) and gives it no behaviour; no run from reset reaches
  it. Safe: the machine stops where nothing is known. -/
  | busyWithoutCommand
  deriving DecidableEq, Repr

/-- Why an instruction has no meaning. -/
inductive Refusal where
  /-- Raised by an arm of `exec` whose instruction has no meaning yet; no arm does. Safe. -/
  | notModelled (mnemonic : String)
  deriving DecidableEq, Repr

/-- Five canonical NaNs: `COEF` after a reset edge (R16, R131). -/
def CoefSet.reset : CoefSet where
  b0 := 0x7FF8000000000000
  b1 := 0x7FF8000000000000
  b2 := 0x7FF8000000000000
  a1 := 0x7FF8000000000000
  a2 := 0x7FF8000000000000

/-- BPCE right after reset: "A reset edge sets every piece of state to the following values" (R131). No agent has
anything to do yet (DESIGN CHOICE, notes/assumptions/3.md, safe). -/
def State.reset : State where
  freq := 0
  qf := 0
  fs := 0
  coef := .reset
  busy := false
  pend := none
  rsp := none
  coefUpdate := false
  schedule := []

end Sys2Proof.Machine
end

