-- ==== Sys2Proof/Machine/Flags.lean ====
section
/-! DEFINITION. BPCE's only flag, `NF_MASK` (R18): a status output computed from `COEF`, not sticky, read by no
command. BPCE records no IEEE 754 exception flag (R118). -/

namespace Sys2Proof.Machine

open Sys2Proof

/-- `NF_MASK[i] = 1` exactly when `COEF[i][62:52] = 0x7FF` (R18). -/
def CoefSet.nfMask (c : CoefSet) : BitVec 5 :=
  BitVec.ofBool (isNonFinite64 c.a2) ++ BitVec.ofBool (isNonFinite64 c.a1) ++
    BitVec.ofBool (isNonFinite64 c.b2) ++ BitVec.ofBool (isNonFinite64 c.b1) ++
    BitVec.ofBool (isNonFinite64 c.b0)

end Sys2Proof.Machine
end

