-- ==== Sys2Proof/Machine/Normalize.lean ====
section
/-! DEFINITION. The normalization arithmetic (spec/42_normalization.md, R80 to R89): one IEEE operation per term of
the source's formulas, in the order they are written. -/

namespace Sys2Proof.Machine

open Sys2Proof

/-- The five normalized results n0 = b0, n1 = b1, n2 = b2, n3 = a1 and n4 = a2, before the formatter (R80). -/
structure Normalized where
  n0 : Word64
  n1 : Word64
  n2 : Word64
  n3 : Word64
  n4 : Word64
  deriving DecidableEq, Repr

/-- `alpha <- sn ⊘ twoQ` with `twoQ <- 2 ⊗ Qd` (R81, R82). -/
def alphaOf (sn Qd : Word64) : Word64 := div64 sn (mul64 two64 Qd)

/-- `b0u <- Qd ⊗ alpha` (R83). -/
def b0uOf (Qd alpha : Word64) : Word64 := mul64 Qd alpha

/-- `a0 <- 1 ⊕ alpha` (R86). -/
def a0Of (alpha : Word64) : Word64 := add64 one64 alpha

/-- `a1u <- −(2 ⊗ cs)` (R87). -/
def a1uOf (cs : Word64) : Word64 := neg64 (mul64 two64 cs)

/-- `a2u <- 1 ⊖ alpha` (R88). -/
def a2uOf (alpha : Word64) : Word64 := sub64 one64 alpha

/-- `Normalize(sn, cs, Qd)`: b1u is +0 (R84), b2u is the negation of b0u (R85), and each of the five is divided by
a0, each quotient rounded once (R89). -/
def normalize (sn cs Qd : Word64) : Normalized :=
  let alpha := alphaOf sn Qd
  let b0u := b0uOf Qd alpha
  let a0 := a0Of alpha
  { n0 := div64 b0u a0
    n1 := div64 (zero64 false) a0
    n2 := div64 (neg64 b0u) a0
    n3 := div64 (a1uOf cs) a0
    n4 := div64 (a2uOf alpha) a0 }

end Sys2Proof.Machine
end

