-- ==== Sys2Proof/Machine/Operands.lean ====
section
/-! DEFINITION. The operand forms (R37, R41, R66): an argument word is an operand value, with no immediate to
assemble or extend. Frequency and Q words are binary32 and widen exactly; a sample-rate word is an unsigned
integer and converts exactly. -/

namespace Sys2Proof.Machine

open Sys2Proof

/-- The frequency operand: `F = w64(b32(FREQ))` (R51, R66). -/
def freqValue (fw : Word32) : Word64 := w64 fw

/-- The Q operand: `Qd = w64(b32(QF))` (R51, R80). -/
def qValue (qw : Word32) : Word64 := w64 qw

/-- The sample-rate operand: `S = u2f64(FS)`, 0 to 2^32 − 1 (R51, R66). -/
def fsValue (sw : Word32) : Word64 := u2f64 sw

end Sys2Proof.Machine
end

