-- ==== Sys2Proof/Machine/Trig.lean ====
section
/-! DEFINITION. The trig approximator (spec/41_trig_approximator.md, R65 to R73). -/

namespace Sys2Proof.Machine

open Sys2Proof

/-- HALF_PI: "the binary64 value nearest to π/2" (R70). -/
def halfPi : Word64 := 0x3FF921FB54442D18

/-- S15, the first coefficient of the sine kernel (R71). -/
def sinFirst : Word64 := 0xBD6AE7F3E733B81F

/-- S13, S11, S9, S7, S5, S3 and 1.0, in the order the sine kernel adds them (R71). -/
def sinRest : List Word64 :=
  [0x3DE6124613A86D09, 0xBE5AE64567F544E4, 0x3EC71DE3A556C734, 0xBF2A01A01A01A01A,
   0x3F81111111111111, 0xBFC5555555555555, one64]

/-- C16, the first coefficient of the cosine kernel (R72). -/
def cosFirst : Word64 := 0x3D2AE7F3E733B81F

/-- C14, C12, C10, C8, C6, C4, C2 and 1.0, in the order the cosine kernel adds them (R72). -/
def cosRest : List Word64 :=
  [0xBDA93974A8C07C9D, 0x3E21EED8EFF8D898, 0xBE927E4FB7789F5C, 0x3EFA01A01A01A01A,
   0xBF56C16C16C16C17, 0x3FA5555555555555, 0xBFE0000000000000, one64]

/-- Horner's rule, every operation rounded separately: `p <- (p ⊗ x2) ⊕ c` for each coefficient (R71, R72). -/
def horner (x2 : Word64) (p : Word64) : List Word64 → Word64
  | [] => p
  | c :: cs => horner x2 (add64 (mul64 p x2) c) cs

/-- The sine kernel: `s <- x ⊗ ps` (R71). -/
def sinKernel (x : Word64) : Word64 := mul64 x (horner (mul64 x x) sinFirst sinRest)

/-- The cosine kernel (R72). -/
def cosKernel (x : Word64) : Word64 := horner (mul64 x x) cosFirst cosRest

/-- The reduced argument: "If k = 0 then `d <- v`", which keeps the sign of a zero; otherwise `d <- v ⊖ K` (R69). -/
def reduced (v : Word64) (k : Int) : Word64 := if k = 0 then v else sub64 v (int64 k)

/-- Quadrant selection on `q = k mod 4` (R73): sn and cs from the kernels' s and c. -/
def quadrant (k : Int) (s c : Word64) : Word64 × Word64 :=
  match (k % 4).toNat with
  | 0 => (s, c)
  | 1 => (c, neg64 s)
  | 2 => (neg64 s, neg64 c)
  | _ => (neg64 c, s)

/-- Steps R67 to R73 on the normalized frequency u in turns: (sn, cs). A non-finite u gives (NaN, NaN) and skips
the rest (R67). For a u of R66 the product `4 ⊗ u` is finite (R68), so `rneInt` has a value. -/
def trigTurns (u : Word64) : Word64 × Word64 :=
  if isNonFinite64 u then (nan64, nan64)
  else
    let v := mul64 four64 u
    match rneInt v with
    | none => (nan64, nan64)
    | some k =>
      let x := mul64 (reduced v k) halfPi
      quadrant k (sinKernel x) (cosKernel x)

/-- The normalized frequency `u <- F ⊘ S`, in turns per sample (R66). ω is never formed (R65). -/
def turns (F S : Word64) : Word64 := div64 F S

/-- `Trig(F, S) -> (sn, cs)` (R65). -/
def trig (F S : Word64) : Word64 × Word64 := trigTurns (turns F S)

end Sys2Proof.Machine
end

