-- ==== Sys2Proof/Machine/Formatter.lean ====
section
/-! DEFINITION. The coefficient formatter (spec/43_coefficient_formatter.md, R95 to R97) and the recompute function
`Coefs` that composes the three parts of the datapath (R51). -/

namespace Sys2Proof.Machine

open Sys2Proof

/-- `fmt64(v)`: the binary64 encoding of v unchanged (R96), but for every NaN the canonical NaN (R97). -/
def fmt64 (v : Word64) : Word64 := if isNaN64 v then 0x7FF8000000000000 else v

/-- `Format(n0, …, n4)`: "The index order is fixed: w0 = b0, w1 = b1, w2 = b2, w3 = a1, w4 = a2" (R95). -/
def formatCoefs (n : Normalized) : CoefSet where
  b0 := fmt64 n.n0
  b1 := fmt64 n.n1
  b2 := fmt64 n.n2
  a1 := fmt64 n.n3
  a2 := fmt64 n.n4

/-- `Coefs(fw, qw, sw)`, "a total, deterministic function of its 96 input bits" (R51). -/
def coefs (fw qw sw : Word32) : CoefSet :=
  let t := trig (freqValue fw) (fsValue sw)
  formatCoefs (normalize t.1 t.2 (qValue qw))

end Sys2Proof.Machine
end

