-- ==== Sys2Proof/Machine/Ops.lean ====
section
/-! DEFINITION. The named operations of the engine (R50): reset, accept, the install of a command that completes with
OK, and `raise Illegal(op)`, BPCE's one exceptional outcome, written once (R116); and which of them a step does.
BPCE has no trap entry and no trap return (R121, R122), and no memory (R25). -/

namespace Sys2Proof.Machine

open Sys2Proof

/-- What happens next. When the schedule has run out, an engine with a command pending commits it, for "commit
eventually follows accept" (R7), and an idle one "simply waits for a command" (R130). -/
def State.action (s : State) : AgentStep :=
  match s.schedule with
  | a :: _ => a
  | [] => if s.busy then .commit else .quiet

/-- The passing of one step: its action is used up, and the pulses of the step before it are over, for they last
"exactly one cycle" (R21). -/
def State.tick (s : State) : State :=
  { s with rsp := none, coefUpdate := false, schedule := s.schedule.tail }

/-- A reset edge: every piece of BPCE's state takes its reset value, and no response and no `coef_update` follow
(R131). A pending command is discarded (R132). -/
def resetEdge (s : State) : State :=
  { s with
    freq := 0, qf := 0, fs := 0, coef := .reset
    busy := false, pend := none
    rsp := none, coefUpdate := false }

/-- accept: `PEND <- (cmd_op, cmd_arg0, cmd_arg1, cmd_arg2)`, `PEND.valid <- 1`, `BUSY <- 1` (R50). -/
def accept (c : Command) (s : State) : State := { s with busy := true, pend := some c }

/-- The commit of a command with response OK (R50, R98, R99): the parameter triple, the five coefficients computed
from it, the end of the busy window, the response with the echo of the opcode, and the `coef_update` pulse, all at
once (R27). -/
def commitOk (op : Opcode) (freq qf fs : Word32) (s : State) : State :=
  { s with
    freq := freq, qf := qf, fs := fs, coef := coefs freq qf fs
    busy := false, pend := none
    rsp := some ⟨.ok, op⟩, coefUpdate := true }

/-- `raise Illegal(op)`: no parameter register and no `COEF` register is written, `coef_update` is not pulsed,
`BUSY` is cleared, `PEND` becomes invalid, and the response is ILLEGAL with the echo of the opcode (R116). -/
def raiseIllegal (op : Opcode) (s : State) : State :=
  { s with
    busy := false, pend := none
    rsp := some ⟨.illegal, op⟩, coefUpdate := false }

/-- What happens in a step. -/
inductive StepEvent where
  /-- Reset, and nothing else (R120). -/
  | reset
  /-- The commit of the pending command (R50). -/
  | commit (c : Command)
  /-- A command is accepted (R35, R50). -/
  | accept (c : Command)
  /-- Nothing happens. -/
  | nothing
  /-- `BUSY` = 1 with no command pending, which R20 rules out. -/
  | impossible
  deriving DecidableEq, Repr

/-- The event of the next step. A command offered while `BUSY` = 1 "is simply not yet accepted" (R136), and an engine
with `BUSY` = 0 has nothing to commit. -/
def State.event (s : State) : StepEvent :=
  match s.action with
  | .reset => .reset
  | .offer c => if s.busy then .nothing else .accept c
  | .commit =>
    if s.busy then
      match s.pend with
      | some c => .commit c
      | none => .impossible
    else .nothing
  | .quiet => .nothing

/-- The state with a command pending whose commit is the next step. -/
def loadPending (c : Command) (s : State) : State :=
  { s with busy := true, pend := some c, schedule := .commit :: s.schedule }

end Sys2Proof.Machine
end

