-- ==== Sys2Proof/Machine/Commands.lean ====
section
/-! DEFINITION. The meanings of the five commands (R52 to R56): the commit of each. Each takes the parameter triple
current after its own writes and recomputes all five coefficients from it. No command has an exception, and every
argument value is accepted (R117). -/

namespace Sys2Proof.Machine

open Sys2Proof

/-- CONSTRUCT: `FREQ <- a0; QF <- a1; FS <- a2; COEF <- Coefs(a0, a1, a2)` (R52). -/
def execConstruct (freq q fs : Word32) (s : State) : Host.Outcome State Fault Refusal :=
  .next (commitOk 0x1 freq q fs s)

/-- SET_FREQ: `FREQ <- a0; COEF <- Coefs(a0, QF, FS)` (R53). -/
def execSetFreq (freq : Word32) (s : State) : Host.Outcome State Fault Refusal :=
  .next (commitOk 0x2 freq s.qf s.fs s)

/-- SET_FS: `FS <- a0; COEF <- Coefs(FREQ, QF, a0)` (R54). -/
def execSetFs (fs : Word32) (s : State) : Host.Outcome State Fault Refusal :=
  .next (commitOk 0x3 s.freq s.qf fs s)

/-- SET_Q: `QF <- a0; COEF <- Coefs(FREQ, a0, FS)` (R55). -/
def execSetQ (q : Word32) (s : State) : Host.Outcome State Fault Refusal :=
  .next (commitOk 0x4 s.freq q s.fs s)

/-- CALC: `COEF <- Coefs(FREQ, QF, FS)` (R56). -/
def execCalc (s : State) : Host.Outcome State Fault Refusal :=
  .next (commitOk 0x5 s.freq s.qf s.fs s)

end Sys2Proof.Machine
end

