-- ==== Sys2Proof/Machine/Reserved.lean ====
section
/-! DEFINITION. The meanings of the eleven reserved opcodes (R40, R57, R116): each is accepted and commits like any
command, and completes with ILLEGAL. -/

namespace Sys2Proof.Machine

open Sys2Proof

/-- Reserved opcode 0x0: `raise Illegal(0x0)` (R57). -/
def execReserved0 (s : State) : Host.Outcome State Fault Refusal := .next (raiseIllegal 0x0 s)

/-- Reserved opcode 0x6: `raise Illegal(0x6)` (R57). -/
def execReserved6 (s : State) : Host.Outcome State Fault Refusal := .next (raiseIllegal 0x6 s)

/-- Reserved opcode 0x7: `raise Illegal(0x7)` (R57). -/
def execReserved7 (s : State) : Host.Outcome State Fault Refusal := .next (raiseIllegal 0x7 s)

/-- Reserved opcode 0x8: `raise Illegal(0x8)` (R57). -/
def execReserved8 (s : State) : Host.Outcome State Fault Refusal := .next (raiseIllegal 0x8 s)

/-- Reserved opcode 0x9: `raise Illegal(0x9)` (R57). -/
def execReserved9 (s : State) : Host.Outcome State Fault Refusal := .next (raiseIllegal 0x9 s)

/-- Reserved opcode 0xA: `raise Illegal(0xA)` (R57). -/
def execReservedA (s : State) : Host.Outcome State Fault Refusal := .next (raiseIllegal 0xA s)

/-- Reserved opcode 0xB: `raise Illegal(0xB)` (R57). -/
def execReservedB (s : State) : Host.Outcome State Fault Refusal := .next (raiseIllegal 0xB s)

/-- Reserved opcode 0xC: `raise Illegal(0xC)` (R57). -/
def execReservedC (s : State) : Host.Outcome State Fault Refusal := .next (raiseIllegal 0xC s)

/-- Reserved opcode 0xD: `raise Illegal(0xD)` (R57). -/
def execReservedD (s : State) : Host.Outcome State Fault Refusal := .next (raiseIllegal 0xD s)

/-- Reserved opcode 0xE: `raise Illegal(0xE)` (R57). -/
def execReservedE (s : State) : Host.Outcome State Fault Refusal := .next (raiseIllegal 0xE s)

/-- Reserved opcode 0xF: `raise Illegal(0xF)` (R57). -/
def execReservedF (s : State) : Host.Outcome State Fault Refusal := .next (raiseIllegal 0xF s)

end Sys2Proof.Machine
end

