-- ==== Sys2Proof/Machine/Step.lean ====
section
/-! DEFINITION. One step of the machine: reset, accept or commit (R6, R50). The commit is the step R5 calls the
engine's: it "takes one accepted command and commits all of its effects at once". -/

namespace Sys2Proof.Machine

open Sys2Proof

/-- One step: what the next action of the schedule does. -/
def step (s : State) : Host.Outcome State Fault Refusal :=
  match s.event with
  | .reset => .next (resetEdge s.tick)
  | .commit c => exec (decodeCommand c) s.tick
  | .accept c => .next (Sys2Proof.Machine.accept c s.tick)
  | .nothing => .next s.tick
  | .impossible => .fault .busyWithoutCommand

/-- BPCE fetches nothing (R12); a commit takes its command from `PEND` (R50). The opcode table's word is put there,
with `BUSY` = 1 and the commit the next step. -/
def State.withFetchWord (s : State) (nbits w : Nat) : State :=
  loadPending (.ofBeat (BitVec.ofNat 100 (w % 2 ^ nbits))) s

end Sys2Proof.Machine
end

