-- ==== Sys2Proof/Config.lean ====
section
/-! DEFINITION. The two values the spec leaves open (section 4 of spec/00_scope.md): "A model takes them as
arguments". `Config` is the implementation parameter `LAT`, an argument of the clock in Machine/Clock.lean; the state
and its step know no `LAT` (R5, R7). `ConsumerArith` is the arithmetic of the external consumer, an argument of the
functions in Machine/Consumer.lean. BPCE has no undefined instruction result, so there is no opaque free value. -/

namespace Sys2Proof

/-- The implementation parameter of one BPCE. `LAT` is a positive integer (R7), so it is held as `LAT - 1`:
no configuration is ill-formed. -/
structure Config where
  latPred : Nat
  deriving DecidableEq, Repr

/-- `LAT`: rising edges from the accept of a command to its commit, the same for every command (R7, R141). -/
def Config.lat (c : Config) : Nat := c.latPred + 1

/-- What the consumer keeps between samples: x[n−1], x[n−2], y[n−1] and y[n−2] (R107). -/
structure History (α : Type) where
  x1 : α
  x2 : α
  y1 : α
  y2 : α
  deriving DecidableEq, Repr

/-- The consumer's open parameter `ConsumerArith` (R106), over sample values of type `α`: how it reads a coefficient
word, and how it evaluates the right side of
`y[n] = b0·x[n] + b1·x[n−1] + b2·x[n−2] − a1·y[n−1] − a2·y[n−2]` from b0, b1, b2, a1, a2, the sample x[n] and the
history. It is no part of BPCE's state. -/
structure ConsumerArith (α : Type) where
  read     : Word64 → α
  evaluate : α → α → α → α → α → α → History α → α

end Sys2Proof
end

