-- ==== Sys2Proof/Machine/Ports.lean ====
section
/-! DEFINITION. The output ports (R22, R35, R38, R42, R43): what the host and the consumer see in the clock cycle
between two edges. Reading a port has no side effect (R34). -/

namespace Sys2Proof.Machine

open Sys2Proof

/-- `rsp_code`: 0b00 is OK and 0b01 is ILLEGAL; 0b10 and 0b11 are never driven (R42, R115). -/
def RspCode.bits : RspCode → BitVec 2
  | .ok => 0b00
  | .illegal => 0b01

/-- The level of every output port in one clock cycle (R35, R38). -/
structure Outputs where
  cmdReady   : Bool
  rspValid   : Bool
  rspCode    : BitVec 2
  rspOp      : Opcode
  busy       : Bool
  coefB0     : Word64
  coefB1     : Word64
  coefB2     : Word64
  coefA1     : Word64
  coefA2     : Word64
  coefUpdate : Bool
  parFreq    : Word32
  parQ       : Word32
  parFs      : Word32
  nfMask     : BitVec 5
  deriving DecidableEq, Repr

/-- The output ports in a cycle, from the level of `rst` in that cycle: `cmd_ready` = ¬`BUSY` ∧ ¬`rst` (R35). With `rsp_valid` = 0 the ports `rsp_code` and `rsp_op` are 0 (R21). -/
def State.outputs (s : State) (rst : Bool) : Outputs where
  cmdReady   := !s.busy && !rst
  rspValid   := s.rsp.isSome
  rspCode    := match s.rsp with
    | some r => r.code.bits
    | none => 0
  rspOp      := match s.rsp with
    | some r => r.op
    | none => 0
  busy       := s.busy
  coefB0     := s.coef.b0
  coefB1     := s.coef.b1
  coefB2     := s.coef.b2
  coefA1     := s.coef.a1
  coefA2     := s.coef.a2
  coefUpdate := s.coefUpdate
  parFreq    := s.freq
  parQ       := s.qf
  parFs      := s.fs
  nfMask     := s.coef.nfMask

/-- The coefficient bus read as `{a2, a1, b2, b1, b0}`, 320 bits (R43). -/
def Outputs.coefBus (o : Outputs) : BitVec 320 := o.coefA2 ++ o.coefA1 ++ o.coefB2 ++ o.coefB1 ++ o.coefB0

end Sys2Proof.Machine
end

