-- ==== Sys2Proof/Machine/Consumer.lean ====
section
/-! DEFINITION. The consumer at its interface (spec/44_consumer_contract.md). "The rules here bind the consumer, not
BPCE": the biquad is outside BPCE (section 3 of spec/00_scope.md), so nothing here is part of `State` or of `step`.
These functions close the loop from the coefficient ports to the samples. -/

namespace Sys2Proof.Machine

open Sys2Proof

/-- One output sample: the consumer reads the five coefficient ports in one cycle (R105), evaluates the difference
equation with its own arithmetic (R106), and moves its history on (R107). It returns y[n] and the new history. -/
def consume {α : Type} (A : ConsumerArith α) (o : Outputs) (x : α) (h : History α) : α × History α :=
  let y := A.evaluate (A.read o.coefB0) (A.read o.coefB1) (A.read o.coefB2) (A.read o.coefA1) (A.read o.coefA2) x h
  (y, ⟨x, h.x1, y, h.y1⟩)

/-- The samples a consumer makes from a run of inputs while the ports hold one set. -/
def consumeAll {α : Type} (A : ConsumerArith α) (o : Outputs) : List α → History α → List α
  | [], _ => []
  | x :: xs, h =>
    let r := consume A o x h
    r.1 :: consumeAll A o xs r.2

/-- The example arithmetic of R106, "an example, not a requirement": binary64 samples and left-to-right evaluation
`((((b0⊗x0 ⊕ b1⊗x1) ⊕ b2⊗x2) ⊖ a1⊗y1) ⊖ a2⊗y2)`. -/
def exampleArith : ConsumerArith Word64 where
  read := id
  evaluate b0 b1 b2 a1 a2 x h :=
    sub64 (sub64 (add64 (add64 (mul64 b0 x) (mul64 b1 h.x1)) (mul64 b2 h.x2)) (mul64 a1 h.y1)) (mul64 a2 h.y2)

end Sys2Proof.Machine
end

