-- ==== Sys2Proof/Machine/Asm.lean ====
section
/-! DEFINITION. The text syntax of commands (R44, R45, R46): "One command goes on each line". A line is a list of
characters. -/

namespace Sys2Proof.Machine

open Sys2Proof

/-- What a line assembles to. -/
inductive AsmItem where
  /-- A command (R44, R45). -/
  | command (c : Command)
  /-- `RESET`: "not a command: asserts rst" (R44). -/
  | reset
  /-- A line with no text before its comment. -/
  | blank
  deriving DecidableEq, Repr

/-- Why a line is an assembly error; it then "assembles to nothing" (R45). -/
inductive AsmError where
  /-- The first word is no mnemonic of R44. -/
  | unknownMnemonic
  /-- Too few or too many operands. -/
  | operandCount
  /-- A frequency or Q operand that is neither a decimal literal nor a raw word of 32 bits. -/
  | badReal
  /-- A sample-rate operand that is not an integer from 0 to 4294967295 (R45). -/
  | badRate
  /-- An opcode of `RESERVED` that is not reserved (R44). -/
  | notReserved
  deriving DecidableEq, Repr

/-- A space or a tab. -/
def isBlank (c : Char) : Bool := c == ' ' || c == '\t'

/-- The text without blanks at either end. -/
def trim (cs : List Char) : List Char :=
  ((cs.dropWhile isBlank).reverse.dropWhile isBlank).reverse

/-- Consecutive characters that stand for consecutive digit values: `first` stands for `value`, and there are `count`
of them. -/
structure DigitBlock where
  first : Char
  value : Nat
  count : Nat
  deriving DecidableEq, Repr

/-- The digit value of a character of the block. -/
def DigitBlock.read (b : DigitBlock) (c : Char) : Option Nat :=
  if c.toNat < b.first.toNat then none
  else
    let place := c.toNat - b.first.toNat
    if place < b.count then some (b.value + place) else none

/-- The digits of decimal literals. -/
def decimalBlocks : List DigitBlock := [⟨'0', 0, 10⟩]

/-- The digits of raw words, in either case. -/
def hexBlocks : List DigitBlock := decimalBlocks ++ [⟨'A', 10, 6⟩, ⟨'a', 10, 6⟩]

/-- The value of a decimal digit. -/
def decDigit (c : Char) : Option Nat := decimalBlocks.findSome? (fun b => b.read c)

/-- The value of a hexadecimal digit. -/
def hexDigit (c : Char) : Option Nat := hexBlocks.findSome? (fun b => b.read c)

/-- The number a digit list reads as, after a prefix that reads as `n`. -/
def readDigits (digit : Char → Option Nat) (base : Nat) : List Char → Nat → Option Nat
  | [], n => some n
  | c :: cs, n =>
    match digit c with
    | some d => readDigits digit base cs (base * n + d)
    | none => none

/-- A nonempty list of digits as a number. -/
def number (digit : Char → Option Nat) (base : Nat) (cs : List Char) : Option Nat :=
  if cs.isEmpty then none else readDigits digit base cs 0

/-- A raw word `w:0x…` of at most 32 bits (R44). -/
def rawWord (cs : List Char) : Option Word32 :=
  match cs with
  | 'w' :: ':' :: '0' :: 'x' :: ds =>
    match number hexDigit 16 ds with
    | some n => if n < 2 ^ 32 then some (BitVec.ofNat 32 n) else none
    | none => none
  | _ => none

/-- The binary32 word nearest to `(-1)^neg · m · 10^e`, ties to even, in a single rounding (R45). A zero keeps the sign
of the literal: R45 says so of `-0`; that a nonzero negative literal which rounds to zero, such as `-1e-60`, becomes
0x80000000 too is the model's choice (DESIGN CHOICE, notes/assumptions/16.md, unsafe). -/
def decimal32 (neg : Bool) (m : Nat) (e : Int) : Word32 :=
  if 0 ≤ e then pack32 neg (binary32.roundMag (m * 10 ^ e.toNat) 0)
  else
    let k := stickyQuot m (10 ^ (-e).toNat)
    pack32 neg (binary32.roundMag k.1 k.2)

/-- A decimal exponent: digits, with an optional sign. -/
def exponent (cs : List Char) : Option Int :=
  match cs with
  | '-' :: ds => (number decDigit 10 ds).map (fun n => -(n : Int))
  | '+' :: ds => (number decDigit 10 ds).map (fun n => (n : Int))
  | ds => (number decDigit 10 ds).map (fun n => (n : Int))

/-- The digits of an unsigned literal before its exponent, as an integer and a power of ten: `12.5` is
`125 · 10^-1`. -/
def mantissa (cs : List Char) : Option (Nat × Int) :=
  let whole := cs.takeWhile (· != '.')
  match cs.drop whole.length with
  | [] => (number decDigit 10 whole).map (fun n => (n, 0))
  | _ :: frac =>
    match number decDigit 10 whole, number decDigit 10 frac with
    | some _, some _ => (number decDigit 10 (whole ++ frac)).map (fun n => (n, -(frac.length : Int)))
    | _, _ => none

/-- An unsigned decimal real literal such as `1000`, `1.0` or `1e-3`, with a sign already read (R44, R45). -/
def unsignedReal (neg : Bool) (cs : List Char) : Option Word32 :=
  let isExp := fun c => c == 'e' || c == 'E'
  let body := cs.takeWhile (fun c => !isExp c)
  match mantissa body, cs.drop body.length with
  | some (m, e), [] => some (decimal32 neg m e)
  | some (m, e), _ :: ds => (exponent ds).map (fun k => decimal32 neg m (e + k))
  | none, _ => none

/-- A frequency or Q operand: a raw word or a decimal literal; "`-0` becomes 0x80000000" (R45). -/
def realOperand (cs : List Char) : Option Word32 :=
  match cs with
  | 'w' :: _ => rawWord cs
  | '-' :: ds => unsignedReal true ds
  | _ => unsignedReal false cs

/-- A sample-rate operand: an unsigned decimal integer from 0 to 4294967295, or a raw word (R44, R45). -/
def rateOperand (cs : List Char) : Option Word32 :=
  match cs with
  | 'w' :: _ => rawWord cs
  | _ =>
    match number decDigit 10 cs with
    | some n => if n < 2 ^ 32 then some (BitVec.ofNat 32 n) else none
    | none => none

/-- The opcode operand of `RESERVED`: "any op in 0x0, 0x6..0xF" (R44). -/
def reservedOp (cs : List Char) : Option Opcode :=
  match cs with
  | '0' :: 'x' :: ds =>
    match number hexDigit 16 ds with
    | some n => if n = 0 ∨ (6 ≤ n ∧ n < 16) then some (BitVec.ofNat 4 n) else none
    | none => none
  | _ => none

/-- The operands of a line: split at commas, blanks around each removed; `current` is the operand being read,
reversed. -/
def splitOperands : List Char → List Char → List (List Char)
  | [], current => [trim current.reverse]
  | ',' :: cs, current => trim current.reverse :: splitOperands cs []
  | c :: cs, current => splitOperands cs (c :: current)

/-- The operands of a line from the text after its mnemonic. -/
def operands (cs : List Char) : List (List Char) := if (trim cs).isEmpty then [] else splitOperands cs []

/-- One real operand or the error. -/
def needReal (cs : List Char) : Except AsmError Word32 :=
  match realOperand cs with
  | some w => .ok w
  | none => .error .badReal

/-- One sample-rate operand or the error. -/
def needRate (cs : List Char) : Except AsmError Word32 :=
  match rateOperand cs with
  | some w => .ok w
  | none => .error .badRate

/-- The command of an instruction, as an item. -/
def AsmItem.ofInstr (i : Instr) : AsmItem := .command i.command

/-- What a mnemonic and its operands assemble to (R44): unused argument words are 0 (R45). -/
def assembleWords (mnemonic : List Char) (ops : List (List Char)) : Except AsmError AsmItem :=
  if mnemonic = ['C', 'O', 'N', 'S', 'T', 'R', 'U', 'C', 'T'] then
    match ops with
    | [f, q, r] => do return .ofInstr (.construct (← needReal f) (← needReal q) (← needRate r))
    | _ => .error .operandCount
  else if mnemonic = ['S', 'E', 'T', '_', 'F', 'R', 'E', 'Q'] then
    match ops with
    | [f] => do return .ofInstr (.setFreq (← needReal f))
    | _ => .error .operandCount
  else if mnemonic = ['S', 'E', 'T', '_', 'F', 'S'] then
    match ops with
    | [r] => do return .ofInstr (.setFs (← needRate r))
    | _ => .error .operandCount
  else if mnemonic = ['S', 'E', 'T', '_', 'Q'] then
    match ops with
    | [q] => do return .ofInstr (.setQ (← needReal q))
    | _ => .error .operandCount
  else if mnemonic = ['C', 'A', 'L', 'C'] then
    if ops.isEmpty then .ok (.ofInstr .calculate) else .error .operandCount
  else if mnemonic = ['R', 'E', 'S', 'E', 'R', 'V', 'E', 'D'] then
    match ops with
    | [o] =>
      match reservedOp o with
      | some op => .ok (.command ⟨op, 0, 0, 0⟩)
      | none => .error .notReserved
    | _ => .error .operandCount
  else if mnemonic = ['R', 'E', 'S', 'E', 'T'] then
    if ops.isEmpty then .ok .reset else .error .operandCount
  else .error .unknownMnemonic

/-- One line of text: "A `;` starts a comment that runs to the end of the line" (R44). -/
def assembleLine (line : List Char) : Except AsmError AsmItem :=
  let text := trim (line.takeWhile (· != ';'))
  if text.isEmpty then .ok .blank
  else
    let mnemonic := text.takeWhile (fun c => !isBlank c)
    assembleWords mnemonic (operands (text.drop mnemonic.length))

/-- A program, line by line: a line in error, like a blank one, assembles to nothing (R45). -/
def assemble (lines : List (List Char)) : List AsmItem :=
  lines.filterMap (fun l =>
    match assembleLine l with
    | .ok .blank => none
    | .ok item => some item
    | .error _ => none)

end Sys2Proof.Machine
end

