-- ==== Sys2Proof/Machine/Clock.lean ====
section
/-! DEFINITION. The clock: what the machine's step does at each rising edge of `clk`, for a given `LAT` (R7, R35, R120,
R130, R136, R141). "Clock cycles exist only inside `LAT` and do not appear in the model's state" (R5), so the clock is a
function from the pins the host drives to a schedule: one action for each edge. -/

namespace Sys2Proof.Machine

open Sys2Proof

/-- What the host drives on its input ports at one rising edge: `rst`, `cmd_valid`, and `cmd_op` with
`cmd_arg0..2` (R35). -/
structure Pins where
  rst      : Bool
  cmdValid : Bool
  cmd      : Command
  deriving DecidableEq, Repr

/-- A host that drives zeros: no reset and no command offered. -/
def Pins.quiet : Pins := ⟨false, false, ⟨0, 0, 0, 0⟩⟩

/-- A host that offers a command: `cmd_valid` = 1 and `rst` = 0 (R35). -/
def Pins.offer (c : Command) : Pins := ⟨false, true, c⟩

/-- A host that asserts `rst` and offers nothing (R130). -/
def Pins.reset : Pins := ⟨true, false, ⟨0, 0, 0, 0⟩⟩

/-- What happens at one rising edge, in the order of R120: reset, then a commit that is due, then an offered command.
`due` is how many edges pass before the commit edge of the pending command; `none` when no command is pending. -/
def edgeAction (due : Option Nat) (p : Pins) : AgentStep :=
  if p.rst then .reset
  else if due = some 0 then .commit
  else if p.cmdValid then .offer p.cmd
  else .quiet

/-- How many edges pass before the commit edge, after one edge. A command accepted at edge t commits at edge
t + `LAT`, whatever its opcode and operands (R7, R141); a reset discards it (R132). -/
def nextDue (cfg : Config) (due : Option Nat) (p : Pins) : Option Nat :=
  if p.rst then none
  else
    match due with
    | some 0 => none
    | some (n + 1) => some n
    | none => if p.cmdValid then some cfg.latPred else none

/-- The schedule of the edges at which the host drives the pins. -/
def clock (cfg : Config) (due : Option Nat) : List Pins → List AgentStep
  | [] => []
  | p :: ps => edgeAction due p :: clock cfg (nextDue cfg due p) ps

/-- The state at a rising edge: the machine's next step is what happens at this edge. -/
def State.atEdge (s : State) (due : Option Nat) (p : Pins) : State :=
  { s with schedule := edgeAction due p :: s.schedule }

end Sys2Proof.Machine
end

