-- ==== Sys2Proof/Machine/Program.lean ====
section
/-! DEFINITION. Programs: "BPCE has no program counter … so a program is a sequence of commands" (section 10 of
spec/95_test_vectors.md). What a program of commands does, the steps it takes, and the pins a host drives for it. -/

namespace Sys2Proof.Machine

open Sys2Proof

/-- One accepted command and all of its effects at once (R5). -/
def runCommand (c : Command) (s : State) : Host.Outcome State Fault Refusal :=
  exec (decodeCommand c) (accept c s)

/-- Commands one at a time, in the order they are accepted (R30). -/
def runCommands : List Command → State → Host.Outcome State Fault Refusal
  | [], s => .next s
  | c :: cs, s =>
    match runCommand c s with
    | .next t => runCommands cs t
    | .fault r => .fault r
    | .refused r => .refused r

/-- What a host drives for one command: the offer, accepted at once by an idle engine, then `LAT` edges up to and
including the commit edge (R141). -/
def commandPins (cfg : Config) (c : Command) : List Pins := .offer c :: List.replicate cfg.lat .quiet

/-- What a host drives for a program of commands, each offered at the first edge after the commit before it. -/
def programPins (cfg : Config) (cs : List Command) : List Pins := cs.flatMap (commandPins cfg)

/-- The steps of an assembled line: a command is accepted and commits, and `RESET` asserts `rst` for one edge
(R44, R50). -/
def AsmItem.actions : AsmItem → List AgentStep
  | .command c => [.offer c, .commit]
  | .reset => [.reset]
  | .blank => []

/-- The state with an assembled program to run. -/
def State.withProgram (s : State) (items : List AsmItem) : State :=
  { s with schedule := items.flatMap AsmItem.actions }

end Sys2Proof.Machine
end

