-- ==== Sys2Proof/Safety.lean ====
section
/-! DEFINITION. What counts as a safe run, and the words claims are stated in: the invariant of the machine, the
number a word encodes, and what it is to be the nearest number of a format. -/

namespace Sys2Proof.Machine

open Sys2Proof

/-- The invariant of BPCE at every instant outside a commit. -/
structure State.Consistent (s : State) : Prop where
  /-- "`COEF` equals `Coefs(FREQ, QF, FS)`" (R17). -/
  coef_current : s.coef = coefs s.freq s.qf s.fs
  /-- `PEND` "is valid exactly when `BUSY` = 1" (R20). -/
  busy_iff_pend : s.busy = s.pend.isSome
  /-- A response is driven in the cycle after a commit, and a commit ends the busy window (R19, R21). -/
  rsp_idle : s.rsp.isSome = true → s.busy = false
  /-- `coef_update` pulses together with an OK response and in no other cycle (R99). -/
  update_iff_ok : s.coefUpdate = true ↔ ∃ op, s.rsp = some ⟨.ok, op⟩
  /-- The echoed opcode decides the code: ILLEGAL exactly for a reserved opcode (R115). -/
  rsp_code : ∀ r, s.rsp = some r → (r.code = .illegal ↔ r.op.reserved = true)

/-- A run that never stops: every step from `s` answers a next state (R115: BPCE raises no exception). -/
def State.NeverStops (s : State) : Prop := ∀ k, ∃ t, Host.Core.run Sys2Proof.core k s = .next t

/-- The valid parameters of R93 and R135: FS ≥ 1, FREQ and QF finite, QF > 0 and 0 < u < 1/2. The host's duty; BPCE
checks none of it. -/
def validParams (fw qw sw : Word32) : Bool :=
  match b32 fw, b32 qw, b64 (turns (freqValue fw) (fsValue sw)) with
  | .fin _ _ _, .fin false q _, .fin false m e =>
    decide (sw ≠ 0) && decide (0 < q) && decide (0 < m) &&
      decide (m * 2 ^ (1 + e).toNat < 2 ^ (-(1 + e)).toNat)
  | _, _, _ => false

/-- The number of a finite value; zero for the values that are no number. -/
def Value.toRat : Value → ℚ
  | .fin neg m e => (if neg then -1 else 1) * ((m : ℚ) * 2 ^ e)
  | .inf _ => 0
  | .nan => 0

/-- A finite value. -/
def Value.isFin : Value → Bool
  | .fin _ _ _ => true
  | .inf _ => false
  | .nan => false

/-- A zero of either sign. -/
def Value.isZero : Value → Bool
  | .fin _ m _ => m == 0
  | .inf _ => false
  | .nan => false

/-- The sign bit of a value. -/
def Value.neg : Value → Bool
  | .fin neg _ _ => neg
  | .inf neg => neg
  | .nan => false

/-- The number a finite binary64 word encodes (R43). -/
def num64 (w : Word64) : ℚ := (b64 w).toRat

/-- The number a finite binary32 word encodes (R37). -/
def num32 (w : Word32) : ℚ := (b32 w).toRat

/-- The number that magnitude bits below infinity encode in a format (R37, R43). -/
def Format.magNum (f : Format) (g : Nat) : ℚ :=
  (f.value false (g / 2 ^ (f.prec - 1)) (g % 2 ^ (f.prec - 1))).toRat

/-- The magnitude bits of infinity. -/
def Format.infMag (f : Format) : Nat := f.expOnes * 2 ^ (f.prec - 1)

/-- The least number that rounds to infinity: halfway between the largest finite number and the next power of two
(R45 gives it for binary32: 2^128 − 2^103). -/
def Format.overflow (f : Format) : ℚ := (2 ^ f.prec - 1 / 2) * 2 ^ (f.minExp + f.expOnes - 2)

/-- The magnitude bits `g` are those of `x ≥ 0` rounded to nearest, ties to even (R4): infinity from the overflow
threshold on; below it a finite magnitude that no other finite magnitude is nearer than, and, where another is as
near, the one whose last bit is 0. -/
def Format.NearestEven (f : Format) (x : ℚ) (g : Nat) : Prop :=
  if f.overflow ≤ x then g = f.infMag
  else g < f.infMag ∧ ∀ g' < f.infMag,
    |f.magNum g - x| ≤ |f.magNum g' - x| ∧ (|f.magNum g - x| = |f.magNum g' - x| → g' ≠ g → g % 2 = 0)

/-- The binary64 word `w` is the number `x` rounded to nearest, ties to even; a nonzero `x` gives its sign (R4). -/
def Rounded64 (x : ℚ) (w : Word64) : Prop :=
  binary64.NearestEven |x| (w.toNat % 2 ^ 63) ∧ (x < 0 → w.msb = true) ∧ (0 < x → w.msb = false)

/-- Horner's rule with every operation rounded separately (R71, R72): from `p`, for each coefficient in turn the product
with `x2` and then the sum are rounded once, every one of them finite, and the last sum is `r`. -/
def HornerRounds (x2 : Word64) : Word64 → List Word64 → Word64 → Prop
  | p, [], r => r = p
  | p, c :: cs, r => ∃ t p' : Word64, (b64 t).isFin = true ∧ (b64 p').isFin = true ∧
      Rounded64 (num64 p * num64 x2) t ∧ Rounded64 (num64 t + num64 c) p' ∧ HornerRounds x2 p' cs r

/-- The binary32 word `w` is the number `x` rounded to nearest, ties to even; a nonzero `x` gives its sign (R45). -/
def Rounded32 (x : ℚ) (w : Word32) : Prop :=
  binary32.NearestEven |x| (w.toNat % 2 ^ 31) ∧ (x < 0 → w.msb = true) ∧ (0 < x → w.msb = false)

end Sys2Proof.Machine
end

