-- ==== Sys2Proof/Certificates/Slice0/Obligations.lean ====
section
/-! DEFINITION. The statements for the provers. Each docstring names the rule of spec/ it formalises. -/

open Sys2Proof Sys2Proof.Machine

/-- The beat of a command has op in bits 3:0, arg0 in 35:4, arg1 in 67:36 and arg2 in 99:68; taking the fields of
any beat and putting them together again gives the beat; the opcode of the decoded command is bits 3:0 of the
beat, and two beats with the same bits 3:0 decode to commands with the same opcode. [R36] -/
def Obligations.BeatFieldsAreOpAndArguments : Prop :=
  (∀ c : Command, c.toBeat.extractLsb' 0 4 = c.op ∧ c.toBeat.extractLsb' 4 32 = c.arg0 ∧
    c.toBeat.extractLsb' 36 32 = c.arg1 ∧ c.toBeat.extractLsb' 68 32 = c.arg2) ∧
  (∀ b : Beat, (Command.ofBeat b).toBeat = b) ∧
  (∀ b : Beat, (decodeBeat b).opcode = b.extractLsb' 0 4)

/-- For every instruction, all sixteen constructors and every value of every operand: it is well formed, decoding
its beat gives it back, and so does the opcode table's numbering of the beat (104 bits). [R36, R39, R40, R45] -/
def Obligations.DecodeOfEncodeIsIdentity : Prop :=
  ∀ i : Instr, i.wellFormed = true ∧ decodeBeat (encode i) = i ∧ decode (encode i).toNat = .ok i ∧
    decodeTableWord 104 (encode i).toNat = some i

/-- For every beat: encoding the decoded command gives the same op, every argument word the command uses as it was,
and 0 in every argument word it does not use. [R36, R41, R45] -/
def Obligations.EncodeOfDecodeClearsUnusedArguments : Prop :=
  ∀ b : Beat, encode (decodeBeat b) =
    Command.toBeat
      { op := (Command.ofBeat b).op
        arg0 := if (decodeBeat b).usedArgs.1 then (Command.ofBeat b).arg0 else 0
        arg1 := if (decodeBeat b).usedArgs.2.1 then (Command.ofBeat b).arg1 else 0
        arg2 := if (decodeBeat b).usedArgs.2.2 then (Command.ofBeat b).arg2 else 0 }

/-- For every command word: op 0x1 to 0x5 decode to CONSTRUCT, SET_FREQ, SET_FS, SET_Q and CALC with the operands of
the table, op 0x0 and 0x6 to 0xF to the reserved command of that opcode. [R39] -/
def Obligations.OpcodeSelectsCommand : Prop :=
  ∀ c : Command,
    (c.op = 0x0 → decodeCommand c = .reserved0) ∧
    (c.op = 0x1 → decodeCommand c = .construct c.arg0 c.arg1 c.arg2) ∧
    (c.op = 0x2 → decodeCommand c = .setFreq c.arg0) ∧
    (c.op = 0x3 → decodeCommand c = .setFs c.arg0) ∧
    (c.op = 0x4 → decodeCommand c = .setQ c.arg0) ∧
    (c.op = 0x5 → decodeCommand c = .calculate) ∧
    (c.op = 0x6 → decodeCommand c = .reserved6) ∧
    (c.op = 0x7 → decodeCommand c = .reserved7) ∧
    (c.op = 0x8 → decodeCommand c = .reserved8) ∧
    (c.op = 0x9 → decodeCommand c = .reserved9) ∧
    (c.op = 0xA → decodeCommand c = .reservedA) ∧
    (c.op = 0xB → decodeCommand c = .reservedB) ∧
    (c.op = 0xC → decodeCommand c = .reservedC) ∧
    (c.op = 0xD → decodeCommand c = .reservedD) ∧
    (c.op = 0xE → decodeCommand c = .reservedE) ∧
    (c.op = 0xF → decodeCommand c = .reservedF)

/-- The text line assembles to arg0 = 0x447A0000, arg1 = 0x3F800000, arg2 = 0x0000BB80, op = 0x1, whose beat is
0000BB80_3F800000_447A0000_1, which decodes to that CONSTRUCT; the beats of V-C2, V-C6 and V-E1 decode to
SET_FREQ 2000, CALC and reserved 0xF. [R47] -/
def Obligations.WorkedEncodingOfConstruct : Prop :=
  assembleLine "CONSTRUCT 1000, 1, 48000".toList = .ok (.command ⟨0x1, 0x447A0000, 0x3F800000, 0x0000BB80⟩) ∧
  Command.toBeat ⟨0x1, 0x447A0000, 0x3F800000, 0x0000BB80⟩ = 0x0000BB803F800000447A00001 ∧
  decodeBeat 0x0000BB803F800000447A00001 = .construct 0x447A0000 0x3F800000 0x0000BB80 ∧
  decodeBeat 0x000000000000000044FA00002 = .setFreq 0x44FA0000 ∧
  decodeBeat 0x3333333322222222111111115 = .calculate ∧
  decodeBeat 0xFFFFFFFF12345678DEADBEEFF = .reservedF

/-- A digit list reads as its decimal number; a literal whose text is digits, or digits, a dot and digits, has the
value of its digits times 10 to minus the number of digits after the dot; an exponent, with or without a minus
sign, adds to that power of ten; a leading minus sets the sign. For every sign, digits m and power of ten e, the
literal's word is (-1)^neg · m · 10^e rounded to nearest, ties to even, with the literal's sign bit even for a
zero (infinity from 2^128 − 2^103 on); -0 becomes 0x80000000. In SET_FS and as the third operand of CONSTRUCT a
decimal sample rate is its integer when it is below 2^32, and otherwise, as when it is no integer, it is an
assembly error; a line of SET_FS, a blank and the rate, and a line of CONSTRUCT, a blank, two readable operands
and the rate with a comma and a blank between the operands, assembles as those words do, so with a rate out of
range it is in error; a comment behind a line changes nothing; a line in error adds nothing to the program it
stands in; unused argument words are 0. (R45 gives the rounding, the infinities, -0, the range of the rate and
the zero argument words, and says that a line with a rate out of range assembles to nothing. The model's own
choice, log entry 10: that a line in error of any other kind assembles to nothing too, that a rate which is no
integer is such an error, and the forms of a literal and of a line that R44 shows by examples only, such as
12.5e3. The model's own choice, log entry 16: the sign of a zero word of any negative literal but -0, such as
-1e-60, which becomes 0x80000000.) [R45, spec/30_encoding.md section 3, R44, notes/assumptions/10.md,
notes/assumptions/16.md] -/
def Obligations.DecimalLiteralRoundsOnce : Prop :=
  (∀ d : Nat, d < 10 → number decDigit 10 [Nat.digitChar d] = some d) ∧
  (∀ (ds : List Char) (n d : Nat), d < 10 → number decDigit 10 ds = some n →
    number decDigit 10 (ds ++ [Nat.digitChar d]) = some (10 * n + d)) ∧
  (∀ (ds : List Char) (n : Nat), number decDigit 10 ds = some n → mantissa ds = some (n, 0)) ∧
  (∀ (ds fs : List Char) (n k : Nat), number decDigit 10 ds = some n → number decDigit 10 fs = some k →
    mantissa (ds ++ '.' :: fs) = some (n * 10 ^ fs.length + k, -(fs.length : Int))) ∧
  (∀ (cs : List Char) (m : Nat) (e : Int), mantissa cs = some (m, e) →
    realOperand cs = some (decimal32 false m e) ∧ realOperand ('-' :: cs) = some (decimal32 true m e) ∧
    ∀ (ds : List Char) (x : Nat), number decDigit 10 ds = some x →
      realOperand (cs ++ 'e' :: ds) = some (decimal32 false m (e + x)) ∧
      realOperand ('-' :: cs ++ 'e' :: ds) = some (decimal32 true m (e + x)) ∧
      realOperand (cs ++ 'e' :: '-' :: ds) = some (decimal32 false m (e - x)) ∧
      realOperand ('-' :: cs ++ 'e' :: '-' :: ds) = some (decimal32 true m (e - x))) ∧
  (∀ (neg : Bool) (m : Nat) (e : Int),
    Rounded32 ((if neg then -1 else 1) * ((m : ℚ) * 10 ^ e)) (decimal32 neg m e) ∧
      (decimal32 neg m e).msb = neg) ∧
  realOperand ['-', '0'] = some 0x80000000 ∧
  (∀ (ds : List Char) (n : Nat), number decDigit 10 ds = some n →
    (n < 2 ^ 32 → assembleWords "SET_FS".toList [ds] = .ok (.command ⟨0x3, BitVec.ofNat 32 n, 0, 0⟩)) ∧
    (2 ^ 32 ≤ n → assembleWords "SET_FS".toList [ds] = .error .badRate) ∧
    ∀ (f q : List Char) (fw qw : Word32), realOperand f = some fw → realOperand q = some qw →
      (n < 2 ^ 32 →
        assembleWords "CONSTRUCT".toList [f, q, ds] = .ok (.command ⟨0x1, fw, qw, BitVec.ofNat 32 n⟩)) ∧
      (2 ^ 32 ≤ n → assembleWords "CONSTRUCT".toList [f, q, ds] = .error .badRate)) ∧
  (∀ ds : List Char, number decDigit 10 ds = none → ds.head? ≠ some 'w' →
    assembleWords "SET_FS".toList [ds] = .error .badRate ∧
    ∀ f q : List Char, ∃ err, assembleWords "CONSTRUCT".toList [f, q, ds] = .error err) ∧
  (∀ (ds : List Char) (n : Nat), number decDigit 10 ds = some n →
    (assembleLine ("SET_FS".toList ++ ' ' :: ds) = assembleWords "SET_FS".toList [ds]) ∧
    (2 ^ 32 ≤ n → assembleLine ("SET_FS".toList ++ ' ' :: ds) = .error .badRate) ∧
    ∀ (f q : List Char) (fw qw : Word32), realOperand f = some fw → realOperand q = some qw →
      let line := "CONSTRUCT".toList ++ ' ' :: f ++ ',' :: ' ' :: q ++ ',' :: ' ' :: ds
      assembleLine line = assembleWords "CONSTRUCT".toList [f, q, ds] ∧
      (2 ^ 32 ≤ n → assembleLine line = .error .badRate)) ∧
  (∀ line comment : List Char, assembleLine (line ++ ';' :: comment) = assembleLine line) ∧
  (∀ (before after : List (List Char)) (line : List Char) (err : AsmError), assembleLine line = .error err →
    assemble (before ++ line :: after) = assemble before ++ assemble after)

/-- In every state and for all arguments, CONSTRUCT answers the next state in which FREQ, QF and FS are the
arguments verbatim, COEF is Coefs of them, BUSY is 0, PEND is invalid, the response is OK with op 0x1 and
coef_update pulses; everything else (the schedule of the agents) is unchanged. [spec/40_commands.md section 2,
pseudocode of CONSTRUCT, spec/40_commands.md section 1, commit] -/
def Obligations.ConstructCommits : Prop :=
  ∀ (freq q fs : Word32) (s : State), exec (.construct freq q fs) s =
    .next { s with
        freq := freq, qf := q, fs := fs, coef := coefs freq q fs,
        busy := false, pend := none,
        rsp := some ⟨.ok, 0x1⟩, coefUpdate := true }

/-- In every state and for every argument, SET_FREQ answers the next state in which FREQ is the argument verbatim,
QF and FS are unchanged, COEF is Coefs(a0, QF, FS), BUSY is 0, PEND is invalid, the response is OK with op 0x2
and coef_update pulses; everything else is unchanged. [spec/40_commands.md section 2, pseudocode of SET_FREQ,
spec/40_commands.md section 1, commit] -/
def Obligations.SetFreqCommits : Prop :=
  ∀ (freq : Word32) (s : State), exec (.setFreq freq) s =
    .next { s with
        freq := freq, qf := s.qf, fs := s.fs, coef := coefs freq s.qf s.fs,
        busy := false, pend := none,
        rsp := some ⟨.ok, 0x2⟩, coefUpdate := true }

/-- In every state and for every argument, SET_FS answers the next state in which FS is the argument verbatim, FREQ
and QF are unchanged, COEF is Coefs(FREQ, QF, a0), BUSY is 0, PEND is invalid, the response is OK with op 0x3
and coef_update pulses; everything else is unchanged. [spec/40_commands.md section 2, pseudocode of SET_FS,
spec/40_commands.md section 1, commit] -/
def Obligations.SetFsCommits : Prop :=
  ∀ (fs : Word32) (s : State), exec (.setFs fs) s =
    .next { s with
        freq := s.freq, qf := s.qf, fs := fs, coef := coefs s.freq s.qf fs,
        busy := false, pend := none,
        rsp := some ⟨.ok, 0x3⟩, coefUpdate := true }

/-- In every state and for every argument, SET_Q answers the next state in which QF is the argument verbatim, FREQ
and FS are unchanged, COEF is Coefs(FREQ, a0, FS), BUSY is 0, PEND is invalid, the response is OK with op 0x4
and coef_update pulses; everything else is unchanged. [spec/40_commands.md section 2, pseudocode of SET_Q,
spec/40_commands.md section 1, commit] -/
def Obligations.SetQCommits : Prop :=
  ∀ (q : Word32) (s : State), exec (.setQ q) s =
    .next { s with
        freq := s.freq, qf := q, fs := s.fs, coef := coefs s.freq q s.fs,
        busy := false, pend := none,
        rsp := some ⟨.ok, 0x4⟩, coefUpdate := true }

/-- In every state, CALC answers the next state in which FREQ, QF and FS are unchanged, COEF is Coefs(FREQ, QF, FS),
BUSY is 0, PEND is invalid, the response is OK with op 0x5 and coef_update pulses; everything else is unchanged.
[spec/40_commands.md section 2, pseudocode of CALC, spec/40_commands.md section 1, commit] -/
def Obligations.CalcCommits : Prop :=
  ∀ s : State, exec .calculate s =
    .next { s with
        freq := s.freq, qf := s.qf, fs := s.fs, coef := coefs s.freq s.qf s.fs,
        busy := false, pend := none,
        rsp := some ⟨.ok, 0x5⟩, coefUpdate := true }

/-- For each of the eleven reserved opcodes and every state: it answers the next state in which only BUSY (0), PEND
(invalid), the response (ILLEGAL with its opcode) and coef_update (0) are written, so FREQ, QF, FS, COEF and
NF_MASK are unchanged; the response is over after one step; and any later command does in it exactly what it
does in the state before. [R116] -/
def Obligations.ReservedOpcodesCompleteIllegal : Prop :=
  ∀ (i : Instr) (op : Opcode),
    (i, op) ∈ ([(.reserved0, 0x0), (.reserved6, 0x6), (.reserved7, 0x7), (.reserved8, 0x8), (.reserved9, 0x9),
      (.reservedA, 0xA), (.reservedB, 0xB), (.reservedC, 0xC), (.reservedD, 0xD), (.reservedE, 0xE),
      (.reservedF, 0xF)] : List (Instr × Opcode)) →
    ∀ s : State, ∃ t : State,
      exec i s = .next t ∧
      t = { s with busy := false, pend := none, rsp := some ⟨.illegal, op⟩, coefUpdate := false } ∧
      (∀ rst : Bool, (t.outputs rst).nfMask = (s.outputs rst).nfMask ∧
        (t.outputs rst).rspValid = true ∧ (t.outputs rst).rspCode = 0b01 ∧ (t.outputs rst).rspOp = op ∧
        (t.tick.outputs rst).rspValid = false) ∧
      ∀ j : Instr, exec j t = exec j s

/-- For every command word and every state, the commit answers a next state whose response is OK for op 0x1 to 0x5
and ILLEGAL for op 0x0 and 0x6 to 0xF, with the opcode echoed, and coef_update pulses exactly with OK; no
argument value and no register value changes that. [spec/60_exceptions.md section 1, the table of R115, R42] -/
def Obligations.EveryCommandCompletesWithOneCode : Prop :=
  ∀ (c : Command) (s : State), ∃ t : State,
    exec (decodeCommand c) s = .next t ∧ t.busy = false ∧ t.pend = none ∧
    t.rsp = some ⟨if c.op = 0x0 ∨ 0x6 ≤ c.op then .illegal else .ok, c.op⟩ ∧
    (t.coefUpdate = true ↔ c.op ≠ 0x0 ∧ c.op < 0x6)

/-- Two command words with the same op that agree in the argument words the command uses (arg0 for op 0x1 to 0x4,
arg1 and arg2 for op 0x1) decode to the same command, so their commits are equal in every state, response and
coefficients included; and whatever the argument words, the commit answers a next state, with OK for op 0x1 to
0x5. [R41] -/
def Obligations.UnusedArgumentsAreIgnored : Prop :=
  ∀ c d : Command, c.op = d.op →
    (c.op = 0x1 ∨ c.op = 0x2 ∨ c.op = 0x3 ∨ c.op = 0x4 → c.arg0 = d.arg0) →
    (c.op = 0x1 → c.arg1 = d.arg1 ∧ c.arg2 = d.arg2) →
    decodeCommand c = decodeCommand d ∧
    (∀ s : State, exec (decodeCommand c) s = exec (decodeCommand d) s) ∧
    (∀ s : State, ∃ t : State, exec (decodeCommand c) s = .next t ∧
      (c.op ≠ 0x0 → c.op < 0x6 → t.rsp = some ⟨.ok, c.op⟩))

/-- When any command but CONSTRUCT commits, at least two of FREQ, QF and FS are unchanged, the schedule of the
agents is unchanged, and COEF is either unchanged or Coefs of the new parameters; SET_FREQ then SET_FS commits
Coefs(f2, QF, FS) in between, SET_FS then SET_FREQ commits Coefs(FREQ, QF, s2) in between, and both orders and
one CONSTRUCT end with the same parameters and coefficients. [R60] -/
def Obligations.OnlyConstructChangesTwoParameters : Prop :=
  (∀ (i : Instr) (s t : State), (∀ f q r, i ≠ .construct f q r) → exec i s = .next t →
    ((t.freq = s.freq ∧ t.qf = s.qf) ∨ (t.freq = s.freq ∧ t.fs = s.fs) ∨ (t.qf = s.qf ∧ t.fs = s.fs)) ∧
    t.schedule = s.schedule ∧ (t.coef = s.coef ∨ t.coef = coefs t.freq t.qf t.fs)) ∧
  (∀ (f2 s2 : Word32) (s : State), ∃ t u t' u' v : State,
    exec (.setFreq f2) s = .next t ∧ t.coef = coefs f2 s.qf s.fs ∧ exec (.setFs s2) t = .next u ∧
    exec (.setFs s2) s = .next t' ∧ t'.coef = coefs s.freq s.qf s2 ∧ exec (.setFreq f2) t' = .next u' ∧
    exec (.construct f2 s.qf s2) s = .next v ∧
    (u.freq, u.qf, u.fs, u.coef) = (v.freq, v.qf, v.fs, v.coef) ∧
    (u'.freq, u'.qf, u'.fs, u'.coef) = (v.freq, v.qf, v.fs, v.coef))

/-- For every command, if it answers a next state t then executed again in t it answers t: registers, coefficients
and response are bit-identical. [R58] -/
def Obligations.RepeatedCommandIsIdempotent : Prop :=
  ∀ (i : Instr) (s t : State), exec i s = .next t → exec i t = .next t

/-- For every state: SET_FREQ, SET_FS and SET_Q with the value their register holds answer the state CALC answers,
but with op 0x2, 0x3 or 0x4 in the response. [R59] -/
def Obligations.SetterOfHeldValueIsCalc : Prop :=
  ∀ s : State, ∃ t : State, exec .calculate s = .next t ∧
    exec (.setFreq s.freq) s = .next { t with rsp := some ⟨.ok, 0x2⟩ } ∧
    exec (.setFs s.fs) s = .next { t with rsp := some ⟨.ok, 0x3⟩ } ∧
    exec (.setQ s.qf) s = .next { t with rsp := some ⟨.ok, 0x4⟩ }

/-- In every consistent state CALC answers a next state with the same FREQ, QF, FS, COEF and NF_MASK, response OK
with op 0x5 and a coef_update pulse. [spec/40_commands.md section 2, corner cases of CALC] -/
def Obligations.CalcChangesNoRegister : Prop :=
  ∀ s : State, s.Consistent → ∃ t : State, exec .calculate s = .next t ∧
    t.freq = s.freq ∧ t.qf = s.qf ∧ t.fs = s.fs ∧ t.coef = s.coef ∧ t.coef.nfMask = s.coef.nfMask ∧
    t.rsp = some ⟨.ok, 0x5⟩ ∧ t.coefUpdate = true

/-- Two states with equal FREQ, QF and FS, whatever their COEF, pending command, outputs and schedule: if a command
that is not reserved answers next states in both, those agree in FREQ, QF, FS, COEF, response and coef_update.
[R51] -/
def Obligations.ResultsDependOnParametersAlone : Prop :=
  ∀ (i : Instr) (s s' : State), i.reserved = false → s.freq = s'.freq → s.qf = s'.qf → s.fs = s'.fs →
    ∃ t t' : State, exec i s = .next t ∧ exec i s' = .next t' ∧
      (t.freq, t.qf, t.fs, t.coef, t.rsp, t.coefUpdate) =
        (t'.freq, t'.qf, t'.fs, t'.coef, t'.rsp, t'.coefUpdate)

/-- When the next action is the engine's commit, BUSY is 1 and PEND holds c, step is exec of the command c decodes
to, in the state with this action used up and the pulses of the step before over; and step after withFetchWord
runs exactly the command the opcode table's word decodes to, with the schedule as it was. (How a table word
comes to be pending is log entry 4.) [R50, R120, notes/assumptions/4.md] -/
def Obligations.StepRunsThePendingCommand : Prop :=
  (∀ (s : State) (c : Command), s.action = .commit → s.busy = true → s.pend = some c →
    step s = exec (decodeCommand c) { s with rsp := none, coefUpdate := false, schedule := s.schedule.tail }) ∧
  (∀ (s : State) (nbits w : Nat) (i : Instr), decodeTableWord nbits w = some i →
    step (s.withFetchWord nbits w) = exec i { s with rsp := none, coefUpdate := false })

/-- An idle engine offered a command takes it into PEND with BUSY 1; a busy engine offered a command does not accept
it and keeps the pending one; when no agent acts, and when an idle engine has nothing to commit, everything
stays. In each case FREQ, QF, FS and COEF are unchanged and the pulses are 0. (R20, R35, R50 and R136 give the
accept and the command that is not accepted. The model's own: that a commit scheduled for an engine with BUSY 0
does nothing is log entry 3, and that a step in which no agent acts is an edge that ends the pulses is log entry
2.) [R20, R35, R50, R136, notes/assumptions/2.md, notes/assumptions/3.md] -/
def Obligations.EdgesOutsideCommits : Prop :=
  ∀ s : State,
    (∀ c : Command, s.action = .offer c → s.busy = false → step s = .next
      { s with busy := true, pend := some c, rsp := none, coefUpdate := false, schedule := s.schedule.tail }) ∧
    (∀ c : Command, s.action = .offer c → s.busy = true → step s = .next
      { s with rsp := none, coefUpdate := false, schedule := s.schedule.tail }) ∧
    (s.action = .quiet ∨ (s.action = .commit ∧ s.busy = false) → step s = .next
      { s with rsp := none, coefUpdate := false, schedule := s.schedule.tail })

/-- From every state, a reset sets FREQ, QF and FS to 0, the five COEF words to 0x7FF8000000000000, NF_MASK to
0b11111, BUSY to 0, PEND to invalid, rsp_valid and coef_update to 0, and cmd_ready is 0 while rst stays 1; at a
rising edge with rst 1 the step is a reset. These are the values of Coefs(0, 0, 0), and CONSTRUCT 0, 0, 0 leaves
the same registers but responds and pulses. [R131] -/
def Obligations.ResetEdgeSetsEveryRegister : Prop :=
  (∀ s : State, s.action = .reset → ∃ t : State, step s = .next t ∧
    t = { s with
      freq := 0, qf := 0, fs := 0
      coef := ⟨0x7FF8000000000000, 0x7FF8000000000000, 0x7FF8000000000000, 0x7FF8000000000000, 0x7FF8000000000000⟩
      busy := false, pend := none, rsp := none, coefUpdate := false, schedule := s.schedule.tail } ∧
    ∀ rst : Bool, (t.outputs rst).nfMask = 0b11111 ∧ (t.outputs rst).busy = false ∧
      (t.outputs rst).rspValid = false ∧ (t.outputs rst).coefUpdate = false ∧ (t.outputs true).cmdReady = false) ∧
  (∀ (s : State) (due : Option Nat) (p : Pins), p.rst = true → (s.atEdge due p).action = .reset) ∧
  (∀ s : State, ∃ t : State, exec (.construct 0 0 0) s = .next t ∧
    (t.freq, t.qf, t.fs, t.coef, t.busy, t.pend) =
      (State.reset.freq, State.reset.qf, State.reset.fs, State.reset.coef, State.reset.busy, State.reset.pend) ∧
    ∀ rst : Bool, (t.outputs rst).rspValid = true ∧ (t.outputs rst).coefUpdate = true)

/-- Let the clock count the edges before the commit edge exactly when BUSY is 1. With rst 1 the event at the edge is
reset, whatever else is due or offered; the event is the commit of c exactly when rst is 0, the commit edge has
come and PEND holds c, and then BUSY is 1; it is the accept of c exactly when rst is 0, BUSY is 0, cmd_valid is
1 and the host drives c. [R120] -/
def Obligations.EdgeEventsHavePriority : Prop :=
  ∀ (s : State) (due : Option Nat) (p : Pins), due.isSome = s.busy →
    (p.rst = true → (s.atEdge due p).event = .reset) ∧
    (∀ c : Command, (s.atEdge due p).event = .commit c ↔ p.rst = false ∧ due = some 0 ∧ s.pend = some c) ∧
    (∀ c : Command, (s.atEdge due p).event = .commit c → s.busy = true) ∧
    (∀ c : Command, (s.atEdge due p).event = .accept c ↔
      p.rst = false ∧ s.busy = false ∧ p.cmdValid = true ∧ p.cmd = c)

/-- cmd_ready is the conjunction of BUSY 0 and rst 0; when the clock counts exactly while BUSY is 1, the edge is an
accept exactly when cmd_valid and cmd_ready are 1; and if it is not, replacing cmd_op and the argument words the
host drives at it leaves the step and the count unchanged. [R35] -/
def Obligations.AcceptNeedsValidAndReady : Prop :=
  (∀ (s : State) (rst : Bool), (s.outputs rst).cmdReady = (!s.busy && !rst)) ∧
  (∀ (s : State) (due : Option Nat) (p : Pins), due.isSome = s.busy →
    ((∃ c, (s.atEdge due p).event = .accept c) ↔ (p.cmdValid = true ∧ (s.outputs p.rst).cmdReady = true)) ∧
    (¬ (p.cmdValid = true ∧ (s.outputs p.rst).cmdReady = true) →
      ∀ (cfg : Config) (c : Command), step (s.atEdge due { p with cmd := c }) = step (s.atEdge due p) ∧
        nextDue cfg due { p with cmd := c } = nextDue cfg due p))

/-- For every step that answers a next state t: rsp_valid is 1 in t exactly when the step was a commit, and then
rsp_op is the committed opcode and rsp_code 0b01 for a reserved opcode and 0b00 for the others; coef_update is 1
exactly when it was the commit of a command that is not reserved; with rsp_valid 0, rsp_code and rsp_op are 0. A
clocked run takes one step for each edge, so the pulses last one cycle. [R21, R42, R99] -/
def Obligations.PulsesAppearExactlyAfterCommits : Prop :=
  (∀ (s t : State) (rst : Bool), step s = .next t →
    ((t.outputs rst).rspValid = true ↔ ∃ c, s.event = .commit c) ∧
    ((t.outputs rst).coefUpdate = true ↔ ∃ c, s.event = .commit c ∧ c.op.reserved = false) ∧
    (∀ c, s.event = .commit c → (t.outputs rst).rspOp = c.op ∧
      (t.outputs rst).rspCode = if c.op.reserved then 0b01 else 0b00) ∧
    ((t.outputs rst).rspValid = false → (t.outputs rst).rspCode = 0 ∧ (t.outputs rst).rspOp = 0)) ∧
  (∀ (cfg : Config) (due : Option Nat) (ps : List Pins), (clock cfg due ps).length = ps.length)

/-- For every step that answers a next state: if it is neither a reset nor a commit, par_freq, par_q, par_fs, the
five coefficient ports and nf_mask are unchanged; and in every state these ports show FREQ, QF, FS, COEF and
NF_MASK. [R22] -/
def Obligations.LevelsChangeOnlyAtCommitOrReset : Prop :=
  ∀ (s t : State) (rst : Bool), step s = .next t →
    let o := s.outputs rst
    let o' := t.outputs rst
    (s.event ≠ .reset → (∀ c, s.event ≠ .commit c) →
      o'.parFreq = o.parFreq ∧ o'.parQ = o.parQ ∧ o'.parFs = o.parFs ∧
      o'.coefB0 = o.coefB0 ∧ o'.coefB1 = o.coefB1 ∧ o'.coefB2 = o.coefB2 ∧ o'.coefA1 = o.coefA1 ∧
      o'.coefA2 = o.coefA2 ∧ o'.nfMask = o.nfMask) ∧
    (o.parFreq = s.freq ∧ o.parQ = s.qf ∧ o.parFs = s.fs ∧
      o.coefB0 = s.coef.b0 ∧ o.coefB1 = s.coef.b1 ∧ o.coefB2 = s.coef.b2 ∧ o.coefA1 = s.coef.a1 ∧
      o.coefA2 = s.coef.a2 ∧ o.nfMask = s.coef.nfMask)

/-- From every idle state: if the host offers c, any number of steps pass with neither a reset nor the engine's
commit, and then the engine commits, the state is that of executing c's command in the first state; so it is
when the schedule runs out before a commit. For every LAT: if the host offers c at an edge and does not reset
during the LAT edges after it (whatever it offers meanwhile), then after each of the edges before the last c is
pending, BUSY is 1, the pulses are 0 and FREQ, QF, FS and COEF are as before, and after LAT + 1 edges the state
is that of executing c's command in the first state. (R7 says that commit eventually follows accept under a
weakly fair schedule; that the pending command commits in the step after the schedule runs out is the model's
own choice, log entry 3.) [R7, R137, R141, notes/assumptions/3.md] -/
def Obligations.AcceptedCommandCommitsAfterLat : Prop :=
  (∀ (s : State) (c : Command) (d : List AgentStep), s.busy = false → (∀ a ∈ d, a ≠ .reset ∧ a ≠ .commit) →
    (∀ rest : List AgentStep, s.schedule = .offer c :: (d ++ .commit :: rest) →
      Host.Core.run Sys2Proof.core (d.length + 2) s = exec (decodeCommand c) { s with schedule := rest }) ∧
    (s.schedule = .offer c :: d →
      Host.Core.run Sys2Proof.core (d.length + 2) s = exec (decodeCommand c) { s with schedule := [] })) ∧
  (∀ (cfg : Config) (s : State) (p : Pins) (ps : List Pins) (rest : List AgentStep),
    s.busy = false → p.rst = false → p.cmdValid = true →
    ps.length = cfg.lat → (∀ q ∈ ps, q.rst = false) → s.schedule = clock cfg none (p :: ps) ++ rest →
    (∀ k, k < cfg.lat → Host.Core.run Sys2Proof.core (k + 1) s = .next
      { s with busy := true, pend := some p.cmd, rsp := none, coefUpdate := false,
               schedule := s.schedule.drop (k + 1) }) ∧
    Host.Core.run Sys2Proof.core (cfg.lat + 1) s = exec (decodeCommand p.cmd) { s with schedule := rest })

/-- From every idle state, for every LAT and every list of commands the host offers one after another: running the
machine for LAT + 1 edges for each command gives exactly the outcome of executing the commands one at a time in
order, each in the state the one before it left. [R5, R30, R141] -/
def Obligations.EdgeRunRefinesCommandRun : Prop :=
  ∀ (cfg : Config) (s : State) (cs : List Command) (rest : List AgentStep),
    s.busy = false → s.schedule = clock cfg none (programPins cfg cs) ++ rest →
    Host.Core.run Sys2Proof.core ((cfg.lat + 1) * cs.length) s = runCommands cs { s with schedule := rest }

/-- From every busy state: if a reset comes before the engine's commit, whatever the host offers in between, then
after it the state is the reset state and no step up to it produces a response or a coef_update pulse; at the
clock this is the case whenever the first edge with rst 1 is not later than the commit edge. When the commit
comes first, it happens and its response and pulse are driven in the cycle after it whatever rst is then. [R132] -/
def Obligations.ResetDiscardsPendingCommand : Prop :=
  (∀ (s : State) (d rest : List AgentStep), s.busy = true → (∀ a ∈ d, a ≠ .reset ∧ a ≠ .commit) →
    s.schedule = d ++ .reset :: rest →
    Host.Core.run Sys2Proof.core (d.length + 1) s = .next { State.reset with schedule := rest } ∧
    ∀ k, k ≤ d.length → ∃ t, Host.Core.run Sys2Proof.core (k + 1) s = .next t ∧
      ∀ rst : Bool, (t.outputs rst).rspValid = false ∧ (t.outputs rst).coefUpdate = false) ∧
  (∀ (cfg : Config) (n : Nat) (p : Pins) (ps qs : List Pins), ps.length ≤ n → (∀ q ∈ ps, q.rst = false) →
    p.rst = true →
    clock cfg (some n) (ps ++ p :: qs) = clock cfg (some n) ps ++ .reset :: clock cfg none qs ∧
    ∀ a ∈ clock cfg (some n) ps, a ≠ .reset ∧ a ≠ .commit) ∧
  (∀ (s : State) (c : Command), s.event = .commit c → ∃ t, step s = .next t ∧
    ∀ rst : Bool, (t.outputs rst).rspValid = true ∧ (t.outputs rst).rspOp = c.op ∧
      (t.outputs rst).coefUpdate = !c.op.reserved)

/-- If a state is consistent (COEF = Coefs(FREQ, QF, FS); PEND valid exactly when BUSY = 1; a response only when not
busy; coef_update exactly with an OK response; the code as the opcode says) and step answers a next state, that
state is consistent. [R17, R20, R21, R99] -/
def Obligations.StepKeepsConsistency : Prop :=
  ∀ s t : State, s.Consistent → step s = .next t → t.Consistent

/-- State.reset meets the invariant, and from every state, consistent or not, a reset leads to a consistent state.
[R17, R130, R131] -/
def Obligations.ResetIsConsistent : Prop :=
  State.reset.Consistent ∧
  ∀ s t : State, s.action = .reset → step s = .next t → t.Consistent

/-- From every consistent state, for every number of steps and whatever the agents do, the run answers a next state:
no fault and no refusal. (What a step does when the schedule has run out is log entry 3.) [R115, R17,
notes/assumptions/3.md] -/
def Obligations.ConsistentStatesNeverStop : Prop :=
  ∀ s : State, s.Consistent → s.NeverStops

/-- For every state, nf_mask is computed from COEF: bits 0 to 4 are 1 exactly when bits 62:52 of b0, b1, b2, a1, a2
are 0x7FF, which is exactly when that word is NaN or an infinity; equal COEF gives equal nf_mask; and in the
state after reset it is 0b11111. [R18] -/
def Obligations.NfMaskMarksNonFiniteCoefficients : Prop :=
  (∀ (s : State) (rst : Bool),
    let ws := [s.coef.b0, s.coef.b1, s.coef.b2, s.coef.a1, s.coef.a2]
    ∀ (i : Nat) (h : i < ws.length),
      ((s.outputs rst).nfMask.getLsbD i = true ↔ ws[i].extractLsb' 52 11 = 0x7FF#11) ∧
      ((s.outputs rst).nfMask.getLsbD i = true ↔ b64 ws[i] = .nan ∨ ∃ neg, b64 ws[i] = .inf neg)) ∧
  (∀ (s t : State) (rst rst' : Bool), s.coef = t.coef → (s.outputs rst).nfMask = (t.outputs rst').nfMask) ∧
  ∀ rst : Bool, (State.reset.outputs rst).nfMask = 0b11111

/-- Read as {a2, a1, b2, b1, b0}, bits 63:0 of the bus are coef_b0, 127:64 coef_b1, 191:128 coef_b2, 255:192 coef_a1
and 319:256 coef_a2. [spec/30_encoding.md section 2, R43] -/
def Obligations.CoefficientBusOrder : Prop :=
  ∀ o : Outputs, o.coefBus.extractLsb' 0 64 = o.coefB0 ∧ o.coefBus.extractLsb' 64 64 = o.coefB1 ∧
    o.coefBus.extractLsb' 128 64 = o.coefB2 ∧ o.coefBus.extractLsb' 192 64 = o.coefA1 ∧
    o.coefBus.extractLsb' 256 64 = o.coefA2

/-- For all finite binary64 words x and y: the sum, difference, product and, for y not zero, quotient computed by
the model are the exact rational result rounded to the nearest binary64 number, ties to even, with infinity from
the overflow threshold on, and with the exact result's sign when it is not zero. Subnormal numbers are among the
results. The formatter changes no value but NaN, which becomes the canonical NaN. [R4] -/
def Obligations.OperationsRoundToNearestEven : Prop :=
  (∀ x y : Word64, (b64 x).isFin = true → (b64 y).isFin = true →
    Rounded64 (num64 x + num64 y) (add64 x y) ∧
    Rounded64 (num64 x - num64 y) (sub64 x y) ∧
    Rounded64 (num64 x * num64 y) (mul64 x y) ∧
    (num64 y ≠ 0 → Rounded64 (num64 x / num64 y) (div64 x y))) ∧
  (∀ v : Word64, fmt64 v = if b64 v = .nan then 0x7FF8000000000000 else v)

/-- For all binary64 words: a NaN operand gives NaN; x / ±0 is an infinity with the exclusive-or of the signs for x
nonzero or infinite and NaN for x zero; infinity / infinity is NaN; finite / infinity and zero / (nonzero or
infinity) are signed zeros; zero times infinity is NaN and otherwise a product with a zero or infinity is a zero
or infinity with the exclusive-or of the signs; (+inf) + (−inf) is NaN; an exact zero sum or difference of
nonzero numbers is +0, as is the sum of zeros of different sign, and (−0) + (−0) is −0. [R90] -/
def Obligations.SpecialValuesFollowIeee : Prop :=
  (∀ x y : Word64, b64 x = .nan ∨ b64 y = .nan →
    b64 (add64 x y) = .nan ∧ b64 (sub64 x y) = .nan ∧ b64 (mul64 x y) = .nan ∧ b64 (div64 x y) = .nan) ∧
  (∀ x y : Word64, b64 x ≠ .nan → (b64 x).isZero = false → (b64 y).isZero = true →
    div64 x y = inf64 (x.msb != y.msb)) ∧
  (∀ x y : Word64, (b64 x).isZero = true → (b64 y).isZero = true → b64 (div64 x y) = .nan) ∧
  (∀ (x y : Word64) (s t : Bool), b64 x = .inf s → b64 y = .inf t → b64 (div64 x y) = .nan) ∧
  (∀ (x y : Word64) (t : Bool), (b64 x).isFin = true → b64 y = .inf t → div64 x y = zero64 (x.msb != y.msb)) ∧
  (∀ x y : Word64, (b64 x).isZero = true → b64 y ≠ .nan → (b64 y).isZero = false →
    div64 x y = zero64 (x.msb != y.msb)) ∧
  (∀ (x y : Word64) (t : Bool), (b64 x).isZero = true → b64 y = .inf t →
    b64 (mul64 x y) = .nan ∧ b64 (mul64 y x) = .nan) ∧
  (∀ (x y : Word64) (t : Bool), b64 x ≠ .nan → (b64 x).isZero = false → b64 y = .inf t →
    mul64 x y = inf64 (x.msb != y.msb) ∧ mul64 y x = inf64 (x.msb != y.msb)) ∧
  (∀ x y : Word64, (b64 x).isZero = true → (b64 y).isFin = true →
    mul64 x y = zero64 (x.msb != y.msb) ∧ mul64 y x = zero64 (x.msb != y.msb)) ∧
  (∀ (x y : Word64) (s : Bool), b64 x = .inf s → b64 y = .inf (!s) → b64 (add64 x y) = .nan) ∧
  (∀ x y : Word64, (b64 x).isFin = true → (b64 y).isFin = true → (b64 x).isZero = false →
    (num64 x + num64 y = 0 → add64 x y = zero64 false) ∧ (num64 x - num64 y = 0 → sub64 x y = zero64 false)) ∧
  (∀ s t : Bool, add64 (zero64 s) (zero64 t) = zero64 (s && t))

/-- FREQ widens and FS converts exactly. For FS at least 1 and a finite FREQ, u is the exact quotient rounded once,
is finite with |u| < 2^128, and is a zero with the sign of F when F is a zero and otherwise a normal number; for
FS at least 1 and an infinite FREQ it is the infinity with the sign of F. For FS = 0, u is an infinity with the
sign of F when F is nonzero and not NaN, and NaN when F is a zero or NaN. For a NaN F, u is NaN for every FS.
[R66] -/
def Obligations.NormalizedFrequencyIsOneRoundedQuotient : Prop :=
  (∀ f : Word32, (b32 f).isFin = true → (b64 (freqValue f)).isFin = true ∧ num64 (freqValue f) = num32 f) ∧
  (∀ r : Word32, (b64 (fsValue r)).isFin = true ∧ num64 (fsValue r) = r.toNat) ∧
  (∀ f r : Word32, r ≠ 0 → (b32 f).isFin = true →
    Rounded64 (num32 f / r.toNat) (turns (freqValue f) (fsValue r)) ∧
    (b64 (turns (freqValue f) (fsValue r))).isFin = true ∧
    |num64 (turns (freqValue f) (fsValue r))| < 2 ^ 128 ∧
    ((b32 f).isZero = true → turns (freqValue f) (fsValue r) = zero64 f.msb) ∧
    ((b32 f).isZero = false → (turns (freqValue f) (fsValue r)).extractLsb' 52 11 ≠ 0#11)) ∧
  (∀ (f r : Word32) (neg : Bool), r ≠ 0 → b32 f = .inf neg → turns (freqValue f) (fsValue r) = inf64 neg) ∧
  (∀ f : Word32, b32 f ≠ .nan → (b32 f).isZero = false → turns (freqValue f) (fsValue 0) = inf64 f.msb) ∧
  (∀ f : Word32, (b32 f).isZero = true → b64 (turns (freqValue f) (fsValue 0)) = .nan) ∧
  (∀ f r : Word32, b32 f = .nan → b64 (turns (freqValue f) (fsValue r)) = .nan)

/-- For a non-finite u the trig approximator answers NaN for both outputs; FS = 0, an infinite FREQ and a NaN FREQ
are such inputs. [R67] -/
def Obligations.NonFiniteTurnsGiveNaN : Prop :=
  (∀ u : Word64, (b64 u).isFin = false → b64 (trigTurns u).1 = .nan ∧ b64 (trigTurns u).2 = .nan) ∧
  (∀ f r : Word32, r = 0 ∨ (b32 f).isFin = false →
    b64 (trig (freqValue f) (fsValue r)).1 = .nan ∧ b64 (trig (freqValue f) (fsValue r)).2 = .nan)

/-- For FS at least 1 and a finite FREQ, 4u does not overflow, has an integer rounding, and |4u| < 2^130. For every
finite u for which 4u has an integer rounding k: 4 times u is exact; k is nearest to it, ties to even, and
equals it from 2^52 on; d is v itself for k = 0, which keeps the sign of a zero; d is finite, 4u = k + d
exactly, |d| is at most 1/2; and an exact zero d for k not 0 is +0. [R68, R69] -/
def Obligations.QuadrantReductionIsExact : Prop :=
  (∀ f r : Word32, r ≠ 0 → (b32 f).isFin = true →
    (∃ k, rneInt (mul64 four64 (turns (freqValue f) (fsValue r))) = some k) ∧
    |num64 (mul64 four64 (turns (freqValue f) (fsValue r)))| < 2 ^ 130) ∧
  ∀ (u : Word64) (k : Int), (b64 u).isFin = true → rneInt (mul64 four64 u) = some k →
    let v := mul64 four64 u
    let d := reduced v k
    num64 v = 4 * num64 u ∧
    |num64 v - k| ≤ 1 / 2 ∧ (|num64 v - k| = 1 / 2 → k % 2 = 0) ∧ (2 ^ 52 ≤ |num64 v| → num64 v = k) ∧
    (k = 0 → d = v) ∧ (b64 d).isFin = true ∧ num64 d + k = 4 * num64 u ∧ |num64 d| ≤ 1 / 2 ∧
    (k ≠ 0 → num64 v = k → d = zero64 false)

/-- For q = 0 the pair is (s, c), for 1 (c, −s), for 2 (−s, −c), for 3 (−c, s), where q is the floor modulo, so k =
−1 gives q = 3, and negation flips only the sign bit. [R73] -/
def Obligations.QuadrantSelectsKernels : Prop :=
  (∀ (k : Int) (s c : Word64),
    (k % 4 = 0 → quadrant k s c = (s, c)) ∧
    (k % 4 = 1 → quadrant k s c = (c, s ^^^ 0x8000000000000000)) ∧
    (k % 4 = 2 → quadrant k s c = (s ^^^ 0x8000000000000000, c ^^^ 0x8000000000000000)) ∧
    (k % 4 = 3 → quadrant k s c = (c ^^^ 0x8000000000000000, s))) ∧
  (∀ s c : Word64, quadrant (-1) s c = (c ^^^ 0x8000000000000000, s)) ∧
  (∀ c : Word64, quadrant 1 (zero64 false) c = (c, zero64 true))

/-- S15 to S3 and C16 to C2 are the binary64 quotients of 1 or −1 and the exactly representable factorial, in the
order Horner's rule uses them; each kernel ends with 1.0. [R71, R72] -/
def Obligations.KernelConstantsAreRoundedQuotients : Prop :=
  sinFirst = div64 (int64 (-1)) (int64 1307674368000) ∧
  sinRest = [div64 (int64 1) (int64 6227020800), div64 (int64 (-1)) (int64 39916800),
    div64 (int64 1) (int64 362880), div64 (int64 (-1)) (int64 5040), div64 (int64 1) (int64 120),
    div64 (int64 (-1)) (int64 6), int64 1] ∧
  cosFirst = div64 (int64 1) (int64 20922789888000) ∧
  cosRest = [div64 (int64 (-1)) (int64 87178291200), div64 (int64 1) (int64 479001600),
    div64 (int64 (-1)) (int64 3628800), div64 (int64 1) (int64 40320), div64 (int64 (-1)) (int64 720),
    div64 (int64 1) (int64 24), div64 (int64 (-1)) (int64 2), int64 1]

/-- The constant is finite, its exponent field is that of the numbers in [1, 2), whose spacing is 2^−52, and it
differs from π/2 by less than half that spacing. [R70] -/
def Obligations.HalfPiIsNearest : Prop :=
  halfPi = 0x3FF921FB54442D18 ∧ (b64 halfPi).isFin = true ∧ halfPi.extractLsb' 52 11 = 0x3FF#11 ∧
  |((num64 halfPi : ℚ) : ℝ) - Real.pi / 2| < 2⁻¹ ^ 53

/-- For a finite u with 4u = k exactly: a zero u gives (u, 1), keeping the sign of the zero; for k not 0 the pair is
(+0, 1), (1, −0), (−0, −1) or (−1, +0) for k mod 4 = 0, 1, 2 or 3. When |4u| is at least 2^54 the pair is (+0,
1). (R74 gives the values up to sign. The signs of the zeros follow from R69, which keeps the sign of a zero d
for k = 0 and makes it +0 otherwise, and R73; where R74 speaks otherwise of the sign of a zero cs, log entry 9
says what the model takes.) [spec/41_trig_approximator.md section 3, R74, R69, R73, notes/assumptions/9.md] -/
def Obligations.TrigIsExactAtQuarterTurns : Prop :=
  ∀ (u : Word64) (k : Int), (b64 u).isFin = true → rneInt (mul64 four64 u) = some k →
    (num64 (mul64 four64 u) = k →
      (k = 0 → trigTurns u = (u, one64)) ∧
      (k ≠ 0 → k % 4 = 0 → trigTurns u = (zero64 false, one64)) ∧
      (k % 4 = 1 → trigTurns u = (one64, zero64 true)) ∧
      (k % 4 = 2 → trigTurns u = (zero64 true, neg64 one64)) ∧
      (k % 4 = 3 → trigTurns u = (neg64 one64, zero64 false))) ∧
    (2 ^ 54 ≤ |4 * num64 u| → trigTurns u = (zero64 false, one64))

/-- For every finite u whose 4u has an integer rounding that is not equal to it: the approximator answers for −u the
sine of u with its sign bit flipped and the cosine of u, bit for bit. (At a whole number of quarter turns the
sign of a zero differs, of cs as well as of sn: log entry 9.) [spec/41_trig_approximator.md section 3, R74, R69,
R73, notes/assumptions/9.md] -/
def Obligations.TrigOfNegatedTurns : Prop :=
  ∀ (u : Word64) (k : Int), (b64 u).isFin = true → rneInt (mul64 four64 u) = some k →
    num64 (mul64 four64 u) ≠ k →
    trigTurns (neg64 u) = (neg64 (trigTurns u).1, (trigTurns u).2)

/-- For FS at least 1 and a finite FREQ, sn and cs are finite binary64 numbers. [spec/41_trig_approximator.md
section 2, spec/42_normalization.md section 4, the argument on row 11] -/
def Obligations.TrigIsFinite : Prop :=
  ∀ f r : Word32, r ≠ 0 → (b32 f).isFin = true →
    (b64 (trig (freqValue f) (fsValue r)).1).isFin = true ∧ (b64 (trig (freqValue f) (fsValue r)).2).isFin = true

/-- For FS = 0 with any FREQ and Q, for an infinite or NaN FREQ with any Q and FS, and for a NaN Q with any FREQ and
FS, all five coefficients are 0x7FF8000000000000 and nf_mask is 0b11111. [spec/42_normalization.md section 4,
R92 rows 1 to 3] -/
def Obligations.NaNInputsGiveFiveNaNs : Prop :=
  ∀ f q r : Word32, r = 0 ∨ (b32 f).isFin = false ∨ b32 q = .nan →
    coefs f q r = ⟨0x7FF8000000000000, 0x7FF8000000000000, 0x7FF8000000000000, 0x7FF8000000000000,
      0x7FF8000000000000⟩ ∧ (coefs f q r).nfMask = 0b11111

/-- For FS at least 1, a finite FREQ and Q = ±0: if sn is a zero all five coefficients are NaN; otherwise b0, b2 and
a2 are the canonical NaN, b1 is a zero with the exclusive-or of the signs of sn and Q, a1 a zero with the sign
of −cs exclusive-or that sign, and nf_mask is 0b10101. [spec/42_normalization.md section 4, R92 rows 4 to 8] -/
def Obligations.ZeroQGivesSignedZerosAndNaNs : Prop :=
  ∀ f q r : Word32, r ≠ 0 → (b32 f).isFin = true → (b32 q).isZero = true →
    let t := trig (freqValue f) (fsValue r)
    ((b64 t.1).isZero = true → coefs f q r = ⟨nan64, nan64, nan64, nan64, nan64⟩) ∧
    ((b64 t.1).isZero = false →
      coefs f q r = ⟨nan64, zero64 (t.1.msb != q.msb), nan64, zero64 (!t.2.msb != (t.1.msb != q.msb)), nan64⟩ ∧
      (coefs f q r).nfMask = 0b10101)

/-- For FS at least 1, a finite FREQ and Q = ±infinity: b0 and b2 are NaN, b1 is +0, a1 is the negation of 2 times
cs bit for bit, a2 is 1.0, and nf_mask is 0b00101. [spec/42_normalization.md section 4, R92 row 9] -/
def Obligations.InfiniteQGivesUnityA2 : Prop :=
  ∀ (f q r : Word32) (neg : Bool), r ≠ 0 → (b32 f).isFin = true → b32 q = .inf neg →
    coefs f q r = ⟨nan64, zero64 false, nan64, a1uOf (trig (freqValue f) (fsValue r)).2, one64⟩ ∧
    (coefs f q r).nfMask = 0b00101

/-- Whenever alpha is exactly −1: b0 is an infinity with the sign of b0u, b2 the opposite infinity, b1 is NaN, a2 is
+infinity, a1 is NaN if cs is a zero and otherwise an infinity with the sign of −cs, and nf_mask is 0b11111.
[spec/42_normalization.md section 4, R92 row 10] -/
def Obligations.AlphaMinusOneGivesInfinities : Prop :=
  ∀ f q r : Word32,
    let t := trig (freqValue f) (fsValue r)
    let alpha := alphaOf t.1 (qValue q)
    let b0u := b0uOf (qValue q) alpha
    alpha = neg64 one64 →
    coefs f q r = ⟨inf64 b0u.msb, nan64, inf64 (!b0u.msb),
      if (b64 t.2).isZero then nan64 else inf64 (!t.2.msb), inf64 false⟩ ∧
    (coefs f q r).nfMask = 0b11111

/-- For FS at least 1, a finite FREQ, a finite nonzero Q and alpha other than −1: nf_mask is 0b00000, and b1 is a
zero with the sign of a0. [spec/42_normalization.md section 4, R92 row 11] -/
def Obligations.RegularInputsGiveFiniteCoefficients : Prop :=
  ∀ f q r : Word32,
    let alpha := alphaOf (trig (freqValue f) (fsValue r)).1 (qValue q)
    r ≠ 0 → (b32 f).isFin = true → (b32 q).isFin = true → (b32 q).isZero = false →
    alpha ≠ neg64 one64 →
    (coefs f q r).nfMask = 0b00000 ∧ (coefs f q r).b1 = zero64 (a0Of alpha).msb

/-- For every valid input of the host's duty (FS at least 1, FREQ and Q finite, Q > 0, 0 < u < 1/2): nf_mask is
0b00000, b1 is +0 and a0 is positive. [spec/42_normalization.md section 4, R92 row 11 and R93,
spec/70_reset_and_hazards.md section 2, R135] -/
def Obligations.ValidParametersGiveFiniteCoefficients : Prop :=
  ∀ f q r : Word32, validParams f q r = true →
    (coefs f q r).nfMask = 0b00000 ∧ (coefs f q r).b1 = 0x0000000000000000 ∧
    (a0Of (alphaOf (trig (freqValue f) (fsValue r)).1 (qValue q))).msb = false

/-- For FREQ = +0, FS at least 1 and a finite nonzero Q of either sign the five words are (+0, +0, −0, −2, 1): R93
fixes the signs of b0 and b2 for Q > 0, and for Q < 0 they follow from alpha = −0, b0u = Q times −0 = +0 and b2u
= −b0u. For u = 1/2 and a finite Q > 0 they are (−0, +0, +0, 2, 1). [spec/42_normalization.md section 4, R93,
R82, R83, R85] -/
def Obligations.ZeroAndNyquistFrequencyClosedForms : Prop :=
  (∀ q r : Word32, r ≠ 0 → (b32 q).isFin = true → (b32 q).isZero = false →
    coefs 0 q r = ⟨0x0000000000000000, 0x0000000000000000, 0x8000000000000000, 0xC000000000000000,
      0x3FF0000000000000⟩) ∧
  (∀ f q r : Word32, turns (freqValue f) (fsValue r) = 0x3FE0000000000000 →
    (b32 q).isFin = true → (b32 q).isZero = false → q.msb = false →
    coefs f q r = ⟨0x8000000000000000, 0x0000000000000000, 0x0000000000000000, 0x4000000000000000,
      0x3FF0000000000000⟩)

/-- For every FREQ, Q and FS: if b0 is not NaN then b2 is b0 with bit 63 flipped; if it is, both words are
0x7FF8000000000000. [R91] -/
def Obligations.B2IsNegatedB0 : Prop :=
  ∀ f q r : Word32,
    (b64 (coefs f q r).b0 ≠ .nan → (coefs f q r).b2 = (coefs f q r).b0 ^^^ 0x8000000000000000) ∧
    (b64 (coefs f q r).b0 = .nan →
      (coefs f q r).b0 = 0x7FF8000000000000 ∧ (coefs f q r).b2 = 0x7FF8000000000000)

/-- Coefs depends on FREQ and FS only through u: equal u and equal Q give equal words. Two finite frequencies of the
same sign bit and two nonzero sample rates with equal real ratio give the same u, and so bit-identical
coefficients for every Q. [R94] -/
def Obligations.EqualRatiosGiveEqualCoefficients : Prop :=
  (∀ f f' q r r' : Word32, turns (freqValue f) (fsValue r) = turns (freqValue f') (fsValue r') →
    coefs f q r = coefs f' q r') ∧
  (∀ f f' q r r' : Word32, r ≠ 0 → r' ≠ 0 → (b32 f).isFin = true → (b32 f').isFin = true → f.msb = f'.msb →
    num32 f * r'.toNat = num32 f' * r.toNat →
    turns (freqValue f) (fsValue r) = turns (freqValue f') (fsValue r') ∧ coefs f q r = coefs f' q r')

/-- fmt64 leaves a word that is not NaN unchanged and answers 0x7FF8000000000000 for every NaN word; so every NaN
word among the five coefficients of any input is 0x7FF8000000000000. [R96, R97] -/
def Obligations.FormatterOutputsCanonicalNaNOnly : Prop :=
  (∀ v : Word64, b64 v ≠ .nan → fmt64 v = v) ∧
  (∀ v : Word64, b64 v = .nan → fmt64 v = 0x7FF8000000000000) ∧
  (∀ f q r : Word32, ∀ w ∈ [(coefs f q r).b0, (coefs f q r).b1, (coefs f q r).b2, (coefs f q r).a1, (coefs f q r).a2],
    b64 w = .nan → w = 0x7FF8000000000000)

/-- For every set on the coefficient ports, sample and history: if one of the five words is NaN the output sample is
NaN; if y[n−1] or y[n−2] is NaN the output is NaN whatever the set is; and the output becomes y[n−1] of the next
sample. (The arithmetic is the example of R106; the consumer is outside BPCE.) [spec/44_consumer_contract.md,
R107 and R109] -/
def Obligations.NaNCoefficientPoisonsExampleConsumer : Prop :=
  ∀ (o : Outputs) (x : Word64) (h : History Word64),
    ((∃ w ∈ [o.coefB0, o.coefB1, o.coefB2, o.coefA1, o.coefA2], b64 w = .nan) →
      b64 (consume exampleArith o x h).1 = .nan) ∧
    (b64 h.y1 = .nan ∨ b64 h.y2 = .nan → b64 (consume exampleArith o x h).1 = .nan) ∧
    (consume exampleArith o x h).2 = ⟨x, h.x1, (consume exampleArith o x h).1, h.y1⟩

/-- For every finite d with |d| at most 1/2: x is d times HALF_PI rounded once, |x| is at most 0.7853981633974483,
and x is a zero exactly when d is, with its sign; x2 is x times x rounded once; ps comes from S15 by adding S13
to S3 and 1.0 in turn, each product with x2 and each sum rounded once, and s is x times ps rounded once; c comes
from C16 in the same way with C14 to C2 and 1.0; every intermediate value is finite. For every finite u for
which 4u has an integer rounding k, the trig approximator answers the quadrant selection of the two kernels at
that x. [R70, R71, R72, R73] -/
def Obligations.KernelsRoundEveryStep : Prop :=
  (∀ d : Word64, (b64 d).isFin = true → |num64 d| ≤ 1 / 2 →
    let x := mul64 d halfPi
    let x2 := mul64 x x
    ((b64 x).isFin = true ∧ Rounded64 (num64 d * num64 0x3FF921FB54442D18) x ∧
      |num64 x| ≤ num64 0x3FE921FB54442D18 ∧ (b64 x).isZero = (b64 d).isZero ∧ x.msb = d.msb) ∧
    ((b64 x2).isFin = true ∧ Rounded64 (num64 x * num64 x) x2) ∧
    (∃ ps : Word64, HornerRounds x2 0xBD6AE7F3E733B81F [0x3DE6124613A86D09, 0xBE5AE64567F544E4, 0x3EC71DE3A556C734,
        0xBF2A01A01A01A01A, 0x3F81111111111111, 0xBFC5555555555555, 0x3FF0000000000000] ps ∧
      Rounded64 (num64 x * num64 ps) (sinKernel x) ∧ (b64 (sinKernel x)).isFin = true) ∧
    HornerRounds x2 0x3D2AE7F3E733B81F [0xBDA93974A8C07C9D, 0x3E21EED8EFF8D898, 0xBE927E4FB7789F5C,
      0x3EFA01A01A01A01A, 0xBF56C16C16C16C17, 0x3FA5555555555555, 0xBFE0000000000000, 0x3FF0000000000000]
      (cosKernel x)) ∧
  (∀ (u : Word64) (k : Int), (b64 u).isFin = true → rneInt (mul64 four64 u) = some k →
    let x := mul64 (reduced (mul64 four64 u) k) halfPi
    trigTurns u = quadrant k (sinKernel x) (cosKernel x))

/-- For FS at least 1, a finite FREQ, a finite nonzero Q and alpha other than −1: every term is finite; Q widens
exactly; twoQ is exactly 2Q; alpha is sn / twoQ, b0u is Q times alpha, a0 is 1 + alpha and a2u is 1 − alpha,
each rounded once; a1u is exactly −2cs, with the inverse of the sign bit of cs; a0 is not zero; and b0, b1, b2,
a1, a2 are b0u, +0, −b0u, a1u and a2u divided by a0, each quotient rounded once. [R80, R81, R82, R83, R84, R85,
R86, R87, R88, R89] -/
def Obligations.RegularCoefficientsRoundTermByTerm : Prop :=
  ∀ f q r : Word32,
    let t := trig (freqValue f) (fsValue r)
    let Qd := qValue q
    let twoQ := mul64 two64 Qd
    let alpha := alphaOf t.1 Qd
    let b0u := b0uOf Qd alpha
    let a0 := a0Of alpha
    let a1u := a1uOf t.2
    let a2u := a2uOf alpha
    r ≠ 0 → (b32 f).isFin = true → (b32 q).isFin = true → (b32 q).isZero = false → alpha ≠ neg64 one64 →
    (∀ w ∈ [t.1, t.2, Qd, twoQ, alpha, b0u, a0, a1u, a2u], (b64 w).isFin = true) ∧
    num64 Qd = num32 q ∧ num64 twoQ = 2 * num64 Qd ∧
    Rounded64 (num64 t.1 / num64 twoQ) alpha ∧
    Rounded64 (num64 Qd * num64 alpha) b0u ∧
    Rounded64 (1 + num64 alpha) a0 ∧ num64 a0 ≠ 0 ∧
    num64 a1u = -(2 * num64 t.2) ∧ a1u.msb = !t.2.msb ∧
    Rounded64 (1 - num64 alpha) a2u ∧
    Rounded64 (num64 b0u / num64 a0) (coefs f q r).b0 ∧
    Rounded64 (0 / num64 a0) (coefs f q r).b1 ∧
    Rounded64 (-num64 b0u / num64 a0) (coefs f q r).b2 ∧
    Rounded64 (num64 a1u / num64 a0) (coefs f q r).a1 ∧
    Rounded64 (num64 a2u / num64 a0) (coefs f q r).a2

/-- If at an edge the clock counts exactly when BUSY is 1, and step answers a next state, then it counts exactly
when BUSY is 1 after the edge; a count below LAT stays below LAT; and a command accepted at the edge is LAT
edges from its commit whatever its opcode and arguments. [R7, R19, R141] -/
def Obligations.ClockCountsWhileBusy : Prop :=
  ∀ (cfg : Config) (s t : State) (due : Option Nat) (p : Pins),
    due.isSome = s.busy → step (s.atEdge due p) = .next t →
    (nextDue cfg due p).isSome = t.busy ∧
    ((∀ n, due = some n → n < cfg.lat) → ∀ n, nextDue cfg due p = some n → n < cfg.lat) ∧
    (∀ c, (s.atEdge due p).event = .accept c → nextDue cfg due p = some (cfg.lat - 1))
end

