-- ==== Sys2Proof/Laws/Asm.lean ====
section
/-! SUPPORT. The text syntax: which characters a readable operand holds, and what a line of a mnemonic and its operands
assembles to. Later proofs cite these instead of unfolding the reader of lines. -/

namespace Sys2Proof.Machine

open Sys2Proof

/-- A character that neither separates nor ends an operand: no blank, no comma and no semicolon. -/
def plain (c : Char) : Bool := !isBlank c && c != ',' && c != ';'

/-- A list that reads as a number holds digits only. -/
theorem readDigits_digits {digit : Char → Option Nat} {base : Nat} {cs : List Char} {n m : Nat}
    (h : readDigits digit base cs n = some m) : ∀ c ∈ cs, (digit c).isSome := by
  induction cs generalizing n with
  | nil => simp
  | cons c cs ih =>
    rw [readDigits] at h
    cases hd : digit c with
    | none => rw [hd] at h; cases h
    | some d =>
      rw [hd] at h
      intro x hx
      rcases List.mem_cons.mp hx with rfl | hx
      · simp [hd]
      · exact ih h x hx

/-- A number is a nonempty list of digits. -/
theorem number_digits {digit : Char → Option Nat} {base : Nat} {cs : List Char} {m : Nat}
    (h : number digit base cs = some m) : cs ≠ [] ∧ ∀ c ∈ cs, (digit c).isSome := by
  rw [number] at h
  cases cs with
  | nil => cases h
  | cons c cs => exact ⟨List.cons_ne_nil _ _, readDigits_digits h⟩

/-- A character of a digit block lies between the block's first and last. -/
theorem DigitBlock.read_range {b : DigitBlock} {c : Char} {d : Nat} (h : b.read c = some d) :
    b.first.toNat ≤ c.toNat ∧ c.toNat < b.first.toNat + b.count := by
  rw [DigitBlock.read] at h
  split at h
  · cases h
  · dsimp only at h
    split at h
    · omega
    · cases h

/-- A decimal digit is one of the characters 0x30 to 0x39. -/
theorem decDigit_range {c : Char} (h : (decDigit c).isSome) : 0x30 ≤ c.toNat ∧ c.toNat < 0x3A := by
  obtain ⟨d, hd⟩ := Option.isSome_iff_exists.mp h
  obtain ⟨b, hb, hr⟩ := List.exists_of_findSome?_eq_some hd
  obtain rfl := List.mem_singleton.mp hb
  exact DigitBlock.read_range hr

/-- A hexadecimal digit is a decimal digit or one of A to F or a to f. -/
theorem hexDigit_range {c : Char} (h : (hexDigit c).isSome) : 0x30 ≤ c.toNat ∧ c.toNat < 0x67 ∧ c.toNat ≠ 0x3B := by
  obtain ⟨d, hd⟩ := Option.isSome_iff_exists.mp h
  obtain ⟨b, hb, hr⟩ := List.exists_of_findSome?_eq_some hd
  have hr := DigitBlock.read_range hr
  rcases List.mem_append.mp hb with hb | hb
  · obtain rfl := List.mem_singleton.mp hb
    change 0x30 ≤ c.toNat ∧ c.toNat < 0x30 + 10 at hr
    omega
  · rcases List.mem_cons.mp hb with rfl | hb
    · change 0x41 ≤ c.toNat ∧ c.toNat < 0x41 + 6 at hr
      omega
    · obtain rfl := List.mem_singleton.mp hb
      change 0x61 ≤ c.toNat ∧ c.toNat < 0x61 + 6 at hr
      omega

/-- A character that is not plain is one of four. -/
theorem plain_of_toNat {c : Char} (h : 0x2D ≤ c.toNat) (h' : c.toNat ≠ 0x3B) : plain c = true := by
  have ne : ∀ d : Char, c.toNat ≠ d.toNat → c ≠ d := fun d hd e => hd (e ▸ rfl)
  have h1 : c ≠ ' ' := ne _ (by have : (' ' : Char).toNat = 0x20 := rfl; omega)
  have h2 : c ≠ '\t' := ne _ (by have : ('\t' : Char).toNat = 0x9 := rfl; omega)
  have h3 : c ≠ ',' := ne _ (by have : (',' : Char).toNat = 0x2C := rfl; omega)
  have h4 : c ≠ ';' := ne _ (by have : (';' : Char).toNat = 0x3B := rfl; omega)
  simp [plain, isBlank, h1, h2, h3, h4]

/-- A decimal number is plain. -/
theorem decimal_plain {cs : List Char} {n : Nat} (h : number decDigit 10 cs = some n) : ∀ c ∈ cs, plain c = true :=
  fun c hc =>
    have hr := decDigit_range ((number_digits h).2 c hc)
    plain_of_toNat (by omega) (by omega)

/-- A raw word is plain. -/
theorem rawWord_plain {cs : List Char} {w : Word32} (h : rawWord cs = some w) : ∀ c ∈ cs, plain c = true := by
  unfold rawWord at h
  split at h
  · rename_i ds
    cases hn : number hexDigit 16 ds with
    | none => rw [hn] at h; cases h
    | some n =>
      intro c hc
      simp only [List.mem_cons] at hc
      rcases hc with rfl | rfl | rfl | rfl | hc
      · decide
      · decide
      · decide
      · decide
      · have hr := hexDigit_range ((number_digits hn).2 c hc)
        exact plain_of_toNat (by omega) hr.2.2
  · cases h

/-- What a prefix taken while a test holds leaves. -/
theorem drop_takeWhile (p : Char → Bool) (cs : List Char) : cs.drop (cs.takeWhile p).length = cs.dropWhile p := by
  induction cs with
  | nil => rfl
  | cons c cs ih => cases h : p c <;> simp [h, ih]

/-- The digits and the dot of a literal are plain. -/
theorem mantissa_plain {cs : List Char} {m : Nat} {e : Int} (h : mantissa cs = some (m, e)) :
    ∀ c ∈ cs, plain c = true := by
  unfold mantissa at h
  dsimp only at h
  have split_cs := List.takeWhile_append_dropWhile (p := (· != '.')) (l := cs)
  rw [drop_takeWhile] at h
  rw [← split_cs]
  cases hd : cs.dropWhile (· != '.') with
  | nil =>
    rw [hd] at h
    dsimp only at h
    obtain ⟨n, hn, -⟩ := Option.map_eq_some_iff.mp h
    intro c hc
    exact decimal_plain hn c (by simpa using hc)
  | cons dot frac =>
    rw [hd] at h
    dsimp only at h
    cases hw : number decDigit 10 (cs.takeWhile (· != '.')) with
    | none => rw [hw] at h; cases h
    | some n =>
      cases hf : number decDigit 10 frac with
      | none => rw [hw, hf] at h; cases h
      | some k =>
        have hdot : dot = '.' := by
          have := List.head?_dropWhile_not (p := (· != '.')) cs
          rw [hd] at this
          simpa using this
        intro c hc
        rcases List.mem_append.mp hc with hc | hc
        · exact decimal_plain hw c hc
        · rcases List.mem_cons.mp hc with rfl | hc
          · rw [hdot]; decide
          · exact decimal_plain hf c hc

/-- An exponent is plain. -/
theorem exponent_plain {cs : List Char} {k : Int} (h : exponent cs = some k) :
    ∀ c ∈ cs, plain c = true := by
  have digits : ∀ ds : List Char, (number decDigit 10 ds).isSome → ∀ c ∈ ds, plain c = true := fun ds hd =>
    have ⟨_, hn⟩ := Option.isSome_iff_exists.mp hd
    decimal_plain hn
  have signed_digits : ∀ (x : Char) (ds : List Char), plain x = true → (number decDigit 10 ds).isSome →
      ∀ c ∈ x :: ds, plain c = true := fun x ds hx hd c hc => by
    rcases List.mem_cons.mp hc with rfl | hc
    · exact hx
    · exact digits ds hd c hc
  unfold exponent at h
  split at h
  · rename_i ds
    refine signed_digits _ ds (by decide) ?_
    cases hn : number decDigit 10 ds <;> simp [hn] at h ⊢
  · rename_i ds
    refine signed_digits _ ds (by decide) ?_
    cases hn : number decDigit 10 ds <;> simp [hn] at h ⊢
  · refine digits cs ?_
    cases hn : number decDigit 10 cs <;> simp [hn] at h ⊢

/-- A literal without its sign is plain. -/
theorem unsignedReal_plain {neg : Bool} {cs : List Char} {w : Word32} (h : unsignedReal neg cs = some w) :
    ∀ c ∈ cs, plain c = true := by
  unfold unsignedReal at h
  dsimp only at h
  let p : Char → Bool := fun c => !(c == 'e' || c == 'E')
  have split_cs : cs.takeWhile p ++ cs.dropWhile p = cs := List.takeWhile_append_dropWhile
  change (match mantissa (cs.takeWhile p), cs.drop (cs.takeWhile p).length with
    | some (m, e), [] => some (decimal32 neg m e)
    | some (m, e), _ :: ds => (exponent ds).map (fun k => decimal32 neg m (e + k))
    | none, _ => none) = some w at h
  rw [drop_takeWhile] at h
  rw [← split_cs]
  cases hm : mantissa (cs.takeWhile p) with
  | none => rw [hm] at h; cases h
  | some me =>
    obtain ⟨m, e⟩ := me
    cases hd : cs.dropWhile p with
    | nil => simpa using mantissa_plain hm
    | cons x ds =>
      rw [hm, hd] at h
      obtain ⟨k, hk, -⟩ := Option.map_eq_some_iff.mp h
      have hx : x = 'e' ∨ x = 'E' := by
        have := List.head?_dropWhile_not (p := p) cs
        rw [hd] at this
        simpa [p, or_iff_not_imp_left] using this
      intro c hc
      rcases List.mem_append.mp hc with hc | hc
      · exact mantissa_plain hm c hc
      · rcases List.mem_cons.mp hc with rfl | hc
        · rcases hx with rfl | rfl <;> decide
        · exact exponent_plain hk c hc

/-- A frequency or Q operand that can be read is plain. -/
theorem realOperand_plain {cs : List Char} {w : Word32} (h : realOperand cs = some w) : ∀ c ∈ cs, plain c = true := by
  unfold realOperand at h
  split at h
  · exact rawWord_plain h
  · intro c hc
    rcases List.mem_cons.mp hc with rfl | hc
    · decide
    · exact unsignedReal_plain h c hc
  · exact unsignedReal_plain h

/-- A readable operand is not empty. -/
theorem realOperand_ne_nil {cs : List Char} {w : Word32} (h : realOperand cs = some w) : cs ≠ [] := by
  rintro rfl
  have : realOperand [] = none := by decide
  rw [this] at h
  cases h

/-! ### Lines -/

/-- A plain character is no blank, no comma and no semicolon. -/
theorem plain_spec {c : Char} (h : plain c = true) : isBlank c = false ∧ c ≠ ',' ∧ c ≠ ';' := by
  simpa [plain, and_assoc] using h

/-- Nothing is trimmed at the front of a text that starts with a plain character. -/
theorem dropWhile_blank_plain {cs l : List Char} (hc : cs ≠ []) (h : ∀ c ∈ cs, plain c = true) :
    (cs ++ l).dropWhile isBlank = cs ++ l := by
  cases cs with
  | nil => exact absurd rfl hc
  | cons c cs => simp [(plain_spec (h c (by simp))).1]

/-- A text between two plain characters is trimmed to itself. -/
theorem trim_between {a m b : List Char} (ha : a ≠ []) (hb : b ≠ []) (hpa : ∀ c ∈ a, plain c = true)
    (hpb : ∀ c ∈ b, plain c = true) : trim (a ++ m ++ b) = a ++ m ++ b := by
  have front : (a ++ m ++ b).dropWhile isBlank = a ++ m ++ b := by
    rw [List.append_assoc]
    exact dropWhile_blank_plain ha hpa
  have back : (a ++ m ++ b).reverse.dropWhile isBlank = (a ++ m ++ b).reverse := by
    rw [List.reverse_append]
    exact dropWhile_blank_plain (by simpa using hb) (by simpa using hpb)
  rw [trim, front, back, List.reverse_reverse]

/-- A plain text is trimmed to itself. -/
theorem trim_plain {cs : List Char} (h : ∀ c ∈ cs, plain c = true) : trim cs = cs := by
  have front : ∀ l : List Char, (∀ c ∈ l, plain c = true) → l.dropWhile isBlank = l := fun l hl => by
    cases l with
    | nil => rfl
    | cons c l => simp [(plain_spec (hl c (by simp))).1]
  rw [trim, front cs h, front _ (by simpa using h), List.reverse_reverse]

/-- A blank in front is trimmed. -/
theorem trim_blank (cs : List Char) : trim (' ' :: cs) = trim cs := rfl

/-- Reading a plain operand character by character. -/
theorem splitOperands_plain {cs : List Char} (h : ∀ c ∈ cs, plain c = true) (l current : List Char) :
    splitOperands (cs ++ l) current = splitOperands l (cs.reverse ++ current) := by
  induction cs generalizing current with
  | nil => rfl
  | cons c cs ih =>
    have hc : c ≠ ',' := (plain_spec (h c (by simp))).2.1
    have hs : splitOperands (c :: (cs ++ l)) current = splitOperands (cs ++ l) (c :: current) := by
      rw [splitOperands]
      exact fun e => hc e
    rw [List.cons_append, hs, ih (fun x hx => h x (by simp [hx]))]
    simp

/-- The last operand, after a blank. -/
theorem splitOperands_last {cs : List Char} (h : ∀ c ∈ cs, plain c = true) :
    splitOperands (' ' :: cs) [] = [cs] := by
  have hs : splitOperands (' ' :: cs) [] = splitOperands cs [' '] := rfl
  rw [hs, ← List.append_nil cs, splitOperands_plain h]
  simp [splitOperands, trim_blank, trim_plain h]

/-- An operand with a comma behind it, after a blank. -/
theorem splitOperands_next {cs : List Char} (h : ∀ c ∈ cs, plain c = true) (l : List Char) :
    splitOperands (' ' :: (cs ++ ',' :: l)) [] = cs :: splitOperands l [] := by
  have hs : splitOperands (' ' :: (cs ++ ',' :: l)) [] = splitOperands (cs ++ ',' :: l) [' '] := rfl
  rw [hs, splitOperands_plain h]
  simp [splitOperands, trim_blank, trim_plain h]

/-- A line that starts with a plain mnemonic and a blank, and ends in a plain operand. -/
theorem assembleLine_of_parts {m l e : List Char} (hm : m ≠ []) (he : e ≠ []) (hpm : ∀ c ∈ m, plain c = true)
    (hl : ∀ c ∈ l, c ≠ ';') (hpe : ∀ c ∈ e, plain c = true) :
    assembleLine (m ++ ' ' :: l ++ e) = assembleWords m (operands (' ' :: l ++ e)) := by
  have no_comment : (m ++ ' ' :: l ++ e).takeWhile (· != ';') = m ++ ' ' :: l ++ e := by
    rw [List.takeWhile_eq_self_iff]
    intro c hc
    simp only [List.mem_append, List.mem_cons] at hc
    have : c ≠ ';' := by
      rcases hc with (hc | rfl | hc) | hc
      · exact (plain_spec (hpm c hc)).2.2
      · decide
      · exact hl c hc
      · exact (plain_spec (hpe c hc)).2.2
    simpa using this
  have mnemonic : (m ++ ' ' :: l ++ e).takeWhile (fun c => !isBlank c) = m := by
    rw [List.append_assoc, List.takeWhile_append_of_pos (fun c hc => by simp [(plain_spec (hpm c hc)).1])]
    simp [show isBlank ' ' = true from rfl]
  have text_ne : (m ++ ' ' :: l ++ e).isEmpty = false := by simp
  simp only [assembleLine, no_comment, trim_between hm he hpm hpe, text_ne, mnemonic]
  simp

/-- The mnemonics with a sample rate are plain. -/
theorem rate_mnemonics_plain : (∀ c ∈ "SET_FS".toList, plain c = true) ∧ ∀ c ∈ "CONSTRUCT".toList, plain c = true :=
  ⟨List.all_eq_true.mp (by decide), List.all_eq_true.mp (by decide)⟩

/-- A line of a mnemonic and one operand. -/
theorem assembleLine_one {m a : List Char} (hm : m ≠ []) (ha : a ≠ []) (hpm : ∀ c ∈ m, plain c = true)
    (hpa : ∀ c ∈ a, plain c = true) : assembleLine (m ++ ' ' :: a) = assembleWords m [a] := by
  have h := assembleLine_of_parts (l := []) hm ha hpm (by simp) hpa
  have ops : operands (' ' :: a) = [a] := by
    simp [operands, trim_blank, trim_plain hpa, ha, splitOperands_last hpa]
  rw [List.append_assoc] at h
  simpa [ops] using h

/-- A line of a mnemonic and three operands. -/
theorem assembleLine_three {m a b e : List Char} (hm : m ≠ []) (ha : a ≠ []) (he : e ≠ [])
    (hpm : ∀ c ∈ m, plain c = true) (hpa : ∀ c ∈ a, plain c = true) (hpb : ∀ c ∈ b, plain c = true)
    (hpe : ∀ c ∈ e, plain c = true) :
    assembleLine (m ++ ' ' :: a ++ ',' :: ' ' :: b ++ ',' :: ' ' :: e) = assembleWords m [a, b, e] := by
  have h := assembleLine_of_parts (l := a ++ ',' :: ' ' :: (b ++ [',', ' '])) hm he hpm (by
    intro c hc
    simp only [List.mem_append, List.mem_cons, List.not_mem_nil, or_false] at hc
    rcases hc with hc | rfl | rfl | hc | rfl | rfl
    · exact (plain_spec (hpa c hc)).2.2
    · decide
    · decide
    · exact (plain_spec (hpb c hc)).2.2
    · decide
    · decide) hpe
  have ops : operands (' ' :: (a ++ ',' :: ' ' :: (b ++ ',' :: ' ' :: e))) = [a, b, e] := by
    have text := trim_between (m := ',' :: ' ' :: (b ++ [',', ' '])) ha he hpa hpe
    simp only [List.append_assoc, List.cons_append, List.nil_append] at text
    simp only [operands, trim_blank, text, splitOperands_next hpa, splitOperands_next hpb, splitOperands_last hpe]
    simp
  simp only [List.append_assoc, List.cons_append, List.nil_append] at h ⊢
  rw [h, ops]

/-- A comment changes nothing of the line before it. -/
theorem assembleLine_comment (line comment : List Char) :
    assembleLine (line ++ ';' :: comment) = assembleLine line := by
  have h : (line ++ ';' :: comment).takeWhile (· != ';') = line.takeWhile (· != ';') := by
    induction line with
    | nil => rfl
    | cons c line ih => cases hc : (c != ';') <;> simp [hc, ih]
  simp only [assembleLine, h]

end Sys2Proof.Machine
end

