-- ==== Sys2Proof/Laws/Encoding.lean ====
section
/-! SUPPORT. The beat of a command as a number, and the decoder's answer for each opcode: what proofs about encodings
cite. -/

namespace Sys2Proof

/-- An appended word as a number. -/
theorem append_toNat {m n : Nat} (x : BitVec m) (y : BitVec n) : (x ++ y).toNat = x.toNat * 2 ^ n + y.toNat := by
  rw [BitVec.toNat_append, ← Nat.shiftLeft_add_eq_or_of_lt y.isLt, Nat.shiftLeft_eq]

/-- The beat as a number: each field stands at its place (R36). -/
theorem toBeat_toNat (c : Command) :
    c.toBeat.toNat = c.arg2.toNat * 2 ^ 68 + c.arg1.toNat * 2 ^ 36 + c.arg0.toNat * 2 ^ 4 + c.op.toNat := by
  have h : c.toBeat.toNat = (c.arg2 ++ c.arg1 ++ c.arg0 ++ c.op).toNat := rfl
  rw [h, append_toNat, append_toNat, append_toNat]
  omega

/-- The fields of a beat as numbers (R36). -/
theorem ofBeat_toNat (b : Beat) :
    (Command.ofBeat b).op.toNat = b.toNat % 2 ^ 4 ∧
    (Command.ofBeat b).arg0.toNat = b.toNat / 2 ^ 4 % 2 ^ 32 ∧
    (Command.ofBeat b).arg1.toNat = b.toNat / 2 ^ 36 % 2 ^ 32 ∧
    (Command.ofBeat b).arg2.toNat = b.toNat / 2 ^ 68 % 2 ^ 32 := by
  refine ⟨?_, ?_, ?_, ?_⟩ <;>
    simp only [Command.ofBeat, BitVec.extractLsb'_toNat, Nat.shiftRight_eq_div_pow, Nat.pow_zero, Nat.div_one]

/-- Taking the fields of a command's beat gives the command back. -/
@[simp] theorem ofBeat_toBeat (c : Command) : Command.ofBeat c.toBeat = c := by
  have h := ofBeat_toNat c.toBeat
  rw [toBeat_toNat] at h
  have h0 := c.op.isLt
  have h1 := c.arg0.isLt
  have h2 := c.arg1.isLt
  have h3 := c.arg2.isLt
  obtain ⟨e0, e1, e2, e3⟩ := h
  obtain ⟨op, a, b, d⟩ := c
  simp only at *
  have k0 : (Command.ofBeat (Command.toBeat ⟨op, a, b, d⟩)).op = op := BitVec.eq_of_toNat_eq (by omega)
  have k1 : (Command.ofBeat (Command.toBeat ⟨op, a, b, d⟩)).arg0 = a := BitVec.eq_of_toNat_eq (by omega)
  have k2 : (Command.ofBeat (Command.toBeat ⟨op, a, b, d⟩)).arg1 = b := BitVec.eq_of_toNat_eq (by omega)
  have k3 : (Command.ofBeat (Command.toBeat ⟨op, a, b, d⟩)).arg2 = d := BitVec.eq_of_toNat_eq (by omega)
  cases hc : Command.ofBeat (Command.toBeat ⟨op, a, b, d⟩)
  rw [hc] at k0 k1 k2 k3
  simp only at k0 k1 k2 k3
  rw [k0, k1, k2, k3]

/-- The decoder, opcode by opcode. -/
theorem decodeCommand_op (a b d : Word32) :
    decodeCommand ⟨0x0, a, b, d⟩ = .reserved0 ∧ decodeCommand ⟨0x1, a, b, d⟩ = .construct a b d ∧
    decodeCommand ⟨0x2, a, b, d⟩ = .setFreq a ∧ decodeCommand ⟨0x3, a, b, d⟩ = .setFs a ∧
    decodeCommand ⟨0x4, a, b, d⟩ = .setQ a ∧ decodeCommand ⟨0x5, a, b, d⟩ = .calculate ∧
    decodeCommand ⟨0x6, a, b, d⟩ = .reserved6 ∧ decodeCommand ⟨0x7, a, b, d⟩ = .reserved7 ∧
    decodeCommand ⟨0x8, a, b, d⟩ = .reserved8 ∧ decodeCommand ⟨0x9, a, b, d⟩ = .reserved9 ∧
    decodeCommand ⟨0xA, a, b, d⟩ = .reservedA ∧ decodeCommand ⟨0xB, a, b, d⟩ = .reservedB ∧
    decodeCommand ⟨0xC, a, b, d⟩ = .reservedC ∧ decodeCommand ⟨0xD, a, b, d⟩ = .reservedD ∧
    decodeCommand ⟨0xE, a, b, d⟩ = .reservedE ∧ decodeCommand ⟨0xF, a, b, d⟩ = .reservedF := by
  refine ⟨rfl, rfl, rfl, rfl, rfl, rfl, rfl, rfl, rfl, rfl, rfl, rfl, rfl, rfl, rfl, rfl⟩

/-- A property of commands holds when it holds of each opcode's commands. -/
theorem command_cases {P : Command → Prop} (h : ∀ (k : Fin 16) (a b d : Word32), P ⟨BitVec.ofFin k, a, b, d⟩)
    (c : Command) : P c := h c.op.toFin c.arg0 c.arg1 c.arg2

/-- The decoded command's opcode is the command's op field. -/
@[simp] theorem decodeCommand_opcode (c : Command) : (decodeCommand c).opcode = c.op := by
  revert c
  refine command_cases (fun k a b d => ?_)
  fin_cases k <;> rfl

end Sys2Proof
end

