-- ==== Sys2Proof/Laws/Float64.lean ====
section
/-! SUPPORT. The small laws of the binary64 arithmetic: how a packed word is taken apart again, how NaN travels, and how
negation moves through the operations (R8, R43, R90). -/

namespace Sys2Proof.Machine

open Sys2Proof

/-! ### Words, signs and magnitudes -/

theorem pack64_toNat (neg : Bool) {g : Nat} (h : g < 2 ^ 63) :
    (pack64 neg g).toNat = (if neg then 2 ^ 63 else 0) + g := by
  unfold pack64
  rw [BitVec.toNat_ofNat]
  cases neg <;> (simp; omega)

theorem pack64_mag (neg : Bool) {g : Nat} (h : g < 2 ^ 63) : (pack64 neg g).toNat % 2 ^ 63 = g := by
  rw [pack64_toNat neg h]
  cases neg <;> (simp; omega)

theorem pack64_msb (neg : Bool) {g : Nat} (h : g < 2 ^ 63) : (pack64 neg g).msb = neg := by
  rw [BitVec.msb_eq_decide, pack64_toNat neg h]
  cases neg
  · simp; omega
  · simp

/-- Every word is the packing of its sign and its magnitude. -/
theorem pack64_self (w : Word64) : pack64 w.msb (w.toNat % 2 ^ 63) = w := by
  have hw := w.isLt
  have hm : w.toNat % 2 ^ 63 < 2 ^ 63 := Nat.mod_lt _ (by decide)
  apply BitVec.eq_of_toNat_eq
  rw [pack64_toNat _ hm, BitVec.msb_eq_decide]
  cases h : decide (2 ^ (64 - 1) ≤ w.toNat)
  · have := of_decide_eq_false h
    simp; omega
  · have := of_decide_eq_true h
    simp; omega

theorem expField_toNat (w : Word64) : (w.extractLsb' 52 11).toNat = w.toNat % 2 ^ 63 / 2 ^ 52 := by
  rw [BitVec.extractLsb'_toNat, Nat.shiftRight_eq_div_pow]
  omega

theorem frac_toNat (w : Word64) : (w.extractLsb' 0 52).toNat = w.toNat % 2 ^ 63 % 2 ^ 52 := by
  rw [BitVec.extractLsb'_toNat, Nat.shiftRight_zero]
  omega

/-- A packed magnitude is taken apart into its exponent and fraction fields again. -/
theorem b64_pack64 (neg : Bool) {g : Nat} (h : g < 2 ^ 63) :
    b64 (pack64 neg g) = binary64.value neg (g / 2 ^ 52) (g % 2 ^ 52) := by
  rw [b64, expField_toNat, frac_toNat, pack64_mag neg h, pack64_msb neg h]

theorem value_inf (f : Format) (neg : Bool) : f.value neg f.expOnes 0 = .inf neg := by
  simp [Format.value]

@[simp] theorem b64_inf64 (neg : Bool) : b64 (inf64 neg) = .inf neg := by
  cases neg <;> decide

@[simp] theorem b64_zero64 (neg : Bool) : b64 (zero64 neg) = .fin neg 0 (-1074) := by
  cases neg <;> decide

@[simp] theorem b64_nan64 : b64 nan64 = .nan := by decide

@[simp] theorem msb_inf64 (neg : Bool) : (inf64 neg).msb = neg := by
  cases neg <;> decide

@[simp] theorem msb_zero64 (neg : Bool) : (zero64 neg).msb = neg := by
  cases neg <;> decide

/-- A finite value's sign is its word's sign bit. -/
theorem msb_of_fin {w : Word64} {s : Bool} {m : Nat} {e : Int} (h : b64 w = .fin s m e) : w.msb = s := by
  unfold b64 Format.value at h
  split at h
  · split at h <;> cases h
  · split at h <;> (cases h; rfl)

/-- An infinity's sign is its word's sign bit, and its word is the infinity of that sign. -/
theorem eq_inf64_of_inf {w : Word64} {s : Bool} (h : b64 w = .inf s) : w = inf64 s := by
  unfold b64 Format.value at h
  split at h
  · rename_i he
    split at h
    · rename_i hf
      cases h
      rw [expField_toNat] at he
      rw [frac_toNat] at hf
      have hk : binary64.expOnes = 2047 := rfl
      have : w.toNat % 2 ^ 63 = 2047 * 2 ^ 52 := by omega
      rw [inf64, ← this, pack64_self]
    · cases h
  · split at h <;> cases h

/-! ### Rounding -/

/-- Rounding never passes infinity. -/
theorem roundMag_le (f : Format) (m : Nat) (e : Int) : f.roundMag m e ≤ f.infMag := by
  unfold Format.roundMag Format.infMag
  split
  · exact Nat.zero_le _
  · exact Nat.min_le_right _ _

@[simp] theorem roundMag_zero (f : Format) (e : Int) : f.roundMag 0 e = 0 := by simp [Format.roundMag]

theorem roundMag_lt (m : Nat) (e : Int) : binary64.roundMag m e < 2 ^ 63 :=
  lt_of_le_of_lt (roundMag_le binary64 m e) (by decide)

@[simp] theorem msb_round64 (neg : Bool) (m : Nat) (e : Int) : (round64 neg m e).msb = neg :=
  pack64_msb neg (roundMag_lt m e)

@[simp] theorem round64_zero (neg : Bool) (e : Int) : round64 neg 0 e = zero64 neg := by
  simp [round64, zero64]

/-- A rounded number is never NaN. -/
theorem round64_not_nan (neg : Bool) (m : Nat) (e : Int) : b64 (round64 neg m e) ≠ .nan := by
  rw [round64, b64_pack64 neg (roundMag_lt m e)]
  intro h
  have hle := roundMag_le binary64 m e
  have hk : binary64.infMag = 2047 * 2 ^ 52 := rfl
  have hx : binary64.expOnes = 2047 := rfl
  unfold Format.value at h
  split at h
  · rename_i he
    split at h
    · cases h
    · rename_i hf
      omega
  · split at h <;> cases h

/-! ### NaN -/

@[simp] theorem add64_nan_left (x y : Word64) (h : b64 x = .nan) : add64 x y = nan64 := by
  simp [add64, h]

@[simp] theorem add64_nan_right (x y : Word64) (h : b64 y = .nan) : add64 x y = nan64 := by
  unfold add64; rw [h]; cases b64 x <;> rfl

@[simp] theorem mul64_nan_left (x y : Word64) (h : b64 x = .nan) : mul64 x y = nan64 := by
  simp [mul64, h]

@[simp] theorem mul64_nan_right (x y : Word64) (h : b64 y = .nan) : mul64 x y = nan64 := by
  unfold mul64; rw [h]; cases b64 x <;> rfl

@[simp] theorem div64_nan_left (x y : Word64) (h : b64 x = .nan) : div64 x y = nan64 := by
  simp [div64, h]

@[simp] theorem div64_nan_right (x y : Word64) (h : b64 y = .nan) : div64 x y = nan64 := by
  unfold div64; rw [h]; cases b64 x <;> rfl

theorem isNaN64_iff (w : Word64) : isNaN64 w = true ↔ b64 w = .nan := by simp [isNaN64]

/-! ### Negation -/

/-- The value with the other sign. -/
def Value.flip : Value → Value
  | .nan => .nan
  | .inf s => .inf (!s)
  | .fin s m e => .fin (!s) m e

theorem neg64_toNat_mag (w : Word64) : (neg64 w).toNat % 2 ^ 63 = w.toNat % 2 ^ 63 := by
  have : ((0x8000000000000000 : Word64)).toNat % 2 ^ 63 = 0 := by decide
  rw [neg64, BitVec.toNat_xor, Nat.xor_mod_two_pow, this, Nat.xor_zero]

@[simp] theorem neg64_msb (w : Word64) : (neg64 w).msb = !w.msb := by
  have : ((0x8000000000000000 : Word64)).msb = true := by decide
  rw [neg64, BitVec.msb_xor, this, Bool.xor_true]

@[simp] theorem neg64_neg64 (w : Word64) : neg64 (neg64 w) = w := by
  simp [neg64]

@[simp] theorem b64_neg64 (w : Word64) : b64 (neg64 w) = (b64 w).flip := by
  rw [b64, b64, expField_toNat, frac_toNat, expField_toNat, frac_toNat, neg64_toNat_mag, neg64_msb]
  unfold Format.value
  split
  · split <;> rfl
  · split <;> rfl

theorem neg64_pack64 (neg : Bool) {g : Nat} (h : g < 2 ^ 63) : neg64 (pack64 neg g) = pack64 (!neg) g := by
  rw [← pack64_self (neg64 (pack64 neg g)), neg64_msb, neg64_toNat_mag, pack64_mag neg h, pack64_msb neg h]

@[simp] theorem neg64_round64 (neg : Bool) (m : Nat) (e : Int) : neg64 (round64 neg m e) = round64 (!neg) m e :=
  neg64_pack64 neg (roundMag_lt m e)

@[simp] theorem neg64_inf64 (neg : Bool) : neg64 (inf64 neg) = inf64 (!neg) := by
  cases neg <;> decide

@[simp] theorem neg64_zero64 (neg : Bool) : neg64 (zero64 neg) = zero64 (!neg) := by
  cases neg <;> decide

/-- `(−x) ⊗ y` is `x ⊗ y` with the sign bit flipped, or both are NaN. -/
theorem mul64_neg_left (x y : Word64) :
    (b64 (mul64 x y) = .nan ∧ b64 (mul64 (neg64 x) y) = .nan) ∨ mul64 (neg64 x) y = neg64 (mul64 x y) := by
  unfold mul64
  rw [b64_neg64]
  rcases b64 x with _ | s | ⟨s, m, e⟩ <;> rcases b64 y with _ | t | ⟨t, n, g⟩ <;> simp only [Value.flip]
  any_goals exact .inl ⟨rfl, rfl⟩
  · exact .inr (by simp)
  · split
    · exact .inl ⟨rfl, rfl⟩
    · exact .inr (by simp)
  · split
    · exact .inl ⟨rfl, rfl⟩
    · exact .inr (by simp)
  · exact .inr (by simp)

/-- `(−x) ⊘ y` is `x ⊘ y` with the sign bit flipped, or both are NaN. -/
theorem div64_neg_left (x y : Word64) :
    (b64 (div64 x y) = .nan ∧ b64 (div64 (neg64 x) y) = .nan) ∨ div64 (neg64 x) y = neg64 (div64 x y) := by
  unfold div64
  rw [b64_neg64]
  rcases b64 x with _ | s | ⟨s, m, e⟩ <;> rcases b64 y with _ | t | ⟨t, n, g⟩ <;> simp only [Value.flip]
  any_goals exact .inl ⟨rfl, rfl⟩
  · exact .inr (by simp)
  · exact .inr (by simp)
  · split
    · split
      · exact .inl ⟨rfl, rfl⟩
      · exact .inr (by simp)
    · exact .inr (by simp)

end Sys2Proof.Machine
end

