-- ==== Sys2Proof/Laws/State.lean ====
section
/-! SUPPORT. One lemma per field per update of the state: what each named operation leaves in each field. -/

namespace Sys2Proof.Machine

open Sys2Proof

@[simp] theorem tick_freq (s : State) : (s.tick).freq = s.freq := rfl
@[simp] theorem tick_qf (s : State) : (s.tick).qf = s.qf := rfl
@[simp] theorem tick_fs (s : State) : (s.tick).fs = s.fs := rfl
@[simp] theorem tick_coef (s : State) : (s.tick).coef = s.coef := rfl
@[simp] theorem tick_busy (s : State) : (s.tick).busy = s.busy := rfl
@[simp] theorem tick_pend (s : State) : (s.tick).pend = s.pend := rfl
@[simp] theorem tick_rsp (s : State) : (s.tick).rsp = none := rfl
@[simp] theorem tick_coefUpdate (s : State) : (s.tick).coefUpdate = false := rfl
@[simp] theorem tick_schedule (s : State) : (s.tick).schedule = s.schedule.tail := rfl

@[simp] theorem resetEdge_freq (s : State) : (resetEdge s).freq = 0 := rfl
@[simp] theorem resetEdge_qf (s : State) : (resetEdge s).qf = 0 := rfl
@[simp] theorem resetEdge_fs (s : State) : (resetEdge s).fs = 0 := rfl
@[simp] theorem resetEdge_coef (s : State) : (resetEdge s).coef = .reset := rfl
@[simp] theorem resetEdge_busy (s : State) : (resetEdge s).busy = false := rfl
@[simp] theorem resetEdge_pend (s : State) : (resetEdge s).pend = none := rfl
@[simp] theorem resetEdge_rsp (s : State) : (resetEdge s).rsp = none := rfl
@[simp] theorem resetEdge_coefUpdate (s : State) : (resetEdge s).coefUpdate = false := rfl
@[simp] theorem resetEdge_schedule (s : State) : (resetEdge s).schedule = s.schedule := rfl

@[simp] theorem accept_freq (c : Command) (s : State) : (accept c s).freq = s.freq := rfl
@[simp] theorem accept_qf (c : Command) (s : State) : (accept c s).qf = s.qf := rfl
@[simp] theorem accept_fs (c : Command) (s : State) : (accept c s).fs = s.fs := rfl
@[simp] theorem accept_coef (c : Command) (s : State) : (accept c s).coef = s.coef := rfl
@[simp] theorem accept_busy (c : Command) (s : State) : (accept c s).busy = true := rfl
@[simp] theorem accept_pend (c : Command) (s : State) : (accept c s).pend = some c := rfl
@[simp] theorem accept_rsp (c : Command) (s : State) : (accept c s).rsp = s.rsp := rfl
@[simp] theorem accept_coefUpdate (c : Command) (s : State) : (accept c s).coefUpdate = s.coefUpdate := rfl
@[simp] theorem accept_schedule (c : Command) (s : State) : (accept c s).schedule = s.schedule := rfl

@[simp] theorem commitOk_freq (op : Opcode) (f q r : Word32) (s : State) : (commitOk op f q r s).freq = f := rfl
@[simp] theorem commitOk_qf (op : Opcode) (f q r : Word32) (s : State) : (commitOk op f q r s).qf = q := rfl
@[simp] theorem commitOk_fs (op : Opcode) (f q r : Word32) (s : State) : (commitOk op f q r s).fs = r := rfl
@[simp] theorem commitOk_coef (op : Opcode) (f q r : Word32) (s : State) : (commitOk op f q r s).coef = coefs f q r := rfl
@[simp] theorem commitOk_busy (op : Opcode) (f q r : Word32) (s : State) : (commitOk op f q r s).busy = false := rfl
@[simp] theorem commitOk_pend (op : Opcode) (f q r : Word32) (s : State) : (commitOk op f q r s).pend = none := rfl
@[simp] theorem commitOk_rsp (op : Opcode) (f q r : Word32) (s : State) : (commitOk op f q r s).rsp = some ⟨.ok, op⟩ := rfl
@[simp] theorem commitOk_coefUpdate (op : Opcode) (f q r : Word32) (s : State) : (commitOk op f q r s).coefUpdate = true := rfl
@[simp] theorem commitOk_schedule (op : Opcode) (f q r : Word32) (s : State) : (commitOk op f q r s).schedule = s.schedule := rfl

@[simp] theorem raiseIllegal_freq (op : Opcode) (s : State) : (raiseIllegal op s).freq = s.freq := rfl
@[simp] theorem raiseIllegal_qf (op : Opcode) (s : State) : (raiseIllegal op s).qf = s.qf := rfl
@[simp] theorem raiseIllegal_fs (op : Opcode) (s : State) : (raiseIllegal op s).fs = s.fs := rfl
@[simp] theorem raiseIllegal_coef (op : Opcode) (s : State) : (raiseIllegal op s).coef = s.coef := rfl
@[simp] theorem raiseIllegal_busy (op : Opcode) (s : State) : (raiseIllegal op s).busy = false := rfl
@[simp] theorem raiseIllegal_pend (op : Opcode) (s : State) : (raiseIllegal op s).pend = none := rfl
@[simp] theorem raiseIllegal_rsp (op : Opcode) (s : State) : (raiseIllegal op s).rsp = some ⟨.illegal, op⟩ := rfl
@[simp] theorem raiseIllegal_coefUpdate (op : Opcode) (s : State) : (raiseIllegal op s).coefUpdate = false := rfl
@[simp] theorem raiseIllegal_schedule (op : Opcode) (s : State) : (raiseIllegal op s).schedule = s.schedule := rfl

@[simp] theorem loadPending_freq (c : Command) (s : State) : (loadPending c s).freq = s.freq := rfl
@[simp] theorem loadPending_qf (c : Command) (s : State) : (loadPending c s).qf = s.qf := rfl
@[simp] theorem loadPending_fs (c : Command) (s : State) : (loadPending c s).fs = s.fs := rfl
@[simp] theorem loadPending_coef (c : Command) (s : State) : (loadPending c s).coef = s.coef := rfl
@[simp] theorem loadPending_busy (c : Command) (s : State) : (loadPending c s).busy = true := rfl
@[simp] theorem loadPending_pend (c : Command) (s : State) : (loadPending c s).pend = some c := rfl
@[simp] theorem loadPending_rsp (c : Command) (s : State) : (loadPending c s).rsp = s.rsp := rfl
@[simp] theorem loadPending_coefUpdate (c : Command) (s : State) : (loadPending c s).coefUpdate = s.coefUpdate := rfl
@[simp] theorem loadPending_schedule (c : Command) (s : State) : (loadPending c s).schedule = .commit :: s.schedule := rfl

@[simp] theorem atEdge_freq (s : State) (due : Option Nat) (p : Pins) : (s.atEdge due p).freq = s.freq := rfl
@[simp] theorem atEdge_qf (s : State) (due : Option Nat) (p : Pins) : (s.atEdge due p).qf = s.qf := rfl
@[simp] theorem atEdge_fs (s : State) (due : Option Nat) (p : Pins) : (s.atEdge due p).fs = s.fs := rfl
@[simp] theorem atEdge_coef (s : State) (due : Option Nat) (p : Pins) : (s.atEdge due p).coef = s.coef := rfl
@[simp] theorem atEdge_busy (s : State) (due : Option Nat) (p : Pins) : (s.atEdge due p).busy = s.busy := rfl
@[simp] theorem atEdge_pend (s : State) (due : Option Nat) (p : Pins) : (s.atEdge due p).pend = s.pend := rfl
@[simp] theorem atEdge_rsp (s : State) (due : Option Nat) (p : Pins) : (s.atEdge due p).rsp = s.rsp := rfl
@[simp] theorem atEdge_coefUpdate (s : State) (due : Option Nat) (p : Pins) : (s.atEdge due p).coefUpdate = s.coefUpdate := rfl
@[simp] theorem atEdge_schedule (s : State) (due : Option Nat) (p : Pins) : (s.atEdge due p).schedule = edgeAction due p :: s.schedule := rfl

end Sys2Proof.Machine
end

