-- ==== Sys2Proof/Laws/Ops.lean ====
section
/-! SUPPORT. What a command and a rising edge can do, said once: one inversion lemma for `exec` and one for `step`.
Later proofs cite these instead of unfolding the machine. -/

namespace Sys2Proof.Machine

open Sys2Proof

/-- A commit either installs a parameter triple and its coefficients with response OK, changing at most the
parameters its command names, or is `raise Illegal`. -/
theorem exec_cases {i : Instr} {s t : State} (h : exec i s = .next t) :
    (i.reserved = false ∧ ∃ f q r, t = commitOk i.opcode f q r s) ∨
    (i.reserved = true ∧ t = raiseIllegal i.opcode s) := by
  cases i with
  | construct f q r => exact .inl ⟨rfl, f, q, r, (Host.Outcome.next.inj h).symm⟩
  | setFreq f => exact .inl ⟨rfl, f, s.qf, s.fs, (Host.Outcome.next.inj h).symm⟩
  | setFs r => exact .inl ⟨rfl, s.freq, s.qf, r, (Host.Outcome.next.inj h).symm⟩
  | setQ q => exact .inl ⟨rfl, s.freq, q, s.fs, (Host.Outcome.next.inj h).symm⟩
  | calculate => exact .inl ⟨rfl, s.freq, s.qf, s.fs, (Host.Outcome.next.inj h).symm⟩
  | _ => exact .inr ⟨rfl, (Host.Outcome.next.inj h).symm⟩

/-- Every command's commit answers a next state. -/
theorem exec_answers (i : Instr) (s : State) : ∃ t, exec i s = .next t := by
  cases i <;> exact ⟨_, rfl⟩

/-- A commit writes every field a busy window or a pulse can leave behind, so it is the same from two states that
agree in the rest. -/
theorem exec_congr (i : Instr) {s s' : State} (hf : s.freq = s'.freq) (hq : s.qf = s'.qf) (hr : s.fs = s'.fs)
    (hc : s.coef = s'.coef) (hh : s.schedule = s'.schedule) : exec i s = exec i s' := by
  obtain ⟨f, q, r, c, b, p, a, u, h⟩ := s
  obtain ⟨f', q', r', c', b', p', a', u', h'⟩ := s'
  simp only at hf hq hr hc hh
  subst hf hq hr hc hh
  cases i <;> rfl

/-- A commit leaves the schedule as it is, ends the busy window, and changes nothing else by what the schedule is. -/
theorem exec_schedule {i : Instr} {s t : State} (h : exec i s = .next t) :
    t.schedule = s.schedule ∧ t.busy = false ∧ t.pend = none ∧
      ∀ l : List AgentStep, exec i { s with schedule := l } = .next { t with schedule := l } := by
  cases i <;> (cases h; exact ⟨rfl, rfl, rfl, fun _ => rfl⟩)

/-- The action of a schedule that has not run out. -/
@[simp] theorem action_of_cons {s : State} {a : AgentStep} {l : List AgentStep} (h : s.schedule = a :: l) :
    s.action = a := by
  simp [State.action, h]

/-- The action when the schedule has run out: a pending command commits. -/
@[simp] theorem action_of_nil {s : State} (h : s.schedule = []) : s.action = if s.busy then .commit else .quiet := by
  simp [State.action, h]

/-- What one step can do: a reset, the commit of the pending command, an accept, or nothing. -/
theorem step_cases {s t : State} (h : step s = .next t) :
    (s.action = .reset ∧ s.event = .reset ∧ t = resetEdge s.tick) ∨
    (s.action = .commit ∧ ∃ c, s.event = .commit c ∧ s.busy = true ∧ s.pend = some c ∧
      exec (decodeCommand c) s.tick = .next t) ∨
    (∃ c, s.action = .offer c ∧ s.event = .accept c ∧ s.busy = false ∧ t = accept c s.tick) ∨
    (s.event = .nothing ∧ t = s.tick ∧
      ((∃ c, s.action = .offer c ∧ s.busy = true) ∨ (s.action = .commit ∧ s.busy = false) ∨ s.action = .quiet)) := by
  cases ha : s.action with
  | reset =>
    have he : s.event = .reset := by simp [State.event, ha]
    rw [step, he] at h
    exact .inl ⟨rfl, he, (Host.Outcome.next.inj h).symm⟩
  | offer c =>
    cases hb : s.busy with
    | false =>
      have he : s.event = .accept c := by simp [State.event, ha, hb]
      rw [step, he] at h
      exact .inr (.inr (.inl ⟨c, rfl, he, rfl, (Host.Outcome.next.inj h).symm⟩))
    | true =>
      have he : s.event = .nothing := by simp [State.event, ha, hb]
      rw [step, he] at h
      exact .inr (.inr (.inr ⟨he, (Host.Outcome.next.inj h).symm, .inl ⟨c, rfl, rfl⟩⟩))
  | commit =>
    cases hb : s.busy with
    | false =>
      have he : s.event = .nothing := by simp [State.event, ha, hb]
      rw [step, he] at h
      exact .inr (.inr (.inr ⟨he, (Host.Outcome.next.inj h).symm, .inr (.inl ⟨rfl, rfl⟩)⟩))
    | true =>
      cases hp : s.pend with
      | none =>
        have he : s.event = .impossible := by simp [State.event, ha, hb, hp]
        rw [step, he] at h
        cases h
      | some c =>
        have he : s.event = .commit c := by simp [State.event, ha, hb, hp]
        rw [step, he] at h
        exact .inr (.inl ⟨rfl, c, he, rfl, rfl, h⟩)
  | quiet =>
    have he : s.event = .nothing := by simp [State.event, ha]
    rw [step, he] at h
    exact .inr (.inr (.inr ⟨he, (Host.Outcome.next.inj h).symm, .inr (.inr rfl)⟩))

/-- A step that resets. -/
theorem step_reset {s : State} (ha : s.action = .reset) : step s = .next (resetEdge s.tick) := by
  have he : s.event = .reset := by simp [State.event, ha]
  rw [step, he]

/-- A step that commits. -/
theorem step_commit {s : State} {c : Command} (ha : s.action = .commit) (hb : s.busy = true)
    (hp : s.pend = some c) : step s = exec (decodeCommand c) s.tick := by
  have he : s.event = .commit c := by simp [State.event, ha, hb, hp]
  rw [step, he]

/-- A step in which an idle engine is offered a command. -/
theorem step_accept {s : State} {c : Command} (ha : s.action = .offer c) (hb : s.busy = false) :
    step s = .next (accept c s.tick) := by
  have he : s.event = .accept c := by simp [State.event, ha, hb]
  rw [step, he]

/-- A step of the busy window in which the engine does not act and the host does not reset. -/
theorem step_busy {s : State} (hb : s.busy = true) (hr : s.action ≠ .reset) (hc : s.action ≠ .commit) :
    step s = .next s.tick := by
  have he : s.event = .nothing := by
    cases ha : s.action with
    | reset => exact absurd ha hr
    | commit => exact absurd ha hc
    | offer c => simp [State.event, ha, hb]
    | quiet => simp [State.event, ha]
  rw [step, he]

end Sys2Proof.Machine
end

