-- ==== Sys2Proof/Laws/PerInstr.lean ====
section
/-! SUPPORT. The family `OpField`: the command of an instruction carries its opcode, the opcode is one of the 16 rows
of the table, and the unused argument words are 0 (R39, R40, R45). -/

namespace Sys2Proof.Laws.OpField

open Sys2Proof

/-- The op field of an instruction's command is its opcode, and every argument word it does not use is 0. -/
def Statement (i : Instr) : Prop :=
  i.command.op = i.opcode ∧ (i.usedArgs.1 = false → i.command.arg0 = 0) ∧
    (i.usedArgs.2.1 = false → i.command.arg1 = 0) ∧ (i.usedArgs.2.2 = false → i.command.arg2 = 0)

theorem construct (f q r : Word32) : Statement (.construct f q r) := by simp [Statement, Instr.usedArgs]; rfl
theorem setFreq (f : Word32) : Statement (.setFreq f) := by simp [Statement, Instr.usedArgs]; exact ⟨rfl, rfl, rfl⟩
theorem setFs (r : Word32) : Statement (.setFs r) := by simp [Statement, Instr.usedArgs]; exact ⟨rfl, rfl, rfl⟩
theorem setQ (q : Word32) : Statement (.setQ q) := by simp [Statement, Instr.usedArgs]; exact ⟨rfl, rfl, rfl⟩
theorem calculate : Statement .calculate := by unfold Statement; decide
theorem reserved0 : Statement .reserved0 := by unfold Statement; decide
theorem reserved6 : Statement .reserved6 := by unfold Statement; decide
theorem reserved7 : Statement .reserved7 := by unfold Statement; decide
theorem reserved8 : Statement .reserved8 := by unfold Statement; decide
theorem reserved9 : Statement .reserved9 := by unfold Statement; decide
theorem reservedA : Statement .reservedA := by unfold Statement; decide
theorem reservedB : Statement .reservedB := by unfold Statement; decide
theorem reservedC : Statement .reservedC := by unfold Statement; decide
theorem reservedD : Statement .reservedD := by unfold Statement; decide
theorem reservedE : Statement .reservedE := by unfold Statement; decide
theorem reservedF : Statement .reservedF := by unfold Statement; decide

end Sys2Proof.Laws.OpField
end

