-- ==== Sys2Proof/Laws/Run.lean ====
section
/-! SUPPORT. Runs of the machine, edge by edge, and runs of commands: how each takes its first step, and how two runs
join. Later proofs cite these instead of unfolding `Host.Core.run`. -/

namespace Sys2Proof.Machine

open Sys2Proof

/-- No edge: the state itself. -/
@[simp] theorem run_zero (s : State) : Host.Core.run core 0 s = .next s := rfl

/-- How a run of any machine takes its first step. -/
theorem run_step (M : Host.Core) (k : Nat) (s : M.State) :
    M.run (k + 1) s =
      match M.step s with
      | .next t => M.run k t
      | .fault r => .fault r
      | .refused r => .refused r := rfl

/-- The first edge of a run whose first step answers a next state. -/
theorem run_succ {s t : State} (h : step s = .next t) (k : Nat) :
    Host.Core.run core (k + 1) s = Host.Core.run core k t := by
  have h' : core.step s = .next t := h
  refine (run_step core k s).trans ?_
  rw [h']

/-- A run of at least one edge that answers a next state has a first step that does. -/
theorem run_succ_next {j : Nat} {s t : State} (h : Host.Core.run core (j + 1) s = .next t) :
    ∃ u, step s = .next u ∧ Host.Core.run core j u = .next t := by
  have h := (run_step core j s).symm.trans h
  cases hs : core.step s with
  | next u => rw [hs] at h; exact ⟨u, hs, h⟩
  | fault r => rw [hs] at h; cases h
  | refused r => rw [hs] at h; cases h

/-- One edge is one step. -/
theorem run_one (s : State) : Host.Core.run core 1 s = step s := by
  refine (run_step core 0 s).trans ?_
  cases hs : core.step s with
  | next u => exact hs.symm
  | fault r => exact hs.symm
  | refused r => exact hs.symm

/-- A run that goes on from where a run of `j` edges ended. -/
theorem run_add {j : Nat} {s t : State} (h : Host.Core.run core j s = .next t) (k : Nat) :
    Host.Core.run core (j + k) s = Host.Core.run core k t := by
  induction j generalizing s with
  | zero => cases h; rw [Nat.zero_add]
  | succ j ih =>
    obtain ⟨u, hs, hu⟩ := run_succ_next h
    rw [show j + 1 + k = (j + k) + 1 by omega, run_succ hs]
    exact ih hu

/-- No command: the state itself. -/
@[simp] theorem runCommands_nil (s : State) : runCommands [] s = .next s := rfl

/-- The first command of a program: what its commit does depends on nothing an accept writes. -/
theorem runCommand_eq (c : Command) (s : State) : runCommand c s = exec (decodeCommand c) s :=
  exec_congr _ rfl rfl rfl rfl rfl

/-- A program takes its first command and goes on from where its commit ended. -/
theorem runCommands_cons {c : Command} {s t : State} (h : exec (decodeCommand c) s = .next t) (cs : List Command) :
    runCommands (c :: cs) s = runCommands cs t := by
  rw [runCommands, runCommand_eq, h]

/-- Steps of the busy window without reset and without commit only pass. -/
theorem run_busy {s : State} {d l : List AgentStep} (hb : s.busy = true) (hd : ∀ a ∈ d, a ≠ .reset ∧ a ≠ .commit)
    (hs : s.schedule = d ++ l) (hr : s.rsp = none) (hu : s.coefUpdate = false) :
    Host.Core.run core d.length s = .next { s with schedule := l } := by
  induction d generalizing s with
  | nil =>
    obtain ⟨f, q, r, c, b, p, a, u, h⟩ := s
    obtain rfl : h = l := hs
    rfl
  | cons a d ih =>
    have ha : s.action = a := action_of_cons (l := d ++ l) hs
    have hst := step_busy hb (ha ▸ (hd a (by simp)).1) (ha ▸ (hd a (by simp)).2)
    refine (run_succ hst d.length).trans ((ih (s := s.tick) hb (fun x hx => hd x (by simp [hx])) ?_ rfl rfl).trans ?_)
    · simp [hs]
    · simp [State.tick, hr, hu]

/-- The schedule of two runs of pins, one after the other. -/
theorem clock_append (cfg : Config) (due : Option Nat) (ps qs : List Pins) :
    clock cfg due (ps ++ qs) = clock cfg due ps ++ clock cfg (ps.foldl (nextDue cfg) due) qs := by
  induction ps generalizing due with
  | nil => rfl
  | cons p ps ih => simp [clock, ih]

/-- One action for each edge. -/
@[simp] theorem clock_length (cfg : Config) (due : Option Nat) (ps : List Pins) :
    (clock cfg due ps).length = ps.length := by
  induction ps generalizing due with
  | nil => rfl
  | cons p ps ih => simp [clock, ih]

end Sys2Proof.Machine
end

