-- ==== Sys2Proof/Tests/Slice0.lean ====
section
/-! SUPPORT. The model's own tests and the witnesses of the statements' hypotheses. Every expected value is one of
spec/95_test_vectors.md or of a worked example of spec/, named in the test's comment. -/

namespace Sys2Proof.Tests

open Sys2Proof Sys2Proof.Machine

/-! ### States the tests start from -/

/-- BASE of section 2 of the test vectors: the state after `CONSTRUCT 1000, 1, 48000`. -/
def base : State :=
  { State.reset with
    freq := 0x447A0000, qf := 0x3F800000, fs := 0x0000BB80
    coef := ⟨0x3FAF5E187B3C68CE, 0x0000000000000000, 0xBFAF5E187B3C68CE, 0xBFFDC854389C37D9, 0x3FEC143CF09872E6⟩ }

/-- `SET_FREQ 2000` as the host's four fields. -/
def setFreq2000 : Command := ⟨0x2, 0x44FA0000, 0, 0⟩

/-- BASE with `SET_FREQ 2000` pending and a schedule. -/
def pending (l : List AgentStep) : State := { base with busy := true, pend := some setFreq2000, schedule := l }

/-- The state a step or a commit answers. -/
def after : Host.Outcome State Fault Refusal → Option State
  | .next t => some t
  | .fault _ => none
  | .refused _ => none

/-- What the vectors of section 2 list. -/
structure Visible where
  freq    : Word32
  q       : Word32
  fs      : Word32
  coef    : CoefSet
  nfMask  : BitVec 5
  rsp     : Option Rsp
  pulse   : Bool
  deriving DecidableEq, Repr

/-- The registers and outputs of a state that the vectors list. -/
def visible (t : State) : Visible := ⟨t.freq, t.qf, t.fs, t.coef, t.coef.nfMask, t.rsp, t.coefUpdate⟩

/-! ### Well-formedness and decoding -/

/-- A number with bit 100 set is no beat (R36); the largest beat is one. -/
theorem test_wellformed_refuses_long_number : Beat.numberOk (2 ^ 100) = false ∧ Beat.numberOk (2 ^ 100 - 1) = true := by
  decide

theorem test_decode_refuses_long_number : decode (2 ^ 100) = .error .notABeat := by decide

/-- CONSTRUCT, written out from R36 and R39: `{arg2, arg1, arg0, op}` with op 0b0001 (R47). -/
theorem test_decode_construct :
    decodeBeat (0x0000BB80#32 ++ 0x3F800000#32 ++ 0x447A0000#32 ++ 0b0001#4) =
      .construct 0x447A0000 0x3F800000 0x0000BB80 := by decide

theorem test_decode_setFreq :
    decodeBeat (0xFFFFFFFF#32 ++ 0xDEADBEEF#32 ++ 0x44FA0000#32 ++ 0b0010#4) = .setFreq 0x44FA0000 := by decide

theorem test_decode_setFs :
    decodeBeat (0x00000000#32 ++ 0x00000000#32 ++ 0x00017700#32 ++ 0b0011#4) = .setFs 0x00017700 := by decide

theorem test_decode_setQ :
    decodeBeat (0x00000000#32 ++ 0x00000000#32 ++ 0x40000000#32 ++ 0b0100#4) = .setQ 0x40000000 := by decide

theorem test_decode_calculate :
    decodeBeat (0x33333333#32 ++ 0x22222222#32 ++ 0x11111111#32 ++ 0b0101#4) = .calculate := by decide

/-- The eleven reserved opcodes, with argument words zero (section 3 of the test vectors). -/
theorem test_decode_reserved :
    [0b0000#4, 0b0110#4, 0b0111#4, 0b1000#4, 0b1001#4, 0b1010#4, 0b1011#4, 0b1100#4, 0b1101#4, 0b1110#4,
      0b1111#4].map (fun op => decodeBeat (0#32 ++ 0#32 ++ 0#32 ++ op)) =
    [.reserved0, .reserved6, .reserved7, .reserved8, .reserved9, .reservedA, .reservedB, .reservedC, .reservedD,
      .reservedE, .reservedF] := by decide

/-- The table's word of `RESERVED 0xF` with arbitrary arguments (V-E1), in the table's own numbering. -/
theorem test_decode_table_word : decodeTableWord 104 0xFFFFFFFF12345678DEADBEEFF = some .reservedF := by decide

theorem test_encode_setFs : encode (.setFs 0x00017700) = 0x0000000000000000000177003 := by decide

/-! ### The commands, from BASE (section 2 of the test vectors) -/

/-- V-C1, from reset. -/
theorem test_construct : (after (exec (.construct 0x447A0000 0x3F800000 0x0000BB80) .reset)).map visible =
    some ⟨0x447A0000, 0x3F800000, 0x0000BB80,
      ⟨0x3FAF5E187B3C68CE, 0, 0xBFAF5E187B3C68CE, 0xBFFDC854389C37D9, 0x3FEC143CF09872E6⟩, 0b00000,
      some ⟨.ok, 0x1⟩, true⟩ := by decide +kernel

/-- V-C14: `CONSTRUCT 0, 0, 0`. -/
theorem test_construct_zero : (after (exec (.construct 0 0 0) base)).map visible =
    some ⟨0, 0, 0, CoefSet.reset, 0b11111, some ⟨.ok, 0x1⟩, true⟩ := by decide +kernel

/-- V-C2. -/
theorem test_setFreq : (after (exec (.setFreq 0x44FA0000) base)).map visible =
    some ⟨0x44FA0000, 0x3F800000, 0x0000BB80,
      ⟨0x3FBD5537D7C5DAE4, 0, 0xBFBD5537D7C5DAE4, 0xBFFB5E3226A7D681, 0x3FE8AAB20A0E8947⟩, 0b00000,
      some ⟨.ok, 0x2⟩, true⟩ := by decide +kernel

/-- V-C12: a NaN with a payload is stored verbatim. -/
theorem test_setFreq_nan : (after (exec (.setFreq 0x7FC00001) base)).map visible =
    some ⟨0x7FC00001, 0x3F800000, 0x0000BB80, CoefSet.reset, 0b11111, some ⟨.ok, 0x2⟩, true⟩ := by decide +kernel

/-- V-C3. -/
theorem test_setFs : (after (exec (.setFs 0x00017700) base)).map visible =
    some ⟨0x447A0000, 0x3F800000, 0x00017700,
      ⟨0x3FA03687D778D0F1, 0, 0xBFA03687D778D0F1, 0xBFFEEB9B883B7387, 0x3FEDF92F0510E5E2⟩, 0b00000,
      some ⟨.ok, 0x3⟩, true⟩ := by decide +kernel

/-- V-C9: the word is unsigned, not −1. -/
theorem test_setFs_unsigned : (after (exec (.setFs 0xFFFFFFFF) base)).map (·.coef) =
    some ⟨0x3EA88B2E4330DB3A, 0, 0xBEA88B2E4330DB3A, 0xBFFFFFFE774CF627, 0x3FEFFFFCEE9A379A⟩ := by decide +kernel

/-- V-C4. -/
theorem test_setQ : (after (exec (.setQ 0x40000000) base)).map visible =
    some ⟨0x447A0000, 0x40000000, 0x0000BB80,
      ⟨0x3FB02DECC2C595EF, 0, 0xBFB02DECC2C595EF, 0xBFFEB942BB734BA2, 0x3FEDFA4267A74D43⟩, 0b00000,
      some ⟨.ok, 0x4⟩, true⟩ := by decide +kernel

/-- V-C11: `SET_Q 0`. -/
theorem test_setQ_zero : (after (exec (.setQ 0) base)).map visible =
    some ⟨0x447A0000, 0, 0x0000BB80,
      ⟨0x7FF8000000000000, 0, 0x7FF8000000000000, 0x8000000000000000, 0x7FF8000000000000⟩, 0b10101,
      some ⟨.ok, 0x4⟩, true⟩ := by decide +kernel

/-- V-C5. -/
theorem test_calculate : (after (exec .calculate base)).map visible =
    some ⟨0x447A0000, 0x3F800000, 0x0000BB80,
      ⟨0x3FAF5E187B3C68CE, 0, 0xBFAF5E187B3C68CE, 0xBFFDC854389C37D9, 0x3FEC143CF09872E6⟩, 0b00000,
      some ⟨.ok, 0x5⟩, true⟩ := by decide +kernel

/-- V-E1 for every reserved opcode: nothing visible changes but the response. -/
theorem test_reserved :
    [(Instr.reserved0, 0x0#4), (.reserved6, 0x6#4), (.reserved7, 0x7#4), (.reserved8, 0x8#4), (.reserved9, 0x9#4),
      (.reservedA, 0xA#4), (.reservedB, 0xB#4), (.reservedC, 0xC#4), (.reservedD, 0xD#4), (.reservedE, 0xE#4),
      (.reservedF, 0xF#4)].all (fun p => decide ((after (exec p.1 base)).map visible =
        some ⟨base.freq, base.qf, base.fs, base.coef, 0b00000, some ⟨.illegal, p.2⟩, false⟩)) = true := by
  decide

/-! ### The datapath -/

/-- V-T4, V-T6 and V-T8: the ties at v = 0.5, 1.5 and 2.5. -/
theorem test_trig_ties : [0x3FC0000000000000, 0x3FD8000000000000, 0x3FE4000000000000].map trigTurns =
    [(0x3FE6A09E667F3BCC, 0x3FE6A09E667F3BCD), (0x3FE6A09E667F3BCC, 0xBFE6A09E667F3BCD),
      (0xBFE6A09E667F3BCC, 0xBFE6A09E667F3BCD)] := by decide +kernel

/-- V-T5, V-T7, V-T9, V-T10 and V-T11: signs of exact zeros. -/
theorem test_trig_quarters :
    [0x3FD0000000000000, 0x3FE0000000000000, 0x3FE8000000000000, 0x3FF0000000000000, 0xBFD0000000000000].map
      trigTurns =
    [(one64, zero64 true), (zero64 true, neg64 one64), (neg64 one64, zero64 false), (zero64 false, one64),
      (neg64 one64, zero64 false)] := by decide +kernel

/-- V-T13 and V-T14: a tiny nonzero d. -/
theorem test_trig_tiny : [0x3FE0000000000001, 0x34A0000000000000].map trigTurns =
    [(0xBCC921FB54442D18, 0xBFF0000000000000), (0x34C921FB54442D18, 0x3FF0000000000000)] := by decide +kernel

/-- V-N20: Q·alpha is not sn/2 (R83). -/
theorem test_b0u_is_not_half_sine :
    b0uOf (qValue 0x42836666) (alphaOf 0x3FC0B5150F6DA2D0 (qValue 0x42836666)) = 0x3FB0B5150F6DA2CF ∧
    div64 0x3FC0B5150F6DA2D0 two64 = 0x3FB0B5150F6DA2D0 := by decide +kernel

/-- V-D14 (alpha = −1), V-D13 (the sign of a1 at u = 3/4) and V-N19 (a0 < 0). -/
theorem test_degenerate_sets :
    coefs 0x463B8000 0xBF000000 0xBB80 =
      ⟨0x7FF0000000000000, 0x7FF8000000000000, 0xFFF0000000000000, 0x7FF8000000000000, 0x7FF0000000000000⟩ ∧
    coefs 0x470CA000 0x00000000 0xBB80 =
      ⟨0x7FF8000000000000, 0x8000000000000000, 0x7FF8000000000000, 0x0000000000000000, 0x7FF8000000000000⟩ ∧
    coefs 0x463B8000 0xBDCCCCCD 0xBB80 =
      ⟨0xBFC0000005000001, 0x8000000000000000, 0x3FC0000005000001, 0x8000000000000000, 0xBFF8000002800000⟩ := by
  decide +kernel

/-- Two worked examples of binary64 rounding computed by hand: 1 + 2^−53 is a tie and rounds to the even 1;
the least subnormal halved is a tie and rounds to the even +0; the largest finite number doubled overflows. -/
theorem test_rounding_corners :
    add64 one64 0x3CA0000000000000 = one64 ∧ div64 0x0000000000000001 two64 = 0 ∧
    mul64 0x7FEFFFFFFFFFFFFF two64 = 0x7FF0000000000000 := by decide +kernel

/-- The word of 2^128 − 2^103 is infinity, of one less the largest binary32 number; 65.7 is the word of V-N20 (R45). -/
theorem test_literals :
    decimal32 false (2 ^ 128 - 2 ^ 103) 0 = 0x7F800000 ∧ decimal32 false (2 ^ 128 - 2 ^ 103 - 1) 0 = 0x7F7FFFFF ∧
    realOperand "65.7".toList = some 0x42836666 ∧ realOperand "-0".toList = some 0x80000000 := by decide +kernel

/-- R44 and R45: a comment, an unused argument word, and a sample rate out of range. -/
theorem test_assemble :
    assemble (["SET_FREQ 2000 ; two kHz", "SET_FS 4294967296", "RESERVED 0xF", "RESET"].map String.toList) =
      [.command setFreq2000, .command ⟨0xF, 0, 0, 0⟩, .reset] := by decide +kernel

/-- V-K1, h[0] to h[2] of the example consumer on V-N1. -/
theorem test_impulse_response :
    consumeAll exampleArith (base.outputs false) [one64, 0, 0] ⟨0, 0, 0, 0⟩ =
      [0x3FAF5E187B3C68CE, 0x3FBD31A4D72F0856, 0x3FB8E55EC5219358] := by decide +kernel

/-! ### Steps and edges -/

/-- V-J1, edge 1: an accept changes no output register. -/
theorem test_accept :
    (after (step { base with schedule := [.offer setFreq2000] })).map (fun t => (t.busy, t.pend, t.freq, t.schedule)) =
      some (true, some setFreq2000, 0x447A0000, []) := by decide

/-- V-J1, the events at its edges 0 to 6, with `LAT` = 2: the offer of SET_FREQ at edge 2 finds the engine busy, the
one at edge 3 meets the commit, the one at edge 4 is accepted. -/
theorem test_clock_back_to_back :
    let construct : Command := ⟨0x1, 0x447A0000, 0x3F800000, 0x0000BB80⟩
    clock ⟨1⟩ none [.reset, .offer construct, .offer setFreq2000, .offer setFreq2000, .offer setFreq2000, .quiet,
      .quiet] =
    [.reset, .offer construct, .offer setFreq2000, .commit, .offer setFreq2000, .quiet, .commit] := by decide

/-- V-R3: reset on the commit edge wins. -/
theorem test_reset_on_commit_edge :
    edgeAction (some 0) .reset = .reset ∧ after (step ((pending []).atEdge (some 0) .reset)) = some .reset := by decide

/-- V-R4: a commit one edge before reset; its response stands while `rst` is already 1. -/
theorem test_commit_before_reset :
    (after (step ((pending []).atEdge (some 0) .quiet))).map
      (fun t => ((t.outputs true).rspValid, (t.outputs true).rspOp, (t.outputs true).coefUpdate,
        (t.outputs true).cmdReady)) =
      some (true, 0x2, true, false) := by decide +kernel

/-- R7: an engine left alone commits its pending command. -/
theorem test_commit_follows_accept : (after (step (pending []))).map (·.rsp) = some (some ⟨.ok, 0x2⟩) := by decide

/-- The opcode table's word of `RESERVED 0x6`, first after reset. -/
theorem test_table_word_runs : (after (step (State.reset.withFetchWord 104 0x6))).map (·.rsp) =
    some (some ⟨.illegal, 0x6⟩) := by decide

/-! ### Witnesses: states and operands that meet the statements' hypotheses -/

/-- The invariant holds in BASE: its COEF is V-N1. -/
theorem base_consistent : base.Consistent where
  coef_current := by decide +kernel
  busy_iff_pend := rfl
  rsp_idle := by decide
  update_iff_ok := ⟨(fun h => nomatch h), (fun ⟨_, h⟩ => nomatch h)⟩
  rsp_code := fun _ h => nomatch h

theorem witness_opcodes : ∀ op : Opcode, ∃ c : Command, c.op = op := fun op => ⟨⟨op, 0, 0, 0⟩, rfl⟩

/-- Sample rates on both sides of the limit, no number, and the parts of `-12.5e-3`. -/
theorem witness_literals :
    number decDigit 10 "4294967295".toList = some (2 ^ 32 - 1) ∧
    number decDigit 10 "4294967296".toList = some (2 ^ 32) ∧
    (number decDigit 10 "48k".toList = none ∧ "48k".toList.head? ≠ some 'w') ∧
    number decDigit 10 "12".toList = some 12 ∧ number decDigit 10 "5".toList = some 5 ∧
    mantissa "12.5".toList = some (125, -1) ∧ number decDigit 10 "3".toList = some 3 ∧
    realOperand "1000".toList = some 0x447A0000 ∧ realOperand "1".toList = some 0x3F800000 ∧
    assembleLine "CONSTRUCT 1000, 1, 4294967296".toList = .error .badRate ∧
    assembleLine "SET_FS 4294967296".toList = .error .badRate := by decide +kernel

theorem witness_reserved :
    (Instr.reserved0, (0x0 : Opcode)) ∈ [(Instr.reserved0, 0x0), (.reservedF, 0xF)] ∧ Instr.reservedF.reserved = true ∧
    Instr.calculate.reserved = false := by decide

theorem witness_unused_arguments :
    let c : Command := ⟨0x2, 0x44FA0000, 0xDEADBEEF, 0xFFFFFFFF⟩
    let d : Command := ⟨0x2, 0x44FA0000, 0, 0⟩
    c.op = d.op ∧ c.arg0 = d.arg0 ∧ (c.op = 0x1 → c.arg1 = d.arg1 ∧ c.arg2 = d.arg2) := by decide

theorem witness_setter_completes :
    (∀ f q r, Instr.setFreq 0x44FA0000 ≠ .construct f q r) ∧ ∃ t, exec (.setFreq 0x44FA0000) base = .next t :=
  ⟨(fun _ _ _ h => nomatch h), exec_answers _ _⟩

theorem witness_equal_parameters :
    (pending []).freq = base.freq ∧ (pending []).qf = base.qf ∧ (pending []).fs = base.fs ∧ pending [] ≠ base := by
  decide

theorem witness_commit :
    (pending [.commit]).action = .commit ∧ (pending [.commit]).busy = true ∧
    (pending [.commit]).pend = some setFreq2000 ∧ (pending [.commit]).event = .commit setFreq2000 ∧
    decodeTableWord 104 0x000000000000000044FA00002 = some (.setFreq 0x44FA0000) := by decide

theorem witness_other_steps :
    let offered : State := { base with schedule := [.offer setFreq2000] }
    let early : State := { base with schedule := [.commit] }
    (offered.action = .offer setFreq2000 ∧ offered.busy = false ∧ offered.event = .accept setFreq2000) ∧
    ((pending [.offer setFreq2000]).action = .offer setFreq2000 ∧ (pending [.offer setFreq2000]).busy = true) ∧
    base.action = .quiet ∧ (early.action = .commit ∧ early.busy = false) ∧
    (pending [.quiet]).event ≠ .reset ∧ ∀ c, (pending [.quiet]).event ≠ .commit c := by
  refine ⟨by decide, by decide, by decide, by decide, by decide, fun c h => ?_⟩
  have : (pending [.quiet]).event = .nothing := by decide
  rw [this] at h
  cases h

theorem witness_reset : (pending [.reset]).action = .reset ∧ Pins.reset.rst = true := by decide

/-- The clock counts exactly while BUSY is 1: idle, at the commit edge, and before it. -/
theorem witness_clock_agrees :
    (none : Option Nat).isSome = base.busy ∧ (some 0).isSome = (pending []).busy ∧ (some 2).isSome = (pending []).busy ∧
    (base.atEdge none (.offer setFreq2000)).event = .accept setFreq2000 ∧
    ((pending []).atEdge (some 0) .quiet).event = .commit setFreq2000 ∧
    (∃ t, step (base.atEdge none .quiet) = .next t) ∧ (∀ n, some 2 = some n → n < (Config.mk 2).lat) :=
  ⟨rfl, rfl, rfl, rfl, rfl, ⟨_, rfl⟩, fun n h => by cases h; decide⟩

theorem witness_pins_ignored :
    ¬ ((Pins.offer setFreq2000).cmdValid = true ∧ ((pending []).outputs (Pins.offer setFreq2000).rst).cmdReady = true) := by
  decide

theorem witness_step_answers : ∃ t, step (pending [.quiet]) = .next t := ⟨_, rfl⟩

theorem witness_consistent_step : ∃ t, base.Consistent ∧ step base = .next t := ⟨_, base_consistent, rfl⟩

/-- A delay with offers in it, with and without the commit in the schedule. -/
theorem witness_delay :
    let d : List AgentStep := [.quiet, .offer setFreq2000]
    let s : State := { base with schedule := .offer setFreq2000 :: (d ++ .commit :: [.quiet]) }
    let s' : State := { base with schedule := .offer setFreq2000 :: d }
    s.busy = false ∧ (∀ a ∈ d, a ≠ .reset ∧ a ≠ .commit) ∧
    s.schedule = .offer setFreq2000 :: (d ++ .commit :: [.quiet]) ∧ s'.schedule = .offer setFreq2000 :: d := by decide

/-- `LAT` = 3: the offer, then three edges on which the host offers again. -/
theorem witness_latency :
    let p := Pins.offer setFreq2000
    let ps := [p, p, Pins.quiet]
    let s : State := { base with schedule := clock ⟨2⟩ none (p :: ps) ++ [.reset] }
    s.busy = false ∧ p.rst = false ∧ p.cmdValid = true ∧ ps.length = (Config.mk 2).lat ∧ (∀ q ∈ ps, q.rst = false) ∧
    s.schedule = clock ⟨2⟩ none (p :: ps) ++ [.reset] := by decide

theorem witness_program :
    let s : State :=
      { base with schedule := clock ⟨2⟩ none (programPins ⟨2⟩ [setFreq2000, ⟨0x5, 0, 0, 0⟩]) ++ [.reset] }
    s.busy = false ∧
    s.schedule = clock ⟨2⟩ none (programPins ⟨2⟩ [setFreq2000, ⟨0x5, 0, 0, 0⟩]) ++ [.reset] := by decide

/-- Reset in the busy window; at the clock, the boundary case: the reset edge is the commit edge itself. -/
theorem witness_reset_while_pending :
    let s := pending ([.offer setFreq2000] ++ .reset :: [])
    s.busy = true ∧ (∀ a ∈ [AgentStep.offer setFreq2000], a ≠ .reset ∧ a ≠ .commit) ∧
    s.schedule = [.offer setFreq2000] ++ .reset :: [] ∧
    [Pins.quiet].length ≤ 1 ∧ (∀ q ∈ [Pins.quiet], q.rst = false) ∧ Pins.reset.rst = true := by decide

theorem witness_mask_index : 4 < [base.coef.b0, base.coef.b1, base.coef.b2, base.coef.a1, base.coef.a2].length ∧
    base.coef = (pending []).coef := by decide

/-- Finite operands, a subnormal among them, and a divisor that is not zero. -/
theorem witness_finite_operands :
    (b64 one64).isFin = true ∧ (b64 0x0000000000000001).isFin = true ∧ num64 0x0000000000000001 ≠ 0 := by
  refine ⟨by decide, by decide, ?_⟩
  have : b64 0x0000000000000001 = .fin false 1 (-1074) := by decide
  rw [num64, this]
  simp [Value.toRat]

/-- The classes of the special-value table, and two nonzero numbers with an exact zero sum and difference. -/
theorem witness_special_values :
    b64 nan64 = .nan ∧ b64 (inf64 true) = .inf true ∧ b64 (inf64 false) = .inf (!true) ∧
    (b64 (zero64 true)).isZero = true ∧ (b64 (zero64 true)).isFin = true ∧
    b64 one64 ≠ .nan ∧ (b64 one64).isZero = false ∧ b64 (inf64 true) ≠ .nan ∧ (b64 (inf64 true)).isZero = false ∧
    num64 one64 + num64 (neg64 one64) = 0 ∧ num64 one64 - num64 one64 = 0 := by
  refine ⟨by decide, by decide, by decide, by decide, by decide, by decide, by decide, by decide, by decide, ?_, ?_⟩
  · have h : b64 one64 = .fin false (2 ^ 52) (-52) := by decide
    have h' : b64 (neg64 one64) = .fin true (2 ^ 52) (-52) := by decide
    simp [num64, h, h', Value.toRat]
  · simp

/-- Frequencies: the largest finite, the least subnormal, zero, infinite and NaN; sample rates 1 and 2^32 − 1. -/
theorem witness_frequencies :
    (b32 0x7F7FFFFF).isFin = true ∧ (b32 0x00000001).isFin = true ∧ (1 : Word32) ≠ 0 ∧ (0xFFFFFFFF : Word32) ≠ 0 ∧
    b32 0xFF800000 ≠ .nan ∧ (b32 0xFF800000).isZero = false ∧ (b32 0xFF800000).isFin = false ∧
    (b32 0x80000000).isZero = true ∧ b32 0x7FC00001 = .nan ∧ (b64 (inf64 false)).isFin = false := by decide

/-- u = 1/3 rounded: 4u is no integer and rounds to 1 (V-T12). -/
theorem witness_reduction :
    (b64 0x3FD5555555555555).isFin = true ∧ rneInt (mul64 four64 0x3FD5555555555555) = some 1 ∧
    num64 (mul64 four64 0x3FD5555555555555) ≠ (1 : Int) := by
  refine ⟨by decide, by decide +kernel, ?_⟩
  have : b64 (mul64 four64 0x3FD5555555555555) = .fin false 0x15555555555555 (-52) := by decide +kernel
  simp only [num64, this, Value.toRat]
  norm_num

/-- The tie v = 0.5 (V-T4) and v = 2^52 exactly. -/
theorem witness_reduction_boundaries :
    (b64 0x3FC0000000000000).isFin = true ∧ rneInt (mul64 four64 0x3FC0000000000000) = some 0 ∧
    (b64 0x4310000000000000).isFin = true ∧ rneInt (mul64 four64 0x4310000000000000) = some (2 ^ 52) ∧
    2 ^ 52 ≤ |num64 (mul64 four64 0x4310000000000000)| := by
  refine ⟨by decide, by decide +kernel, by decide, by decide +kernel, ?_⟩
  have : b64 (mul64 four64 0x4310000000000000) = .fin false (2 ^ 52) 0 := by decide +kernel
  simp only [num64, this, Value.toRat]
  norm_num

theorem witness_quadrants : (0 : Int) % 4 = 0 ∧ (-3 : Int) % 4 = 1 ∧ (2 : Int) % 4 = 2 ∧ (-1 : Int) % 4 = 3 := by decide

/-- A zero u, one u for each quadrant (V-T10, V-T5, V-T7, V-T9), and |4u| = 2^54. -/
theorem witness_quarter_turns :
    [0x8000000000000000, 0x3FF0000000000000, 0x3FD0000000000000, 0x3FE0000000000000, 0x3FE8000000000000,
      0x4330000000000000].map (fun u => ((b64 u).isFin, rneInt (mul64 four64 u), b64 (mul64 four64 u))) =
    [(true, some 0, .fin true 0 (-1074)), (true, some 4, .fin false (2 ^ 52) (-50)),
      (true, some 1, .fin false (2 ^ 52) (-52)), (true, some 2, .fin false (2 ^ 52) (-51)),
      (true, some 3, .fin false (3 * 2 ^ 51) (-51)), (true, some (2 ^ 54), .fin false (2 ^ 52) 2)] := by decide +kernel

/-- The classes of Q, for FREQ = 1000 and FS = 48000 as for FREQ = 24000, whose sine is a zero (V-D6, V-D7, V-N14). -/
theorem witness_q_classes :
    (0xBB80 : Word32) ≠ 0 ∧ (b32 0x447A0000).isFin = true ∧ (b32 0x46BB8000).isFin = true ∧
    (b32 0x80000000).isZero = true ∧ b32 0xFF800000 = .inf true ∧ b32 0x7FC00000 = .nan ∧
    (b64 (trig (freqValue 0x447A0000) (fsValue 0xBB80)).1).isZero = false ∧
    (b64 (trig (freqValue 0x46BB8000) (fsValue 0xBB80)).1).isZero = true ∧
    (b32 0x00000001).isFin = true ∧ (b32 0x00000001).isZero = false := by decide +kernel

/-- V-D14: Q = −0.5 at u = 1/4 makes alpha = −1; V-N16 does not. -/
theorem witness_alpha :
    alphaOf (trig (freqValue 0x463B8000) (fsValue 0xBB80)).1 (qValue 0xBF000000) = neg64 one64 ∧
    alphaOf (trig (freqValue 0x447A0000) (fsValue 0xBB80)).1 (qValue 0x00000001) ≠ neg64 one64 := by decide +kernel

/-- The quarter-turn distance d = 1/2, the boundary of the reduced argument. -/
theorem witness_reduced_argument : (b64 0x3FE0000000000000).isFin = true ∧ |num64 0x3FE0000000000000| ≤ 1 / 2 := by
  refine ⟨by decide, ?_⟩
  have : b64 0x3FE0000000000000 = .fin false (2 ^ 52) (-53) := by decide
  simp only [num64, this, Value.toRat]
  norm_num

/-- The known-value scenario is valid (R135), u = 1/2 is not; FREQ = 24000 has u = 1/2 (V-N8). -/
theorem witness_valid_parameters :
    validParams 0x447A0000 0x3F800000 0xBB80 = true ∧ validParams 0x46BB8000 0x3F800000 0xBB80 = false ∧
    turns (freqValue 0x46BB8000) (fsValue 0xBB80) = 0x3FE0000000000000 ∧
    (b32 0x3F800000).isFin = true ∧ (b32 0x3F800000).isZero = false ∧ (0x3F800000 : Word32).msb = false := by
  decide +kernel

/-- V-D7 has a NaN b0 and V-N1 has none. -/
theorem witness_nan_b0 : b64 (coefs 0x447A0000 0 0xBB80).b0 = .nan ∧ b64 (coefs 0x447A0000 0x3F800000 0xBB80).b0 ≠ .nan := by
  decide +kernel

/-- V-N5: (1000, 48000) and (2000, 96000) have the same ratio. -/
theorem witness_equal_ratio :
    num32 0x447A0000 * (0x17700 : Word32).toNat = num32 0x44FA0000 * (0xBB80 : Word32).toNat ∧
    (0x447A0000 : Word32).msb = (0x44FA0000 : Word32).msb ∧
    turns (freqValue 0x447A0000) (fsValue 0xBB80) = turns (freqValue 0x44FA0000) (fsValue 0x17700) := by
  refine ⟨?_, by decide, by decide +kernel⟩
  have h : b32 0x447A0000 = .fin false 0xFA0000 (-14) := by decide
  have h' : b32 0x44FA0000 = .fin false 0xFA0000 (-13) := by decide
  have k : (0x17700 : Word32).toNat = 96000 := by decide
  have k' : (0xBB80 : Word32).toNat = 48000 := by decide
  simp only [num32, h, h', k, k', Value.toRat]
  norm_num

/-- The reset set on the coefficient ports, and a NaN at either place of the y-history. -/
theorem witness_nan_set : (∃ w ∈ [(State.reset.outputs false).coefB0], b64 w = .nan) ∧
    b64 (⟨0, 0, nan64, 0⟩ : History Word64).y1 = .nan ∧ b64 (⟨0, 0, 0, nan64⟩ : History Word64).y2 = .nan :=
  ⟨⟨_, List.mem_singleton.mpr rfl, by decide⟩, by decide, by decide⟩

end Sys2Proof.Tests
end

section
/-! Edges of the clock: what the action of an edge and the count after it are, in each case of R120, and the schedule of
a busy window (R7, R141). -/

namespace Sys2Proof.Machine

open Sys2Proof

/-! ### One edge -/

@[simp] theorem edgeAction_rst {p : Pins} (hr : p.rst = true) (due : Option Nat) : edgeAction due p = .reset := by
  simp [edgeAction, hr]

@[simp] theorem edgeAction_due {p : Pins} (hr : p.rst = false) : edgeAction (some 0) p = .commit := by
  simp [edgeAction, hr]

@[simp] theorem edgeAction_offer {p : Pins} (hr : p.rst = false) (hv : p.cmdValid = true) :
    edgeAction none p = .offer p.cmd := by
  simp [edgeAction, hr, hv]

@[simp] theorem edgeAction_quiet {p : Pins} (hr : p.rst = false) (hv : p.cmdValid = false) :
    edgeAction none p = .quiet := by
  simp [edgeAction, hr, hv]

/-- Before the commit edge of a pending command the engine does not act, whatever the host offers. -/
theorem edgeAction_waits {p : Pins} (hr : p.rst = false) (n : Nat) :
    edgeAction (some (n + 1)) p ≠ .reset ∧ edgeAction (some (n + 1)) p ≠ .commit := by
  cases hv : p.cmdValid <;> simp [edgeAction, hr, hv]

@[simp] theorem nextDue_rst {p : Pins} (hr : p.rst = true) (cfg : Config) (due : Option Nat) :
    nextDue cfg due p = none := by
  simp [nextDue, hr]

@[simp] theorem nextDue_due {p : Pins} (hr : p.rst = false) (cfg : Config) : nextDue cfg (some 0) p = none := by
  simp [nextDue, hr]

@[simp] theorem nextDue_waits {p : Pins} (hr : p.rst = false) (cfg : Config) (n : Nat) :
    nextDue cfg (some (n + 1)) p = some n := by
  simp [nextDue, hr]

@[simp] theorem nextDue_offer {p : Pins} (hr : p.rst = false) (hv : p.cmdValid = true) (cfg : Config) :
    nextDue cfg none p = some cfg.latPred := by
  simp [nextDue, hr, hv]

@[simp] theorem nextDue_quiet {p : Pins} (hr : p.rst = false) (hv : p.cmdValid = false) (cfg : Config) :
    nextDue cfg none p = none := by
  simp [nextDue, hr, hv]

/-- The action at an edge is the clock's. -/
@[simp] theorem atEdge_action (s : State) (due : Option Nat) (p : Pins) :
    (s.atEdge due p).action = edgeAction due p := rfl

/-- Only an idle engine whose next action is an offer accepts. -/
theorem event_accept {s : State} {c : Command} (h : s.event = .accept c) : s.busy = false ∧ s.action = .offer c := by
  unfold State.event at h
  cases ha : s.action with
  | offer d =>
    cases hb : s.busy with
    | false => simp only [ha, hb] at h; cases h; exact ⟨rfl, rfl⟩
    | true => simp [ha, hb] at h
  | commit => cases hb : s.busy <;> cases hp : s.pend <;> simp [ha, hb, hp] at h
  | reset => simp [ha] at h
  | quiet => simp [ha] at h

/-- The clock gives an offer only at an edge with `rst` 0 and `cmd_valid` 1. -/
theorem pins_of_edgeAction_offer {due : Option Nat} {p : Pins} {c : Command} (h : edgeAction due p = .offer c) :
    p.rst = false ∧ p.cmdValid = true := by
  unfold edgeAction at h
  by_cases hr : p.rst = true
  · simp [hr] at h
  by_cases hd : due = some 0
  · simp [hr, hd] at h
  by_cases hv : p.cmdValid = true
  · exact ⟨by simpa using hr, hv⟩
  · simp [hr, hd, hv] at h

/-- The busy window starts at the edge at which the clock starts to count, and ends at the edge at which it stops. -/
theorem nextDue_isSome_eq_busy {cfg : Config} {s t : State} {due : Option Nat} {p : Pins} (hb : due.isSome = s.busy)
    (h : step (s.atEdge due p) = .next t) : (nextDue cfg due p).isSome = t.busy := by
  cases hr : p.rst with
  | true =>
    rw [step_reset (by simp [hr])] at h
    cases h
    simp [hr]
  | false =>
    match due with
    | some 0 =>
      have ended : t.busy = false := by
        rcases step_cases h with ⟨ha, -⟩ | ⟨-, c, -, -, -, hx⟩ | ⟨c, ha, -⟩ | ⟨-, -, ⟨c, ha, -⟩ | ⟨-, hi⟩ | ha⟩
        · simp [hr] at ha
        · exact (exec_schedule hx).2.1
        · simp [hr] at ha
        · simp [hr] at ha
        · simp [← hb] at hi
        · simp [hr] at ha
      simp [hr, ended]
    | some (n + 1) =>
      have waits := edgeAction_waits hr n
      have busy : (s.atEdge (some (n + 1)) p).busy = true := hb.symm
      rw [step_busy busy waits.1 waits.2] at h
      cases h
      simp [hr, ← hb]
    | none =>
      cases hv : p.cmdValid with
      | true =>
        rw [step_accept (c := p.cmd) (by simp [hr, hv]) (by simp [← hb])] at h
        cases h
        simp [hr, hv]
      | false =>
        have he : (s.atEdge none p).event = .nothing := by simp [State.event, hr, hv]
        rw [step, he] at h
        cases h
        simp [hr, hv, ← hb]

/-- Every count is below `LAT`, and stays so. -/
theorem nextDue_lt_lat {cfg : Config} {due : Option Nat} {p : Pins} (h : ∀ n, due = some n → n < cfg.lat) :
    ∀ n, nextDue cfg due p = some n → n < cfg.lat := by
  intro n hn
  cases hr : p.rst with
  | true => simp [hr] at hn
  | false =>
    match due with
    | some 0 => simp [hr] at hn
    | some (k + 1) =>
      have hk := h (k + 1) rfl
      have : k = n := by simpa [hr] using hn
      omega
    | none =>
      cases hv : p.cmdValid with
      | true =>
        have : cfg.latPred = n := by simpa [hr, hv] using hn
        rw [Config.lat]
        omega
      | false => simp [hr, hv] at hn

/-- Settles O59: by cases on the edge in the order of R120, through `nextDue_isSome_eq_busy` and `nextDue_lt_lat`; an
accept needs an idle engine, so the count starts at `LAT − 1`. -/
theorem clockCountsWhileBusy : Obligations.ClockCountsWhileBusy := by
  intro cfg s t due p hb h
  refine ⟨nextDue_isSome_eq_busy hb h, nextDue_lt_lat, fun c hc => ?_⟩
  obtain ⟨idle, offered⟩ := event_accept hc
  obtain ⟨hr, hv⟩ := pins_of_edgeAction_offer offered
  have hdue : due = none := by simpa [← hb] using idle
  rw [hdue, nextDue_offer hr hv]
  rfl

/-! ### The busy window -/

/-- The edges before the commit edge only pass. -/
theorem clock_waits (cfg : Config) {n : Nat} {ps : List Pins} (hl : ps.length ≤ n) (hr : ∀ q ∈ ps, q.rst = false) :
    ∀ a ∈ clock cfg (some n) ps, a ≠ .reset ∧ a ≠ .commit := by
  induction ps generalizing n with
  | nil => simp [clock]
  | cons p ps ih =>
    obtain ⟨k, rfl⟩ : ∃ k, n = k + 1 := ⟨n - 1, by simp at hl; omega⟩
    have hp := hr p (by simp)
    intro a ha
    rw [clock, nextDue_waits hp] at ha
    rcases List.mem_cons.mp ha with rfl | ha
    · exact edgeAction_waits hp k
    · exact ih (by simpa using hl) (fun q hq => hr q (by simp [hq])) a ha

/-- After edges without reset the commit edge is so much nearer. -/
theorem nextDue_foldl_waits (cfg : Config) {n : Nat} {ps : List Pins} (hl : ps.length ≤ n)
    (hr : ∀ q ∈ ps, q.rst = false) : ps.foldl (nextDue cfg) (some n) = some (n - ps.length) := by
  induction ps generalizing n with
  | nil => simp
  | cons p ps ih =>
    obtain ⟨k, rfl⟩ : ∃ k, n = k + 1 := ⟨n - 1, by simp at hl; omega⟩
    rw [List.foldl_cons, nextDue_waits (hr p (by simp)), ih (by simpa using hl) (fun q hq => hr q (by simp [hq]))]
    simp

/-- The schedule from the offer of a command to its commit, `LAT` edges later, and the count after it: the offer,
`LAT − 1` edges that only pass, the commit. -/
theorem clock_window (cfg : Config) {p : Pins} {ps : List Pins} (hr : p.rst = false) (hv : p.cmdValid = true)
    (hl : ps.length = cfg.lat) (hps : ∀ q ∈ ps, q.rst = false) :
    (∃ d : List AgentStep, d.length = cfg.latPred ∧ (∀ a ∈ d, a ≠ .reset ∧ a ≠ .commit) ∧
      clock cfg none (p :: ps) = .offer p.cmd :: (d ++ [.commit])) ∧
    (p :: ps).foldl (nextDue cfg) none = none := by
  have hne : ps ≠ [] := by rintro rfl; simp [Config.lat] at hl
  obtain ⟨qs, q, rfl⟩ : ∃ qs q, ps = qs ++ [q] := ⟨ps.dropLast, ps.getLast hne, (List.dropLast_append_getLast hne).symm⟩
  have hq := hps q (by simp)
  have hqs : ∀ x ∈ qs, x.rst = false := fun x hx => hps x (by simp [hx])
  have hlen : qs.length = cfg.latPred := by simpa [Config.lat] using hl
  have due := nextDue_foldl_waits cfg hlen.le hqs
  rw [hlen, Nat.sub_self] at due
  refine ⟨⟨clock cfg (some cfg.latPred) qs, by simp [hlen], clock_waits cfg hlen.le hqs, ?_⟩, ?_⟩
  · simp [clock, clock_append, hr, hv, due, hq]
  · simp [hr, hv, due, hq]

/-! ### From accept to commit -/

/-- The steps after an accept at which neither the host resets nor the engine acts: the command stays pending. -/
theorem run_accept {s : State} {c : Command} {d l : List AgentStep} (hb : s.busy = false)
    (hd : ∀ a ∈ d, a ≠ .reset ∧ a ≠ .commit) (hs : s.schedule = .offer c :: (d ++ l)) :
    Host.Core.run core (d.length + 1) s = .next (accept c { s.tick with schedule := l }) := by
  refine (run_succ (step_accept (action_of_cons hs) hb) d.length).trans ?_
  exact run_busy (s := accept c s.tick) rfl hd (by simp [hs]) rfl rfl

/-- The commit of a command that was accepted in `s` is the execution of the command in `s`. -/
theorem run_accept_commit {s : State} {c : Command} {d l : List AgentStep} (hb : s.busy = false)
    (hd : ∀ a ∈ d, a ≠ .reset ∧ a ≠ .commit) (hs : s.schedule = .offer c :: (d ++ l))
    (hc : (accept c { s.tick with schedule := l }).action = .commit) :
    Host.Core.run core (d.length + 2) s = exec (decodeCommand c) { s with schedule := l.tail } := by
  refine (run_add (run_accept hb hd hs) 1).trans ?_
  rw [run_one, step_commit hc rfl rfl]
  exact exec_congr _ rfl rfl rfl rfl rfl

/-- Settles O27: a delay of steps that only pass leaves the command pending, and its commit then reads nothing an accept
wrote (`run_accept_commit`); the clock's schedule is such a delay (`clock_window`). -/
theorem acceptedCommandCommitsAfterLat : Obligations.AcceptedCommandCommitsAfterLat := by
  refine ⟨fun s c d hb hd => ⟨fun rest hs => ?_, fun hs => ?_⟩, fun cfg s p ps rest hb hr hv hl hps hs => ?_⟩
  · exact run_accept_commit hb hd hs rfl
  · exact run_accept_commit (l := []) hb hd (by simpa using hs) rfl
  · obtain ⟨⟨d, hlen, hd, hclock⟩, -⟩ := clock_window cfg hr hv hl hps
    have hsched : s.schedule = .offer p.cmd :: (d ++ .commit :: rest) := by simp [hs, hclock]
    refine ⟨fun k hk => ?_, ?_⟩
    · have hkd : k ≤ d.length := by rw [Config.lat] at hk; omega
      have h := run_accept (c := p.cmd) (d := d.take k) (l := d.drop k ++ .commit :: rest) hb
        (fun a ha => hd a (List.mem_of_mem_take ha)) (by simp [hsched, ← List.append_assoc])
      have hdrop : s.schedule.drop (k + 1) = d.drop k ++ .commit :: rest := by
        simp [hsched, List.drop_append_of_le_length hkd]
      rw [List.length_take_of_le hkd] at h
      rw [hdrop]
      exact h
    · have h := run_accept_commit (l := .commit :: rest) hb hd hsched rfl
      rwa [hlen] at h

/-- The pins of one command: the schedule is the offer, a delay and the commit, and no count is left. -/
theorem clock_commandPins (cfg : Config) (c : Command) :
    (∃ d : List AgentStep, d.length = cfg.latPred ∧ (∀ a ∈ d, a ≠ .reset ∧ a ≠ .commit) ∧
      clock cfg none (commandPins cfg c) = .offer c :: (d ++ [.commit])) ∧
    (commandPins cfg c).foldl (nextDue cfg) none = none :=
  clock_window cfg (p := .offer c) rfl rfl (by simp) (fun q hq => by rw [List.eq_of_mem_replicate hq]; rfl)

/-- Settles O28: by induction over the program; each command's `LAT + 1` edges give the outcome of executing it
(`run_accept_commit`), and leave an idle engine at the start of the schedule of the commands after it. -/
theorem edgeRunRefinesCommandRun : Obligations.EdgeRunRefinesCommandRun := by
  intro cfg s cs rest hb hs
  induction cs generalizing s with
  | nil =>
    obtain rfl : s.schedule = rest := hs
    rfl
  | cons c cs ih =>
    obtain ⟨⟨d, hlen, hd, hclock⟩, hdue⟩ := clock_commandPins cfg c
    have hsched : s.schedule = .offer c :: (d ++ .commit :: (clock cfg none (programPins cfg cs) ++ rest)) := by
      simp only [hs, programPins, List.flatMap_cons, clock_append, hclock, hdue]
      simp
    have hrun := run_accept_commit hb hd hsched rfl
    obtain ⟨t, ht⟩ := exec_answers (decodeCommand c) { s with schedule := clock cfg none (programPins cfg cs) ++ rest }
    obtain ⟨tsched, tidle, -, tcongr⟩ := exec_schedule ht
    have hedges : (cfg.lat + 1) * (c :: cs).length = (d.length + 2) + (cfg.lat + 1) * cs.length := by
      rw [List.length_cons, hlen, Config.lat]
      ring
    rw [hedges, run_add (hrun.trans ht), ih t tidle tsched, runCommands_cons (tcongr rest)]

end Sys2Proof.Machine
end

section
/-! Rounding in any binary format: the numbers that magnitude bits stand for when the exponent has no upper end, why
`Format.roundMag` gives the nearest of them with ties to even, and what the overflow threshold has to do with it (R4,
R90). -/

namespace Sys2Proof.Machine

open Sys2Proof

/-! ### Nearest integers -/

/-- `n` is an integer nearest to `t`, and an even one when `t` is halfway between two. -/
def NearestInt (t : ℚ) (n : Nat) : Prop := |(n : ℚ) - t| ≤ 1 / 2 ∧ (|(n : ℚ) - t| = 1 / 2 → n % 2 = 0)

theorem nearestInt_self (n : Nat) : NearestInt n n := by
  simp [NearestInt]

/-- No integer is nearer, and another one that is as near leaves only the even one. -/
theorem NearestInt.le_dist {t : ℚ} {n : Nat} (h : NearestInt t n) (j : ℤ) :
    |(n : ℚ) - t| ≤ |(j : ℚ) - t| ∧ (|(n : ℚ) - t| = |(j : ℚ) - t| → j ≠ n → n % 2 = 0) := by
  obtain ⟨near, even⟩ := h
  by_cases hj : j = n
  · subst hj
    exact ⟨by simp, fun _ hne => absurd rfl hne⟩
  · have apart : (1 : ℚ) ≤ |(j : ℚ) - n| := by
      exact_mod_cast Int.one_le_abs (sub_ne_zero.mpr hj)
    have triangle : |(j : ℚ) - n| ≤ |(j : ℚ) - t| + |(n : ℚ) - t| := by
      rw [abs_sub_comm (n : ℚ) t]
      exact abs_sub_le _ _ _
    exact ⟨by linarith, fun heq _ => even (by linarith)⟩

/-- A nearest integer stays between the integers that `t` is between. -/
theorem NearestInt.ge {t : ℚ} {n a : Nat} (h : NearestInt t n) (ha : (a : ℚ) ≤ t) : a ≤ n := by
  have := (abs_le.mp h.1).1
  have : (a : ℚ) < (n + 1 : Nat) := by push_cast; linarith
  have : a < n + 1 := by exact_mod_cast this
  omega

theorem NearestInt.le {t : ℚ} {n b : Nat} (h : NearestInt t n) (hb : t ≤ b) : n ≤ b := by
  have := (abs_le.mp h.1).2
  have : (n : ℚ) < (b + 1 : Nat) := by push_cast; linarith
  have : n < b + 1 := by exact_mod_cast this
  omega

/-- A shifted-out remainder, as a distance: `2^k` times the rounded quotient is at most half a step from `m`, and at
half a step the quotient is even. -/
theorem rneShift_dist (m k : Nat) :
    2 * |((2 ^ k * rneShift m k : Nat) : ℤ) - m| ≤ 2 ^ k ∧
    (2 * |((2 ^ k * rneShift m k : Nat) : ℤ) - m| = 2 ^ k → rneShift m k % 2 = 0) := by
  have hdiv : 2 ^ k * (m / 2 ^ k) + m % 2 ^ k = m := Nat.div_add_mod m (2 ^ k)
  have hmod : m % 2 ^ k < 2 ^ k := Nat.mod_lt _ (by positivity)
  have hcast : ((2 : ℤ) ^ k) = ((2 ^ k : Nat) : ℤ) := by push_cast; rfl
  rw [hcast]
  unfold rneShift
  dsimp only
  generalize m / 2 ^ k = q at *
  generalize m % 2 ^ k = r at *
  generalize 2 ^ k = s at *
  have down : ((s * q : Nat) : ℤ) - m = -r := by omega
  have up : ((s * (q + 1) : Nat) : ℤ) - m = s - r := by rw [Nat.mul_add]; omega
  split
  · rw [down, abs_neg, Nat.abs_cast]
    omega
  · split
    · rw [up, abs_of_nonneg (by omega)]
      omega
    · rcases Nat.mod_two_eq_zero_or_one q with hq | hq
      · rw [hq, Nat.add_zero, down, abs_neg, Nat.abs_cast]
        omega
      · rw [hq, up, abs_of_nonneg (by omega)]
        omega

/-- A distance between quotients by `2^k` is one of multiples of `2^k`. -/
theorem abs_sub_div_two_pow (n k : Nat) (z : ℚ) : |(n : ℚ) - z / 2 ^ k| = |((2 ^ k * n : Nat) : ℚ) - z| / 2 ^ k := by
  have hk : (0 : ℚ) < 2 ^ k := by positivity
  rw [← abs_of_pos hk, ← abs_div, abs_of_pos hk]
  congr 1
  push_cast
  field_simp

theorem nearestInt_rneShift (m k : Nat) : NearestInt ((m : ℚ) / 2 ^ k) (rneShift m k) := by
  have hk : (0 : ℚ) < 2 ^ k := by positivity
  obtain ⟨near, even⟩ := rneShift_dist m k
  have near' : 2 * |((2 ^ k * rneShift m k : Nat) : ℚ) - m| ≤ 2 ^ k := by exact_mod_cast near
  rw [NearestInt, abs_sub_div_two_pow]
  refine ⟨?_, fun h => even ?_⟩
  · rw [div_le_iff₀ hk]
    linarith
  · rw [div_eq_iff hk.ne'] at h
    have : 2 * |((2 ^ k * rneShift m k : Nat) : ℚ) - m| = 2 ^ k := by linarith
    exact_mod_cast this

/-! ### A number known to its sticky bit -/

/-- The integer `m` stands for `z` where at least two bits below the last place are dropped: it is `z`, or it is odd and
`z` lies strictly between its even neighbours. -/
def StandsFor (m : Nat) (z : ℚ) : Prop := z = m ∨ (m % 2 = 1 ∧ |(m : ℚ) - z| < 1)

theorem StandsFor.self (m : Nat) : StandsFor m m := .inl rfl

/-- An odd integer is rounded to the same integer as every number between its even neighbours. -/
theorem StandsFor.nearestInt {m : Nat} {z : ℚ} (h : StandsFor m z) {k : Nat} (hk : z = m ∨ 2 ≤ k) :
    NearestInt (z / 2 ^ k) (rneShift m k) := by
  by_cases hz : z = m
  · rw [hz]
    exact nearestInt_rneShift m k
  obtain ⟨odd, close⟩ := h.resolve_left hz
  obtain ⟨j, rfl⟩ : ∃ j, k = j + 2 := ⟨k - 2, by have := hk.resolve_left hz; omega⟩
  have hpos : (0 : ℚ) < 2 ^ (j + 2) := by positivity
  -- the distance from `m` is odd, and half a step is even
  have inner : 2 * |((2 ^ (j + 2) * rneShift m (j + 2) : Nat) : ℤ) - m| + 2 ≤ 2 ^ (j + 2) := by
    obtain ⟨near, -⟩ := rneShift_dist m (j + 2)
    have hn : 2 ^ (j + 2) * rneShift m (j + 2) = 4 * (2 ^ j * rneShift m (j + 2)) := by ring
    have hs : (2 : ℤ) ^ (j + 2) = 4 * 2 ^ j := by ring
    rw [hn, hs] at near ⊢
    generalize 2 ^ j * rneShift m (j + 2) = a at *
    generalize (2 : ℤ) ^ j = s at *
    rcases abs_choice (((4 * a : Nat) : ℤ) - m) with h | h <;> omega
  have inner' : 2 * |((2 ^ (j + 2) * rneShift m (j + 2) : Nat) : ℚ) - m| + 2 ≤ 2 ^ (j + 2) := by exact_mod_cast inner
  have triangle := abs_sub_le ((2 ^ (j + 2) * rneShift m (j + 2) : Nat) : ℚ) m z
  have strict : |(rneShift m (j + 2) : ℚ) - z / 2 ^ (j + 2)| < 1 / 2 := by
    rw [abs_sub_div_two_pow, div_lt_iff₀ hpos]
    linarith
  exact ⟨strict.le, fun h => absurd h strict.ne⟩

/-- An even lower bound of `m` is one of `z`. -/
theorem StandsFor.ge {m : Nat} {z : ℚ} (h : StandsFor m z) {a : Nat} (ha : a % 2 = 0) (hm : a ≤ m) : (a : ℚ) ≤ z := by
  rcases h with rfl | ⟨odd, close⟩
  · exact_mod_cast hm
  · have : ((a + 1 : Nat) : ℚ) ≤ m := by exact_mod_cast (show a + 1 ≤ m by omega)
    push_cast at this
    linarith [(abs_lt.mp close).2]

/-- An upper bound of `m` is one of `z`. -/
theorem StandsFor.lt {m : Nat} {z : ℚ} (h : StandsFor m z) {b : Nat} (hm : m < b) : z < b := by
  have hb : ((m + 1 : Nat) : ℚ) ≤ b := by exact_mod_cast hm
  push_cast at hb
  rcases h with rfl | ⟨-, close⟩
  · linarith
  · linarith [(abs_lt.mp close).1]

/-! ### Magnitudes without an upper end -/

/-- The number of the magnitude bits `g` when every exponent field is that of numbers. -/
def Format.unboundedNum (f : Format) (g : Nat) : ℚ :=
  ((g - (g / 2 ^ (f.prec - 1) - 1) * 2 ^ (f.prec - 1) : Nat) : ℚ) *
    2 ^ (f.minExp + (g / 2 ^ (f.prec - 1) - 1 : Nat))

/-- Every magnitude is a significand of at most `prec` bits at a place; the leading bit is 1 above the lowest place. -/
theorem exists_place (f : Format) (g : Nat) : ∃ k sig : Nat, g = k * 2 ^ (f.prec - 1) + sig ∧
    sig < 2 * 2 ^ (f.prec - 1) ∧ (k = 0 ∨ 2 ^ (f.prec - 1) ≤ sig) := by
  have hdiv := Nat.div_add_mod g (2 ^ (f.prec - 1))
  have hmod := Nat.mod_lt g (show 0 < 2 ^ (f.prec - 1) by positivity)
  cases hq : g / 2 ^ (f.prec - 1) with
  | zero => exact ⟨0, g, by omega, by rw [hq] at hdiv; omega, .inl rfl⟩
  | succ k =>
    refine ⟨k, 2 ^ (f.prec - 1) + g % 2 ^ (f.prec - 1), ?_, by omega, .inr (by omega)⟩
    rw [hq] at hdiv
    linarith

/-- The number of a significand at a place. A significand of `2^prec`, which is one bit too long, carries into the
exponent field and stands for the same number. -/
theorem unboundedNum_place (f : Format) {k sig : Nat} (hs : sig ≤ 2 * 2 ^ (f.prec - 1))
    (hk : k = 0 ∨ 2 ^ (f.prec - 1) ≤ sig) :
    f.unboundedNum (k * 2 ^ (f.prec - 1) + sig) = sig * 2 ^ (f.minExp + k) := by
  unfold Format.unboundedNum
  have hP : 0 < 2 ^ (f.prec - 1) := by positivity
  generalize 2 ^ (f.prec - 1) = P at *
  have hquot : (k * P + sig) / P = sig / P + k := by rw [Nat.add_comm, Nat.add_mul_div_right _ _ hP]
  have hbits : sig / P = 0 ∧ k = 0 ∨ sig / P = 1 ∨ sig = 2 * P := by
    rcases Nat.lt_or_ge sig P with h | h
    · exact .inl ⟨Nat.div_eq_of_lt h, by omega⟩
    · rcases Nat.lt_or_ge sig (2 * P) with h' | h'
      · exact .inr (.inl (Nat.div_eq_of_lt_le (by omega) (by omega)))
      · exact .inr (.inr (by omega))
  rcases hbits with ⟨hq, rfl⟩ | hq | rfl
  · simp [hq]
  · have hplace : sig / P + k - 1 = k := by omega
    rw [hquot, hplace, Nat.add_sub_cancel_left]
  · have hplace : 2 * P / P + k - 1 = k + 1 := by rw [Nat.mul_div_cancel _ hP]; omega
    have hsig : k * P + 2 * P - (k + 1) * P = P := by
      have : k * P + 2 * P = (k + 1) * P + P := by ring
      omega
    rw [hquot, hplace, hsig, Nat.cast_add, ← add_assoc, Nat.cast_one, zpow_add_one₀ two_ne_zero]
    push_cast
    ring

/-- Larger magnitude bits are a larger number. -/
theorem unboundedNum_strictMono (f : Format) : StrictMono f.unboundedNum := by
  refine strictMono_nat_of_lt_succ fun g => ?_
  obtain ⟨k, sig, rfl, hs, hk⟩ := exists_place f g
  rw [add_assoc, unboundedNum_place f hs.le hk, unboundedNum_place f (by omega) (by omega)]
  have : (sig : ℚ) < (sig + 1 : Nat) := by exact_mod_cast Nat.lt_succ_self sig
  exact mul_lt_mul_of_pos_right this (by positivity)

/-- Below infinity the magnitude bits are those of a number of the format. -/
theorem magNum_eq_unboundedNum (f : Format) {g : Nat} (hg : g < f.infMag) : f.magNum g = f.unboundedNum g := by
  have hP : 0 < 2 ^ (f.prec - 1) := by positivity
  have hfin : g / 2 ^ (f.prec - 1) ≠ f.expOnes := (Nat.div_lt_of_lt_mul (by rwa [Nat.mul_comm])).ne
  have hdiv := Nat.div_add_mod g (2 ^ (f.prec - 1))
  unfold Format.magNum Format.value Format.unboundedNum
  generalize 2 ^ (f.prec - 1) = P at *
  rw [if_neg hfin]
  split
  · rename_i hq
    rw [hq] at hdiv ⊢
    have : g % P = g := by omega
    simp [Value.toRat, this]
  · rename_i hq
    obtain ⟨k, hk⟩ := Nat.exists_eq_succ_of_ne_zero hq
    rw [hk] at hdiv ⊢
    have hsplit : P * k.succ = k * P + P := by rw [Nat.succ_eq_add_one]; ring
    have : g - k * P = P + g % P := by omega
    simp [Value.toRat, this]

/-- Every magnitude is a whole number of last places at a place, or is below the leading bit there. -/
theorem unboundedNum_multiple_or_small (f : Format) (k g : Nat) :
    (∃ j : ℤ, f.unboundedNum g = j * 2 ^ (f.minExp + k)) ∨
    (k ≠ 0 ∧ f.unboundedNum g < 2 ^ (f.prec - 1) * 2 ^ (f.minExp + k)) := by
  obtain ⟨k', sig, rfl, hs, hk'⟩ := exists_place f g
  by_cases hle : k ≤ k'
  · obtain ⟨i, rfl⟩ := Nat.exists_eq_add_of_le hle
    refine .inl ⟨(sig * 2 ^ i : Nat), ?_⟩
    rw [unboundedNum_place f hs.le hk', Nat.cast_add, ← add_assoc, zpow_add₀ two_ne_zero, zpow_natCast]
    push_cast
    ring
  · refine .inr ⟨by omega, ?_⟩
    have hlead := unboundedNum_place f (k := k) (sig := 2 ^ (f.prec - 1)) (by omega) (.inr le_rfl)
    push_cast at hlead
    rw [← hlead]
    apply unboundedNum_strictMono f
    have : (k' + 1) * 2 ^ (f.prec - 1) ≤ k * 2 ^ (f.prec - 1) := Nat.mul_le_mul_right _ (by omega)
    rw [Nat.succ_mul] at this
    omega

/-! ### Rounding to the nearest magnitude -/

/-- The magnitude bits `g` are the nearest to `x`, ties to even, when the exponent has no upper end. -/
def Format.UnboundedNearest (f : Format) (x : ℚ) (g : Nat) : Prop :=
  ∀ g', |f.unboundedNum g - x| ≤ |f.unboundedNum g' - x| ∧
    (|f.unboundedNum g - x| = |f.unboundedNum g' - x| → g' ≠ g → g % 2 = 0)

/-- A distance measured in last places. -/
theorem abs_mul_sub_mul {u : ℚ} (hu : 0 < u) (a t : ℚ) : |a * u - t * u| = |a - t| * u := by
  rw [← sub_mul, abs_mul, abs_of_pos hu]

/-- Rounding at the place where a number has exactly `prec` bits, or at the lowest place, gives the nearest magnitude:
every magnitude is a whole number of last places, but for those that are below the leading bit. -/
theorem unboundedNearest_place {f : Format} (hp : 2 ≤ f.prec) {k sig : Nat} {t : ℚ} (ht : NearestInt t sig)
    (hlt : t < 2 * 2 ^ (f.prec - 1)) (hk : k = 0 ∨ 2 ^ (f.prec - 1) ≤ t) :
    f.UnboundedNearest (t * 2 ^ (f.minExp + k)) (k * 2 ^ (f.prec - 1) + sig) := by
  have hu : (0 : ℚ) < 2 ^ (f.minExp + k) := by positivity
  have hcast : ((2 ^ (f.prec - 1) : Nat) : ℚ) = 2 ^ (f.prec - 1) := by push_cast; rfl
  have hsig : sig ≤ 2 * 2 ^ (f.prec - 1) := ht.le (by push_cast; exact hlt.le)
  have hksig : k = 0 ∨ 2 ^ (f.prec - 1) ≤ sig := hk.imp_right fun h => ht.ge (by rwa [hcast])
  have heven : 2 ^ (f.prec - 1) % 2 = 0 := Nat.two_pow_mod_two_eq_zero.mpr (by omega)
  have hparity : (k * 2 ^ (f.prec - 1) + sig) % 2 = sig % 2 := by
    rw [Nat.add_mod, Nat.mul_mod, heven]
    simp
  have hself := unboundedNum_place f hsig hksig
  intro g'
  rw [hself, abs_mul_sub_mul hu, hparity]
  rcases unboundedNum_multiple_or_small f k g' with ⟨j, hj⟩ | ⟨hk0, hsmall⟩
  · obtain ⟨near, tie⟩ := ht.le_dist j
    rw [hj, abs_mul_sub_mul hu]
    refine ⟨mul_le_mul_of_nonneg_right near hu.le, fun heq hne => tie (mul_right_cancel₀ hu.ne' heq) fun hjs => hne ?_⟩
    apply (unboundedNum_strictMono f).injective
    rw [hj, hjs, hself, Int.cast_natCast]
  · have hlead := hk.resolve_left hk0
    have near : |(sig : ℚ) - t| ≤ t - 2 ^ (f.prec - 1) := by
      have := (ht.le_dist ((2 ^ (f.prec - 1) : Nat) : ℤ)).1
      rwa [Int.cast_natCast, hcast, abs_sub_comm (2 ^ _) t, abs_of_nonneg (sub_nonneg.mpr hlead)] at this
    have hfar : |(sig : ℚ) - t| * 2 ^ (f.minExp + k) < |f.unboundedNum g' - t * 2 ^ (f.minExp + k)| := by
      have := mul_le_mul_of_nonneg_right near hu.le
      rw [sub_mul] at this
      exact lt_of_lt_of_le (by linarith) (neg_le_abs _)
    exact ⟨hfar.le, fun heq => absurd heq hfar.ne⟩

/-- The overflow threshold is halfway between the magnitudes at and just below infinity's bits. -/
theorem overflow_midpoint {f : Format} (hp : 1 ≤ f.prec) (hx : 2 ≤ f.expOnes) :
    2 * f.overflow = f.unboundedNum (f.infMag - 1) + f.unboundedNum f.infMag := by
  obtain ⟨K, hK⟩ : ∃ K, f.expOnes = K + 2 := ⟨f.expOnes - 2, by omega⟩
  have hP : 0 < 2 ^ (f.prec - 1) := by positivity
  have hprec : (2 : ℚ) ^ f.prec = 2 * 2 ^ (f.prec - 1) := by rw [← pow_succ', Nat.sub_add_cancel hp]
  have htop : f.infMag = K * 2 ^ (f.prec - 1) + 2 * 2 ^ (f.prec - 1) := by rw [Format.infMag, hK]; ring
  have hlast : f.infMag - 1 = K * 2 ^ (f.prec - 1) + (2 * 2 ^ (f.prec - 1) - 1) := by omega
  have hexp : f.minExp + ((K + 2 : Nat) : ℤ) - 2 = f.minExp + K := by push_cast; ring
  rw [hlast, htop, unboundedNum_place f (by omega) (by omega), unboundedNum_place f le_rfl (by omega), Format.overflow,
    hK, hexp, hprec, Nat.cast_sub (by omega)]
  push_cast
  ring

/-- Clamping the nearest magnitude of an unbounded format at infinity is rounding to nearest, ties to even: at the
overflow threshold the tie goes to infinity, whose bits are even. -/
theorem nearestEven_of_unbounded {f : Format} (hp : 2 ≤ f.prec) (hx : 2 ≤ f.expOnes) {x : ℚ} {g : Nat}
    (h : f.UnboundedNearest x g) : f.NearestEven x (min g f.infMag) := by
  have hmid := overflow_midpoint (by omega) hx
  have heven : f.infMag % 2 = 0 := by
    rw [Format.infMag, Nat.mul_mod, Nat.two_pow_mod_two_eq_zero.mpr (by omega), Nat.mul_zero, Nat.zero_mod]
  have hpos : 0 < f.infMag := Nat.mul_pos (by omega) (by positivity)
  have mono := (unboundedNum_strictMono f).monotone
  have hgap : f.unboundedNum (f.infMag - 1) < f.unboundedNum f.infMag := unboundedNum_strictMono f (by omega)
  unfold Format.NearestEven
  split
  · rename_i hover
    refine Nat.min_eq_right (Nat.le_of_not_lt fun hlt => ?_)
    have hbelow : f.unboundedNum g ≤ f.unboundedNum (f.infMag - 1) := mono (by omega)
    obtain ⟨near, tie⟩ := h f.infMag
    have hinf : |f.unboundedNum f.infMag - x| ≤ x - f.unboundedNum (f.infMag - 1) :=
      abs_le.mpr ⟨by linarith, by linarith⟩
    have hdist : |f.unboundedNum g - x| = x - f.unboundedNum g := by
      rw [abs_sub_comm, abs_of_nonneg (by linarith)]
    have hg : g = f.infMag - 1 := (unboundedNum_strictMono f).injective (by linarith)
    have := tie (by linarith) (by omega)
    omega
  · rename_i hover
    have hlt : g < f.infMag := by
      refine Nat.lt_of_not_le fun hge => ?_
      have habove : f.unboundedNum f.infMag ≤ f.unboundedNum g := mono hge
      have near := (h (f.infMag - 1)).1
      have hlast : |f.unboundedNum (f.infMag - 1) - x| < f.unboundedNum f.infMag - x :=
        abs_lt.mpr ⟨by linarith, by linarith⟩
      linarith [le_abs_self (f.unboundedNum g - x)]
    rw [Nat.min_eq_left hlt.le]
    refine ⟨hlt, fun g' hg' => ?_⟩
    rw [magNum_eq_unboundedNum f hlt, magNum_eq_unboundedNum f hg']
    exact h g'

/-- The two places `Format.lastPlace` chooses from. -/
theorem lastPlace_cases (f : Format) (m : Nat) (e : Int) :
    f.minExp ≤ f.lastPlace m e ∧ e + (m.log2 + 1 : Nat) - f.prec ≤ f.lastPlace m e ∧
    (f.lastPlace m e = f.minExp ∨ f.lastPlace m e = e + (m.log2 + 1 : Nat) - f.prec) :=
  ⟨le_max_right _ _, le_max_left _ _, (max_choice _ _).symm⟩

/-- At the last place a significand has at most `prec` bits, and exactly so many above the lowest place. -/
theorem lastPlace_significand {f : Format} (hp : 2 ≤ f.prec) {m : Nat} (hm : m ≠ 0) {z : ℚ} (hz : StandsFor m z)
    (hbits : z = m ∨ 2 ≤ m) (e : Int) :
    z * 2 ^ (e - f.lastPlace m e) < 2 * 2 ^ (f.prec - 1) ∧
    (f.lastPlace m e = f.minExp ∨ 2 ^ (f.prec - 1) ≤ z * 2 ^ (e - f.lastPlace m e)) := by
  obtain ⟨-, hplace, hchoice⟩ := lastPlace_cases f m e
  generalize f.lastPlace m e = q at *
  have hscale : (0 : ℚ) < 2 ^ (e - q) := by positivity
  have hprec : ((f.prec - 1 : Nat) : ℤ) = f.prec - 1 := by omega
  push_cast at hplace hchoice
  constructor
  · have hhi : z < 2 ^ (m.log2 + 1) := by exact_mod_cast hz.lt Nat.lt_log2_self
    calc z * 2 ^ (e - q) < 2 ^ (m.log2 + 1) * 2 ^ (e - q) := mul_lt_mul_of_pos_right hhi hscale
      _ = (2 : ℚ) ^ (((m.log2 + 1 : Nat) : ℤ) + (e - q)) := by rw [zpow_add₀ two_ne_zero, zpow_natCast]
      _ ≤ (2 : ℚ) ^ (1 + ((f.prec - 1 : Nat) : ℤ)) := zpow_le_zpow_right₀ one_le_two (by push_cast; omega)
      _ = 2 * 2 ^ (f.prec - 1) := by rw [zpow_add₀ two_ne_zero, zpow_one, zpow_natCast]
  · refine hchoice.imp_right fun hq => ?_
    have hlo : 2 ^ m.log2 ≤ z := by
      rcases hbits with rfl | hbits
      · exact_mod_cast Nat.log2_self_le hm
      · have hlog : 1 ≤ m.log2 := (Nat.le_log2 hm).mpr hbits
        have heven : 2 ^ m.log2 % 2 = 0 := Nat.two_pow_mod_two_eq_zero.mpr hlog
        exact_mod_cast hz.ge heven (Nat.log2_self_le hm)
    calc (2 : ℚ) ^ (f.prec - 1) = (2 : ℚ) ^ ((m.log2 : ℤ) + (e - q)) := by
          rw [← zpow_natCast, hprec]
          congr 1
          omega
      _ = 2 ^ m.log2 * 2 ^ (e - q) := by rw [zpow_add₀ two_ne_zero, zpow_natCast]
      _ ≤ z * 2 ^ (e - q) := mul_le_mul_of_nonneg_right hlo hscale.le

/-- The significand of `Format.roundMag` is the integer nearest to the number at that place. -/
theorem nearestInt_significand {m : Nat} {z : ℚ} (hz : StandsFor m z) {e q : Int} (hq : z = m ∨ e + 2 ≤ q) :
    NearestInt (z * 2 ^ (e - q)) (if q ≤ e then m * 2 ^ (e - q).toNat else rneShift m (q - e).toNat) := by
  split
  · rename_i hle
    have hexact := hq.resolve_right (by omega)
    obtain ⟨i, hi⟩ := Int.eq_ofNat_of_zero_le (show 0 ≤ e - q by omega)
    rw [hexact, hi, zpow_natCast, Int.toNat_natCast]
    exact_mod_cast nearestInt_self (m * 2 ^ i)
  · obtain ⟨i, hi⟩ := Int.eq_ofNat_of_zero_le (show 0 ≤ q - e by omega)
    have hneg : e - q = -(i : ℤ) := by omega
    rw [hi, hneg, zpow_neg, zpow_natCast, ← div_eq_mul_inv, Int.toNat_natCast]
    exact hz.nearestInt (hq.imp_right fun h => by omega)

/-- `Format.roundMag` rounds the number its significand stands for to nearest, ties to even, once; a sticky significand
needs two bits more than the format keeps. -/
theorem roundMag_nearestEven {f : Format} (hp : 2 ≤ f.prec) (hx : 2 ≤ f.expOnes) {m : Nat} {z : ℚ}
    (hz : StandsFor m z) (hbits : z = m ∨ 2 ^ (f.prec + 1) ≤ m) (e : Int) :
    f.NearestEven (z * 2 ^ e) (f.roundMag m e) := by
  unfold Format.roundMag
  split
  · rename_i hm
    have hz0 : z = 0 := by
      rcases hz with rfl | ⟨odd, -⟩
      · simp [hm]
      · omega
    have hzero := unboundedNearest_place hp (k := 0) (nearestInt_self 0) (by push_cast; positivity) (.inl rfl)
    simpa [hz0] using nearestEven_of_unbounded hp hx hzero
  · rename_i hm
    dsimp only
    obtain ⟨hmin, hplace, -⟩ := lastPlace_cases f m e
    have hbits2 : z = m ∨ 2 ≤ m := hbits.imp_right fun h =>
      le_trans (Nat.le_self_pow (Nat.succ_ne_zero _) 2) h
    have hdrop : z = m ∨ e + 2 ≤ f.lastPlace m e := hbits.imp_right fun h => by
      have := (Nat.le_log2 hm).mpr h
      push_cast at hplace
      omega
    obtain ⟨hlt, hlead⟩ := lastPlace_significand hp hm hz hbits2 e
    have hsig := nearestInt_significand hz hdrop
    generalize f.lastPlace m e = q at *
    obtain ⟨k, rfl⟩ : ∃ k : Nat, q = f.minExp + k := ⟨(q - f.minExp).toNat, by omega⟩
    have hnum : z * 2 ^ e = z * 2 ^ (e - (f.minExp + k)) * 2 ^ (f.minExp + k) := by
      rw [mul_assoc, ← zpow_add₀ two_ne_zero, sub_add_cancel]
    have hk : (f.minExp + k - f.minExp).toNat = k := by omega
    rw [hnum, hk]
    exact nearestEven_of_unbounded hp hx (unboundedNearest_place hp hsig hlt (hlead.imp_left fun h => by omega))

/-! ### The sticky quotient -/

/-- The sticky quotient stands for the exact quotient, and has more than 64 bits. -/
theorem stickyQuot_standsFor (m : Nat) {n : Nat} (hn : n ≠ 0) :
    ∃ z : ℚ, z * 2 ^ (stickyQuot m n).2 = (m : ℚ) / n ∧ StandsFor (stickyQuot m n).1 z ∧
      (z = (stickyQuot m n).1 ∨ 2 ^ 64 ≤ (stickyQuot m n).1) := by
  have hn' : (0 : ℚ) < n := by exact_mod_cast Nat.pos_of_ne_zero hn
  unfold stickyQuot
  dsimp only
  have hdiv := Nat.div_add_mod (m * 2 ^ (n.log2 + 64)) n
  have hmod := Nat.mod_lt (m * 2 ^ (n.log2 + 64)) (Nat.pos_of_ne_zero hn)
  have hbig : m ≠ 0 → 2 ^ 63 ≤ m * 2 ^ (n.log2 + 64) / n := fun hm => by
    rw [Nat.le_div_iff_mul_le (Nat.pos_of_ne_zero hn)]
    calc 2 ^ 63 * n ≤ 2 ^ 63 * 2 ^ (n.log2 + 1) := Nat.mul_le_mul_left _ Nat.lt_log2_self.le
      _ = 1 * 2 ^ (n.log2 + 64) := by ring
      _ ≤ m * 2 ^ (n.log2 + 64) := Nat.mul_le_mul_right _ (Nat.pos_of_ne_zero hm)
  generalize m * 2 ^ (n.log2 + 64) / n = q at *
  generalize hr : m * 2 ^ (n.log2 + 64) % n = r at *
  refine ⟨2 * q + 2 * (r / n), ?_, ?_, ?_⟩
  · have hexact : (n : ℚ) * q + r = m * 2 ^ (n.log2 + 64) := by exact_mod_cast hdiv
    have hz : 2 * (q : ℚ) + 2 * (r / n) = m / n * 2 ^ (n.log2 + 64 + 1) := by
      rw [pow_succ]
      field_simp
      linarith
    rw [hz, zpow_neg, zpow_natCast, mul_assoc, mul_inv_cancel₀ (by positivity), mul_one]
  · split
    · rename_i h0
      exact .inl (by simp [h0])
    · rename_i h0
      have hr0 : 0 < (r : ℚ) / n := div_pos (by exact_mod_cast Nat.pos_of_ne_zero h0) hn'
      have hr1 : (r : ℚ) / n < 1 := by rw [div_lt_one hn']; exact_mod_cast hmod
      refine .inr ⟨by omega, abs_lt.mpr ⟨?_, ?_⟩⟩ <;> push_cast <;> linarith
  · by_cases hm : m = 0
    · have h0 : r = 0 := by rw [← hr]; simp [hm]
      exact .inl (by simp [h0])
    · have := hbig hm
      exact .inr (by omega)

end Sys2Proof.Machine
end

section
/-! The four operations of the datapath on finite words round the exact result once (R4, R8). -/

namespace Sys2Proof.Machine

open Sys2Proof

/-- A finite value is a sign and an exact number. -/
theorem isFin_iff {v : Value} : v.isFin = true ↔ ∃ s m e, v = .fin s m e := by
  cases v with
  | nan => simp [Value.isFin]
  | inf s => simp [Value.isFin]
  | fin s m e => simp [Value.isFin]

theorem num64_of_fin {w : Word64} {s : Bool} {m : Nat} {e : Int} (h : b64 w = .fin s m e) :
    num64 w = (if s then -1 else 1) * ((m : ℚ) * 2 ^ e) := by
  rw [num64, h, Value.toRat]

@[simp] theorem toRat_flip (v : Value) : v.flip.toRat = -v.toRat := by
  cases v with
  | nan => simp [Value.flip, Value.toRat]
  | inf s => simp [Value.flip, Value.toRat]
  | fin s m e => cases s <;> simp [Value.flip, Value.toRat]

/-- `−a` is exact (R8). -/
@[simp] theorem num64_neg64 (w : Word64) : num64 (neg64 w) = -num64 w := by
  rw [num64, b64_neg64, toRat_flip, num64]

/-- The signs of a product or quotient multiply. -/
theorem sign_bne (s t : Bool) :
    (if (s != t) = true then -1 else 1 : ℚ) = (if s then -1 else 1) * (if t then -1 else 1) := by
  cases s <;> cases t <;> simp

theorem sign_bne_div (s t : Bool) :
    (if (s != t) = true then -1 else 1 : ℚ) = (if s then -1 else 1) / (if t then -1 else 1) := by
  cases s <;> cases t <;> norm_num

/-- An integer number of units is its sign and its magnitude. -/
theorem signed_cast (s : Bool) (m : Nat) : ((signed s m : ℤ) : ℚ) = (if s then -1 else 1) * m := by
  cases s <;> simp [signed]

theorem sign_mul_natAbs (z : ℤ) : (if decide (z < 0) = true then -1 else 1 : ℚ) * z.natAbs = z := by
  rw [Nat.cast_natAbs, Int.cast_abs]
  by_cases hz : z < 0
  · have : (z : ℚ) < 0 := by exact_mod_cast hz
    simp [hz, abs_of_neg this]
  · have : (0 : ℚ) ≤ z := by exact_mod_cast Int.not_lt.mp hz
    simp [hz, abs_of_nonneg this]

/-- A sign and a correctly rounded magnitude are the rounded number. -/
theorem rounded64_of_magnitude {x a : ℚ} {neg : Bool} {m : Nat} {e : Int} (hx : x = (if neg then -1 else 1) * a)
    (ha : 0 ≤ a) (h : binary64.NearestEven a (binary64.roundMag m e)) : Rounded64 x (round64 neg m e) := by
  have habs : |x| = a := by cases neg <;> simp [hx, abs_of_nonneg ha]
  refine ⟨?_, fun hneg => ?_, fun hpos => ?_⟩
  · rwa [habs, round64, pack64_mag neg (roundMag_lt m e)]
  · cases neg
    · rw [if_neg Bool.false_ne_true, one_mul] at hx
      linarith
    · simp
  · cases neg
    · simp
    · rw [if_pos rfl] at hx
      linarith

/-- `round64` rounds the exact number once. -/
theorem rounded64_round64 {x : ℚ} {neg : Bool} {m : Nat} {e : Int}
    (hx : x = (if neg then -1 else 1) * ((m : ℚ) * 2 ^ e)) : Rounded64 x (round64 neg m e) :=
  rounded64_of_magnitude hx (by positivity)
    (roundMag_nearestEven (by decide) (by decide) (.self m) (.inl rfl) e)

/-- A zero of either sign is the number 0. -/
theorem rounded64_zero64 (neg : Bool) : Rounded64 0 (zero64 neg) := by
  rw [← round64_zero neg 0]
  exact rounded64_round64 (by simp)

/-- A significand moved to a lower place. -/
theorem cast_mul_two_pow_sub (m : Nat) {e low : Int} (h : low ≤ e) :
    ((m * 2 ^ (e - low).toNat : Nat) : ℚ) * 2 ^ low = m * 2 ^ e := by
  obtain ⟨i, hi⟩ := Int.eq_ofNat_of_zero_le (show 0 ≤ e - low by omega)
  have he : e = i + low := by omega
  rw [hi, Int.toNat_natCast, he, zpow_add₀ two_ne_zero, zpow_natCast]
  push_cast
  ring

theorem rounded64_add64 {x y : Word64} (hx : (b64 x).isFin = true) (hy : (b64 y).isFin = true) :
    Rounded64 (num64 x + num64 y) (add64 x y) := by
  obtain ⟨s, m, e, hx⟩ := isFin_iff.mp hx
  obtain ⟨t, n, g, hy⟩ := isFin_iff.mp hy
  rw [add64, hx, hy]
  dsimp only
  have hsum : num64 x + num64 y = ((signed s (m * 2 ^ (e - min e g).toNat) +
      signed t (n * 2 ^ (g - min e g).toNat) : ℤ) : ℚ) * 2 ^ min e g := by
    rw [num64_of_fin hx, num64_of_fin hy, Int.cast_add, signed_cast, signed_cast, add_mul, mul_assoc, mul_assoc,
      cast_mul_two_pow_sub m (min_le_left e g), cast_mul_two_pow_sub n (min_le_right e g)]
  rw [hsum]
  generalize signed s (m * 2 ^ (e - min e g).toNat) + signed t (n * 2 ^ (g - min e g).toNat) = z
  split
  · rename_i hz
    rw [hz, Int.cast_zero, zero_mul]
    exact rounded64_zero64 _
  · exact rounded64_round64 (by rw [← mul_assoc, sign_mul_natAbs])

theorem rounded64_sub64 {x y : Word64} (hx : (b64 x).isFin = true) (hy : (b64 y).isFin = true) :
    Rounded64 (num64 x - num64 y) (sub64 x y) := by
  have hneg : (b64 (neg64 y)).isFin = true := by
    obtain ⟨t, n, g, hy⟩ := isFin_iff.mp hy
    simp [hy, Value.flip, Value.isFin]
  rw [sub64, sub_eq_add_neg, ← num64_neg64]
  exact rounded64_add64 hx hneg

theorem rounded64_mul64 {x y : Word64} (hx : (b64 x).isFin = true) (hy : (b64 y).isFin = true) :
    Rounded64 (num64 x * num64 y) (mul64 x y) := by
  obtain ⟨s, m, e, hx⟩ := isFin_iff.mp hx
  obtain ⟨t, n, g, hy⟩ := isFin_iff.mp hy
  rw [mul64, hx, hy]
  refine rounded64_round64 ?_
  rw [num64_of_fin hx, num64_of_fin hy, sign_bne, zpow_add₀ two_ne_zero]
  push_cast
  ring

theorem rounded64_div64 {x y : Word64} (hx : (b64 x).isFin = true) (hy : (b64 y).isFin = true) (h0 : num64 y ≠ 0) :
    Rounded64 (num64 x / num64 y) (div64 x y) := by
  obtain ⟨s, m, e, hx⟩ := isFin_iff.mp hx
  obtain ⟨t, n, g, hy⟩ := isFin_iff.mp hy
  have hn : n ≠ 0 := by
    rintro rfl
    exact h0 (by simp [num64_of_fin hy])
  obtain ⟨z, hz, hstands, hbits⟩ := stickyQuot_standsFor m hn
  have hmag : z * 2 ^ ((stickyQuot m n).2 + e - g) = (m : ℚ) / n * (2 ^ e / 2 ^ g) := by
    rw [zpow_sub₀ two_ne_zero, zpow_add₀ two_ne_zero, ← hz]
    ring
  have hround : binary64.NearestEven ((m : ℚ) / n * (2 ^ e / 2 ^ g))
      (binary64.roundMag (stickyQuot m n).1 ((stickyQuot m n).2 + e - g)) := by
    rw [← hmag]
    exact roundMag_nearestEven (by decide) (by decide) hstands
      (hbits.imp_right (le_trans (Nat.pow_le_pow_right two_pos (by decide)))) _
  rw [div64, hx, hy]
  dsimp only
  rw [if_neg hn]
  refine rounded64_of_magnitude ?_ (by positivity) hround
  rw [num64_of_fin hx, num64_of_fin hy, sign_bne_div]
  ring

/-- The formatter's one change (R97). -/
theorem fmt64_eq (v : Word64) : fmt64 v = if b64 v = .nan then 0x7FF8000000000000 else v := by
  simp [fmt64, isNaN64]

/-- Settles O35: each operation takes exact numbers apart and rounds once, and `Format.roundMag` is rounding to nearest
even (`roundMag_nearestEven`), of a quotient too, known to its sticky bit (`stickyQuot_standsFor`). -/
theorem operationsRoundToNearestEven : Obligations.OperationsRoundToNearestEven :=
  ⟨fun _ _ hx hy => ⟨rounded64_add64 hx hy, rounded64_sub64 hx hy, rounded64_mul64 hx hy, rounded64_div64 hx hy⟩,
    fmt64_eq⟩

end Sys2Proof.Machine
end

section
/-! What one step does to the state of the engine: when the pulses appear, when the levels change, and the invariant it
keeps (R17, R18, R20 to R22). -/

namespace Sys2Proof.Machine

open Sys2Proof

/-! ### Consistent states -/

/-- With the pulses over, a state is consistent when `COEF` is current and `PEND` agrees with `BUSY`. -/
theorem consistent_of_no_pulse {s : State} (hc : s.coef = coefs s.freq s.qf s.fs) (hb : s.busy = s.pend.isSome)
    (hr : s.rsp = none) (hu : s.coefUpdate = false) : s.Consistent where
  coef_current := hc
  busy_iff_pend := hb
  rsp_idle := by simp [hr]
  update_iff_ok := by simp [hr, hu]
  rsp_code := by simp [hr]

/-- The five NaNs of a reset are the coefficients of the parameters of a reset: `Coefs(0, 0, 0)` (R17, R131). -/
theorem coefs_zero : coefs 0 0 0 = .reset := by decide

theorem resetEdge_consistent (s : State) : (resetEdge s).Consistent :=
  consistent_of_no_pulse coefs_zero.symm rfl rfl rfl

theorem tick_consistent {s : State} (h : s.Consistent) : s.tick.Consistent :=
  consistent_of_no_pulse h.coef_current h.busy_iff_pend rfl rfl

/-- An accept starts the busy window, at an edge that ended the pulses. -/
theorem accept_tick_consistent {s : State} (c : Command) (h : s.Consistent) : (accept c s.tick).Consistent :=
  consistent_of_no_pulse h.coef_current rfl rfl rfl

theorem commitOk_consistent {op : Opcode} (hop : op.reserved = false) (f q r : Word32) (s : State) :
    (commitOk op f q r s).Consistent where
  coef_current := rfl
  busy_iff_pend := rfl
  rsp_idle := by simp
  update_iff_ok := by simp
  rsp_code := by simp [hop]

/-- `raise Illegal` writes no parameter and no coefficient, so it needs them to agree before (R116). -/
theorem raiseIllegal_consistent {op : Opcode} (hop : op.reserved = true) {s : State}
    (hc : s.coef = coefs s.freq s.qf s.fs) : (raiseIllegal op s).Consistent where
  coef_current := hc
  busy_iff_pend := rfl
  rsp_idle := by simp
  update_iff_ok := by simp
  rsp_code := by simp [hop]

/-- Every command's commit keeps the invariant, and needs only that `COEF` was current. -/
theorem exec_consistent {i : Instr} {s t : State} (hc : s.coef = coefs s.freq s.qf s.fs) (h : exec i s = .next t) :
    t.Consistent := by
  rcases exec_cases h with ⟨hop, f, q, r, rfl⟩ | ⟨hop, rfl⟩
  · exact commitOk_consistent hop f q r s
  · exact raiseIllegal_consistent hop hc

/-- Settles O30: by the four things a step can do (`step_cases`), each of which keeps the invariant. -/
theorem stepKeepsConsistency : Obligations.StepKeepsConsistency := by
  intro s t hs h
  rcases step_cases h with ⟨-, -, rfl⟩ | ⟨-, c, -, -, -, hx⟩ | ⟨c, -, -, -, rfl⟩ | ⟨-, rfl, -⟩
  · exact resetEdge_consistent s.tick
  · exact exec_consistent (tick_consistent hs).coef_current hx
  · exact accept_tick_consistent c hs
  · exact tick_consistent hs

/-- Settles O31: the state after reset has no pulse and `Coefs(0, 0, 0)` (`coefs_zero`), and a reset writes all that the
invariant speaks of. -/
theorem resetIsConsistent : Obligations.ResetIsConsistent := by
  refine ⟨resetEdge_consistent .reset, fun s t ha h => ?_⟩
  rw [step_reset ha] at h
  cases h
  exact resetEdge_consistent s.tick

/-! ### Pulses -/

/-- The pulses a commit emits (R42, R99). -/
theorem exec_pulses {i : Instr} {s t : State} (h : exec i s = .next t) :
    t.rsp = some ⟨if i.opcode.reserved then .illegal else .ok, i.opcode⟩ ∧ t.coefUpdate = !i.opcode.reserved := by
  rcases exec_cases h with ⟨hop, f, q, r, rfl⟩ | ⟨hop, rfl⟩
  · rw [Instr.reserved] at hop
    simp [hop]
  · rw [Instr.reserved] at hop
    simp [hop]

/-- The pulses after a commit step. -/
theorem step_pulses_of_commit {s t : State} {c : Command} (he : s.event = .commit c) (h : step s = .next t) :
    t.rsp = some ⟨if c.op.reserved then .illegal else .ok, c.op⟩ ∧ t.coefUpdate = !c.op.reserved := by
  rw [step, he] at h
  have pulses := exec_pulses h
  rwa [decodeCommand_opcode] at pulses

/-- After any other step there are none. -/
theorem step_no_pulse {s t : State} (he : ∀ c, s.event ≠ .commit c) (h : step s = .next t) :
    t.rsp = none ∧ t.coefUpdate = false := by
  rcases step_cases h with ⟨-, -, rfl⟩ | ⟨-, c, hc, -⟩ | ⟨c, -, -, -, rfl⟩ | ⟨-, rfl, -⟩
  · exact ⟨rfl, rfl⟩
  · exact absurd hc (he c)
  · exact ⟨rfl, rfl⟩
  · exact ⟨rfl, rfl⟩

/-- Settles O25: a commit step emits the pulses of its opcode (`step_pulses_of_commit`), every other step none
(`step_no_pulse`). -/
theorem pulsesAppearExactlyAfterCommits : Obligations.PulsesAppearExactlyAfterCommits := by
  refine ⟨fun s t rst h => ?_, fun cfg due ps => clock_length cfg due ps⟩
  by_cases hc : ∃ c, s.event = .commit c
  · obtain ⟨c, hc⟩ := hc
    obtain ⟨hr, hu⟩ := step_pulses_of_commit hc h
    cases hop : c.op.reserved <;> simp [State.outputs, RspCode.bits, hc, hr, hu, hop]
  · rw [not_exists] at hc
    obtain ⟨hr, hu⟩ := step_no_pulse hc h
    simp [State.outputs, hc, hr, hu]

/-! ### Levels -/

/-- Only a reset or a commit writes a register that a level port shows. -/
theorem step_keeps_registers {s t : State} (hr : s.event ≠ .reset) (hc : ∀ c, s.event ≠ .commit c)
    (h : step s = .next t) : t.freq = s.freq ∧ t.qf = s.qf ∧ t.fs = s.fs ∧ t.coef = s.coef := by
  rcases step_cases h with ⟨-, he, -⟩ | ⟨-, c, he, -⟩ | ⟨c, -, -, -, rfl⟩ | ⟨-, rfl, -⟩
  · exact absurd he hr
  · exact absurd he (hc c)
  · exact ⟨rfl, rfl, rfl, rfl⟩
  · exact ⟨rfl, rfl, rfl, rfl⟩

/-- Settles O26: the level ports are functions of FREQ, QF, FS and COEF, which `step_keeps_registers` says only a reset
or a commit writes. -/
theorem levelsChangeOnlyAtCommitOrReset : Obligations.LevelsChangeOnlyAtCommitOrReset := by
  intro s t rst h
  refine ⟨fun hr hc => ?_, rfl, rfl, rfl, rfl, rfl, rfl, rfl, rfl, rfl⟩
  obtain ⟨hfreq, hq, hfs, hcoef⟩ := step_keeps_registers hr hc h
  simp [State.outputs, hfreq, hq, hfs, hcoef]

/-! ### Steps that neither commit nor reset -/

/-- An engine with nothing to commit, and an edge at which no agent acts. -/
theorem step_nothing {s : State} (h : s.action = .quiet ∨ (s.action = .commit ∧ s.busy = false)) :
    step s = .next s.tick := by
  have he : s.event = .nothing := by
    rcases h with ha | ⟨ha, hb⟩
    · simp [State.event, ha]
    · simp [State.event, ha, hb]
  rw [step, he]

/-- Settles O21: the accept, the offer to a busy engine and the step in which nothing happens, each by its rule. -/
theorem edgesOutsideCommits : Obligations.EdgesOutsideCommits :=
  fun _ => ⟨fun _ ha hb => step_accept ha hb, fun _ ha hb => step_busy hb (by simp [ha]) (by simp [ha]), step_nothing⟩

/-! ### The non-finite mask -/

/-- In any format, the values with the all-ones exponent field are NaN and the infinities (R37, R43). -/
theorem expField_eq_expOnes_iff (f : Format) (neg : Bool) (expField frac : Nat) :
    expField = f.expOnes ↔ f.value neg expField frac = .nan ∨ ∃ s, f.value neg expField frac = .inf s := by
  rw [Format.value]
  by_cases he : expField = f.expOnes
  · rw [if_pos he]
    split <;> simp [he]
  · rw [if_neg he]
    split <;> simp [he]

theorem isNonFinite64_iff (w : Word64) : isNonFinite64 w = true ↔ b64 w = .nan ∨ ∃ neg, b64 w = .inf neg := by
  have hfield : isNonFinite64 w = true ↔ (w.extractLsb' 52 11).toNat = binary64.expOnes := by
    rw [isNonFinite64, beq_iff_eq, ← BitVec.toNat_inj]
    rfl
  rw [hfield]
  exact expField_eq_expOnes_iff binary64 _ _ _

/-- Bit `i` of the mask is the mark of the coefficient word `i` (R18). -/
theorem nfMask_getLsbD (c : CoefSet) (i : Nat) (h : i < [c.b0, c.b1, c.b2, c.a1, c.a2].length) :
    c.nfMask.getLsbD i = isNonFinite64 [c.b0, c.b1, c.b2, c.a1, c.a2][i] := by
  have hi : i < 5 := h
  simp only [CoefSet.nfMask, BitVec.getLsbD_append, BitVec.getLsbD_ofBool]
  interval_cases i <;> simp

/-- Settles O33: bit by bit (`nfMask_getLsbD`), and an all-ones exponent is NaN or an infinity (`isNonFinite64_iff`). -/
theorem nfMaskMarksNonFiniteCoefficients : Obligations.NfMaskMarksNonFiniteCoefficients := by
  refine ⟨fun s rst => ?_, fun _ _ _ _ hc => congrArg CoefSet.nfMask hc,
    fun _ => (by decide : CoefSet.reset.nfMask = 0b11111)⟩
  intro ws i h
  have hbit : (s.outputs rst).nfMask.getLsbD i = isNonFinite64 ws[i] := nfMask_getLsbD s.coef i h
  rw [hbit]
  exact ⟨beq_iff_eq, isNonFinite64_iff _⟩

end Sys2Proof.Machine
end

section
/-! Beats at the ports: decoding and encoding are inverse up to the argument words a command does not use (R36, R39, R41,
R45), the edges at which a command is accepted (R35), and the order of the coefficient bus (R43). -/

namespace Sys2Proof.Machine

open Sys2Proof

/-! ### Decode after encode -/

/-- The fields of an instruction's command decode to the instruction. -/
@[simp] theorem decodeCommand_command (i : Instr) : decodeCommand i.command = i := by
  cases i <;> rfl

@[simp] theorem decodeBeat_encode (i : Instr) : decodeBeat (encode i) = i := by
  rw [decodeBeat, encode, ofBeat_toBeat, decodeCommand_command]

/-- Every beat is a number the decoder accepts. -/
theorem decode_toNat (b : Beat) : decode b.toNat = .ok (decodeBeat b) := by
  have hok : Beat.numberOk b.toNat = true := decide_eq_true b.isLt
  rw [decode, if_pos hok, BitVec.ofNat_toNat, BitVec.setWidth_eq]

/-- The table's word of a beat: the bits above the beat's own are 0. -/
theorem decodeTableWord_toNat (b : Beat) {nbits : Nat} (h : 100 ≤ nbits) :
    decodeTableWord nbits b.toNat = some (decodeBeat b) := by
  have hlt : b.toNat < 2 ^ nbits := b.isLt.trans_le (Nat.pow_le_pow_right two_pos h)
  rw [decodeTableWord, Nat.mod_eq_of_lt hlt, decode_toNat]
  rfl

theorem wellFormed_eq_true (i : Instr) : i.wellFormed = true := by
  cases i <;> rfl

/-- Settles O2: the decoder gives each instruction back from its fields (`decodeCommand_command`), a beat keeps its
fields (`ofBeat_toBeat`), and both numberings give the decoder the beat itself. -/
theorem decodeOfEncodeIsIdentity : Obligations.DecodeOfEncodeIsIdentity := fun i =>
  ⟨wellFormed_eq_true i, decodeBeat_encode i, by rw [decode_toNat, decodeBeat_encode],
    by rw [decodeTableWord_toNat _ (by decide), decodeBeat_encode]⟩

/-! ### Fields -/

/-- Putting the fields of a beat together gives the beat. -/
@[simp] theorem toBeat_ofBeat (b : Beat) : (Command.ofBeat b).toBeat = b := by
  apply BitVec.eq_of_toNat_eq
  obtain ⟨hop, h0, h1, h2⟩ := ofBeat_toNat b
  rw [toBeat_toNat, hop, h0, h1, h2]
  have := b.isLt
  omega

/-- Settles O1: fields and beat are inverse (`ofBeat_toBeat`, `toBeat_ofBeat`), and the opcode of a decoded command is
its op field. -/
theorem beatFieldsAreOpAndArguments : Obligations.BeatFieldsAreOpAndArguments := by
  refine ⟨fun c => ?_, toBeat_ofBeat, fun b => decodeCommand_opcode (.ofBeat b)⟩
  have fields := ofBeat_toBeat c
  exact ⟨congrArg Command.op fields, congrArg Command.arg0 fields, congrArg Command.arg1 fields,
    congrArg Command.arg2 fields⟩

/-! ### Encode after decode -/

/-- The fields of a decoded command: those it uses as they were, and zeros. -/
theorem command_decodeCommand (c : Command) : (decodeCommand c).command =
    { op := c.op
      arg0 := if (decodeCommand c).usedArgs.1 then c.arg0 else 0
      arg1 := if (decodeCommand c).usedArgs.2.1 then c.arg1 else 0
      arg2 := if (decodeCommand c).usedArgs.2.2 then c.arg2 else 0 } := by
  revert c
  refine command_cases (fun k a b d => ?_)
  fin_cases k <;> rfl

/-- Settles O3: `command_decodeCommand` of the beat's fields. -/
theorem encodeOfDecodeClearsUnusedArguments : Obligations.EncodeOfDecodeClearsUnusedArguments := fun b =>
  congrArg Command.toBeat (command_decodeCommand (.ofBeat b))

/-! ### The opcode map -/

theorem decodeCommand_of_op {c : Command} {op : Opcode} (h : c.op = op) :
    decodeCommand c = decodeCommand ⟨op, c.arg0, c.arg1, c.arg2⟩ := by
  rw [← h]

/-- Settles O4: the decoder's answer for each opcode (`decodeCommand_op`). -/
theorem opcodeSelectsCommand : Obligations.OpcodeSelectsCommand := by
  intro c
  have map := decodeCommand_op c.arg0 c.arg1 c.arg2
  refine ⟨?_, ?_, ?_, ?_, ?_, ?_, ?_, ?_, ?_, ?_, ?_, ?_, ?_, ?_, ?_, ?_⟩ <;>
    exact fun h => by simp only [decodeCommand_of_op h, map]

/-! ### Unused argument words -/

/-- Which argument words the decoded command uses: the "used by" column of R36. -/
theorem usedArgs_decodeCommand (c : Command) : (decodeCommand c).usedArgs =
    (decide (c.op = 0x1 ∨ c.op = 0x2 ∨ c.op = 0x3 ∨ c.op = 0x4), decide (c.op = 0x1), decide (c.op = 0x1)) := by
  revert c
  refine command_cases (fun k a b d => ?_)
  fin_cases k <;> rfl

/-- Two command words with one opcode that agree in the argument words it uses decode alike (R41): the decoded commands
have the same fields. -/
theorem decodeCommand_congr {c d : Command} (hop : c.op = d.op)
    (h0 : c.op = 0x1 ∨ c.op = 0x2 ∨ c.op = 0x3 ∨ c.op = 0x4 → c.arg0 = d.arg0)
    (h12 : c.op = 0x1 → c.arg1 = d.arg1 ∧ c.arg2 = d.arg2) : decodeCommand c = decodeCommand d := by
  have fields : (decodeCommand c).command = (decodeCommand d).command := by
    simp only [command_decodeCommand, usedArgs_decodeCommand, decide_eq_true_eq, ← hop]
    congr 1
    · exact ite_congr rfl h0 fun _ => rfl
    · exact ite_congr rfl (fun h => (h12 h).1) fun _ => rfl
    · exact ite_congr rfl (fun h => (h12 h).2) fun _ => rfl
  rw [← decodeCommand_command (decodeCommand c), fields, decodeCommand_command]

theorem reserved_eq_false {op : Opcode} (h0 : op ≠ 0x0) (h6 : op < 0x6) : op.reserved = false := by
  revert op
  decide

/-- Settles O14: the commands decode alike (`decodeCommand_congr`), and every commit answers with the response of its
opcode (`exec_answers`, `exec_pulses`). -/
theorem unusedArgumentsAreIgnored : Obligations.UnusedArgumentsAreIgnored := by
  intro c d hop h0 h12
  have hdec := decodeCommand_congr hop h0 h12
  refine ⟨hdec, fun s => by rw [hdec], fun s => ?_⟩
  obtain ⟨t, ht⟩ := exec_answers (decodeCommand c) s
  refine ⟨t, ht, fun hne hlt => ?_⟩
  obtain ⟨hrsp, -⟩ := exec_pulses ht
  simpa [reserved_eq_false hne hlt] using hrsp

/-! ### Accepts -/

/-- The clock reads the command pins at no edge but one at which a command is offered and neither a reset nor a commit
comes first. -/
theorem edgeAction_cmd {due : Option Nat} {p : Pins} (h : p.rst = true ∨ due = some 0 ∨ p.cmdValid = false)
    (c : Command) : edgeAction due { p with cmd := c } = edgeAction due p := by
  rcases h with h | h | h <;> simp [edgeAction, h]

/-- An edge accepts a command exactly when `cmd_valid` is 1 and `BUSY` and `rst` are 0 (R35). -/
theorem exists_event_accept_iff {s : State} {due : Option Nat} {p : Pins} (hb : due.isSome = s.busy) :
    (∃ c, (s.atEdge due p).event = .accept c) ↔ p.cmdValid = true ∧ s.busy = false ∧ p.rst = false := by
  constructor
  · rintro ⟨c, hc⟩
    obtain ⟨idle, offered⟩ := event_accept hc
    obtain ⟨hr, hv⟩ := pins_of_edgeAction_offer offered
    exact ⟨hv, idle, hr⟩
  · rintro ⟨hv, idle, hr⟩
    have hdue : due = none := by simpa [idle] using hb
    exact ⟨p.cmd, by simp [State.event, hdue, hr, hv, idle]⟩

/-- At an edge that is no accept, the step does not read the command pins: they are not read at all, or they offer a
command to a busy engine. -/
theorem step_atEdge_cmd {s : State} {due : Option Nat} {p : Pins} (hb : due.isSome = s.busy)
    (hno : ¬ (p.cmdValid = true ∧ s.busy = false ∧ p.rst = false)) (c : Command) :
    step (s.atEdge due { p with cmd := c }) = step (s.atEdge due p) := by
  by_cases h : p.rst = true ∨ due = some 0 ∨ p.cmdValid = false
  · rw [State.atEdge, State.atEdge, edgeAction_cmd h]
  · simp only [not_or, Bool.not_eq_true, Bool.not_eq_false] at h
    obtain ⟨hr, hdue, hv⟩ := h
    have busy : s.busy = true := by simpa [hv, hr] using hno
    obtain ⟨n, rfl⟩ : ∃ n, due = some (n + 1) := by
      match due with
      | none => simp [busy] at hb
      | some 0 => exact absurd rfl hdue
      | some (n + 1) => exact ⟨n, rfl⟩
    have waits := edgeAction_waits hr n
    have waits' := edgeAction_waits (p := { p with cmd := c }) hr n
    exact (step_busy (s := s.atEdge _ _) busy waits'.1 waits'.2).trans
      (step_busy (s := s.atEdge _ p) busy waits.1 waits.2).symm

/-- Settles O24: `exists_event_accept_iff` and `step_atEdge_cmd`, with `cmd_ready` the conjunction of `BUSY` 0 and
`rst` 0; the count never reads the command pins. -/
theorem acceptNeedsValidAndReady : Obligations.AcceptNeedsValidAndReady := by
  refine ⟨fun _ _ => rfl, fun s due p hb => ?_⟩
  have ready : (s.outputs p.rst).cmdReady = true ↔ s.busy = false ∧ p.rst = false := by simp [State.outputs]
  rw [ready]
  exact ⟨exists_event_accept_iff hb, fun hno _ c => ⟨step_atEdge_cmd hb hno c, rfl⟩⟩

/-! ### Worked encodings -/

/-- Settles O5, by evaluation: the line's two binary32 words are its decimal literals rounded, and the beats give the
decoder their fields. -/
theorem workedEncodingOfConstruct : Obligations.WorkedEncodingOfConstruct :=
  ⟨rfl, rfl, rfl, rfl, rfl, rfl⟩

/-! ### The coefficient bus -/

/-- Above the lowest word, a slice of a concatenation is a slice of the words above it. -/
theorem extractLsb'_append_word {v : Nat} (x : BitVec v) (w : Word64) (k : Nat) :
    (x ++ w).extractLsb' (k + 64) 64 = x.extractLsb' k 64 := by
  rw [BitVec.extractLsb'_append_eq_of_le (Nat.le_add_left 64 k), Nat.add_sub_cancel]

/-- Settles O34: the bus is the concatenation of the five ports, and each slice is the lowest word of what stands from it
up (`extractLsb'_append_word`). -/
theorem coefficientBusOrder : Obligations.CoefficientBusOrder := by
  intro o
  have lowest {v : Nat} (x : BitVec v) (w : Word64) : (x ++ w).extractLsb' 0 64 = w :=
    BitVec.extractLsb'_append_eq_right
  have top : (o.coefA2 ++ o.coefA1).extractLsb' 64 64 = o.coefA2 := BitVec.extractLsb'_append_eq_left
  have above0 := extractLsb'_append_word (o.coefA2 ++ o.coefA1 ++ o.coefB2 ++ o.coefB1) o.coefB0
  have above1 := extractLsb'_append_word (o.coefA2 ++ o.coefA1 ++ o.coefB2) o.coefB1
  have above2 := extractLsb'_append_word (o.coefA2 ++ o.coefA1) o.coefB2
  exact ⟨lowest _ _, (above0 0).trans (lowest _ _), ((above0 64).trans (above1 0)).trans (lowest _ _),
    ((above0 128).trans ((above1 64).trans (above2 0))).trans (lowest _ _),
    ((above0 192).trans ((above1 128).trans (above2 64))).trans top⟩

end Sys2Proof.Machine
end

section
/-! Operands as text: how a decimal literal is read, that its word is rounded once, and which lines with a
sample rate assemble (R44, R45). -/

namespace Sys2Proof.Machine

open Sys2Proof

/-! ### Digit lists -/

theorem number_eq_some {digit : Char → Option Nat} {base : Nat} {cs : List Char} {n : Nat} :
    number digit base cs = some n ↔ cs ≠ [] ∧ readDigits digit base cs 0 = some n := by
  cases cs <;> simp [number]

/-- Digits of value `x` before a digit list add `x · base^length` to what it reads as. -/
theorem readDigits_add {digit : Char → Option Nat} {base : Nat} {cs : List Char} {n k : Nat}
    (h : readDigits digit base cs n = some k) (x : Nat) :
    readDigits digit base cs (x + n) = some (x * base ^ cs.length + k) := by
  induction cs generalizing n x with
  | nil => simpa [readDigits] using h
  | cons c cs ih =>
    rw [readDigits] at h ⊢
    cases hd : digit c with
    | none => rw [hd] at h; cases h
    | some d =>
      rw [hd] at h
      have hstep : base * (x + n) + d = base * x + (base * n + d) := by ring
      dsimp only
      rw [hstep, ih h (base * x), List.length_cons, pow_succ]
      congr 1
      ring

theorem readDigits_append {digit : Char → Option Nat} {base : Nat} {ds fs : List Char} {n m : Nat}
    (h : readDigits digit base ds n = some m) :
    readDigits digit base (ds ++ fs) n = readDigits digit base fs m := by
  induction ds generalizing n with
  | nil => cases h; rfl
  | cons c ds ih =>
    rw [readDigits] at h
    rw [List.cons_append, readDigits]
    cases hd : digit c with
    | none => rw [hd] at h; cases h
    | some d => rw [hd] at h; exact ih h

/-- Two digit lists one after the other: the first counts in units of `base^length` of the second. -/
theorem number_append {digit : Char → Option Nat} {base : Nat} {ds fs : List Char} {n k : Nat}
    (hd : number digit base ds = some n) (hf : number digit base fs = some k) :
    number digit base (ds ++ fs) = some (n * base ^ fs.length + k) := by
  rw [number_eq_some] at *
  refine ⟨by simp [hd.1], ?_⟩
  rw [readDigits_append hd.2]
  exact readDigits_add hf.2 n

theorem number_digitChar {d : Nat} (h : d < 10) : number decDigit 10 [Nat.digitChar d] = some d := by
  interval_cases d <;> rfl

/-- A decimal number holds no character but digits. -/
theorem decimal_range {cs : List Char} {n : Nat} (h : number decDigit 10 cs = some n) :
    ∀ c ∈ cs, 0x30 ≤ c.toNat ∧ c.toNat < 0x3A :=
  fun c hc => decDigit_range ((number_digits h).2 c hc)

/-- Characters with different codes differ. -/
theorem ne_of_toNat_ne {c x : Char} (h : c.toNat ≠ x.toNat) : c ≠ x := fun e => h (congrArg Char.toNat e)

theorem takeWhile_append_stop {p : Char → Bool} {cs : List Char} (h : ∀ c ∈ cs, p c = true) {x : Char}
    (hx : p x = false) (l : List Char) : (cs ++ x :: l).takeWhile p = cs := by
  rw [List.takeWhile_append_of_pos h]
  simp [hx]

/-! ### The digits and the dot -/

theorem decimal_no_dot {cs : List Char} {n : Nat} (h : number decDigit 10 cs = some n) :
    ∀ c ∈ cs, (c != '.') = true := by
  intro c hc
  have hr := decimal_range h c hc
  exact bne_iff_ne.mpr (ne_of_toNat_ne (by change c.toNat ≠ 0x2E; omega))

theorem mantissa_digits {ds : List Char} {n : Nat} (h : number decDigit 10 ds = some n) : mantissa ds = some (n, 0) := by
  have whole := List.takeWhile_eq_self_iff.mpr (decimal_no_dot h)
  simp [mantissa, whole, h]

theorem mantissa_dot {ds fs : List Char} {n k : Nat} (hd : number decDigit 10 ds = some n)
    (hf : number decDigit 10 fs = some k) :
    mantissa (ds ++ '.' :: fs) = some (n * 10 ^ fs.length + k, -(fs.length : Int)) := by
  have whole := takeWhile_append_stop (decimal_no_dot hd) (x := '.') (by decide) fs
  simp [mantissa, whole, hd, hf, number_append hd hf]

/-- What a mantissa can be: digits, or digits, a dot and digits. -/
theorem mantissa_cases {cs : List Char} {m : Nat} {e : Int} (h : mantissa cs = some (m, e)) :
    ∃ ds n, number decDigit 10 ds = some n ∧
      (cs = ds ∨ ∃ fs k, number decDigit 10 fs = some k ∧ cs = ds ++ '.' :: fs) := by
  have split_cs := List.takeWhile_append_dropWhile (p := (· != '.')) (l := cs)
  have first_dot := List.head?_dropWhile_not (p := (· != '.')) cs
  simp only [mantissa, drop_takeWhile] at h
  generalize cs.takeWhile (· != '.') = whole at *
  generalize cs.dropWhile (· != '.') = rest at *
  cases rest with
  | nil =>
    obtain ⟨n, hn, -⟩ := Option.map_eq_some_iff.mp h
    exact ⟨whole, n, hn, .inl (by simpa using split_cs.symm)⟩
  | cons dot fs =>
    obtain rfl : dot = '.' := by simpa using first_dot
    dsimp only at h
    split at h
    · rename_i n k hn hk
      exact ⟨whole, n, hn, .inr ⟨fs, k, hk, split_cs.symm⟩⟩
    · cases h

/-- A mantissa is not empty, and its characters are digits and the dot. -/
theorem mantissa_range {cs : List Char} {m : Nat} {e : Int} (h : mantissa cs = some (m, e)) :
    cs ≠ [] ∧ ∀ c ∈ cs, 0x2E ≤ c.toNat ∧ c.toNat < 0x3A := by
  obtain ⟨ds, n, hn, rfl | ⟨fs, k, hk, rfl⟩⟩ := mantissa_cases h
  · refine ⟨(number_digits hn).1, fun c hc => ?_⟩
    have := decimal_range hn c hc
    omega
  · refine ⟨by simp, fun c hc => ?_⟩
    rcases List.mem_append.mp hc with hc | hc
    · have := decimal_range hn c hc
      omega
    · rcases List.mem_cons.mp hc with rfl | hc
      · decide
      · have := decimal_range hk c hc
        omega

/-! ### Literals -/

theorem exponent_digits {ds : List Char} {x : Nat} (h : number decDigit 10 ds = some x) : exponent ds = some (x : Int) := by
  have hr := decimal_range h
  unfold exponent
  split
  · exact absurd (hr '-' (by simp)) (by decide)
  · exact absurd (hr '+' (by simp)) (by decide)
  · rw [h]; rfl

theorem exponent_minus {ds : List Char} {x : Nat} (h : number decDigit 10 ds = some x) :
    exponent ('-' :: ds) = some (-(x : Int)) := by
  simp [exponent, h]

/-- No character of a mantissa starts an exponent. -/
theorem mantissa_no_exponent {cs : List Char} {m : Nat} {e : Int} (h : mantissa cs = some (m, e)) :
    ∀ c ∈ cs, (!(c == 'e' || c == 'E')) = true := by
  intro c hc
  have hr := (mantissa_range h).2 c hc
  have he : c ≠ 'e' := ne_of_toNat_ne (by change c.toNat ≠ 0x65; omega)
  have hE : c ≠ 'E' := ne_of_toNat_ne (by change c.toNat ≠ 0x45; omega)
  simp [he, hE]

theorem unsignedReal_mantissa {cs : List Char} {m : Nat} {e : Int} (h : mantissa cs = some (m, e)) (neg : Bool) :
    unsignedReal neg cs = some (decimal32 neg m e) := by
  have body := List.takeWhile_eq_self_iff.mpr (mantissa_no_exponent h)
  simp only [unsignedReal, body, h, List.drop_length]

theorem unsignedReal_exponent {cs ds : List Char} {m : Nat} {e k : Int} (h : mantissa cs = some (m, e))
    (hk : exponent ds = some k) (neg : Bool) :
    unsignedReal neg (cs ++ 'e' :: ds) = some (decimal32 neg m (e + k)) := by
  have body := takeWhile_append_stop (mantissa_no_exponent h) (x := 'e') (by decide) ds
  simp only [unsignedReal, body, h, List.drop_left, hk, Option.map_some]

theorem realOperand_minus (cs : List Char) : realOperand ('-' :: cs) = unsignedReal true cs := rfl

/-- A text that starts with a mantissa is no raw word and has no sign. -/
theorem realOperand_mantissa {cs : List Char} {m : Nat} {e : Int} (h : mantissa cs = some (m, e)) (l : List Char) :
    realOperand (cs ++ l) = unsignedReal false (cs ++ l) := by
  obtain ⟨hne, hr⟩ := mantissa_range h
  obtain ⟨c, cs, rfl⟩ := List.exists_cons_of_ne_nil hne
  have hc := hr c (by simp)
  have hw : c ≠ 'w' := ne_of_toNat_ne (by change c.toNat ≠ 0x77; omega)
  have hm : c ≠ '-' := ne_of_toNat_ne (by change c.toNat ≠ 0x2D; omega)
  rw [List.cons_append, realOperand]
  · simp [hw]
  · simp [hm]

/-- A literal with no exponent. -/
theorem realOperand_literal {cs : List Char} {m : Nat} {e : Int} (h : mantissa cs = some (m, e)) :
    realOperand cs = some (decimal32 false m e) ∧ realOperand ('-' :: cs) = some (decimal32 true m e) := by
  have unsigned := realOperand_mantissa h []
  rw [List.append_nil] at unsigned
  rw [unsigned, realOperand_minus]
  exact ⟨unsignedReal_mantissa h false, unsignedReal_mantissa h true⟩

/-- A literal with an exponent. -/
theorem realOperand_exponent {cs ds : List Char} {m : Nat} {e k : Int} (h : mantissa cs = some (m, e))
    (hk : exponent ds = some k) :
    realOperand (cs ++ 'e' :: ds) = some (decimal32 false m (e + k)) ∧
    realOperand ('-' :: cs ++ 'e' :: ds) = some (decimal32 true m (e + k)) := by
  rw [realOperand_mantissa h, List.cons_append, realOperand_minus]
  exact ⟨unsignedReal_exponent h hk false, unsignedReal_exponent h hk true⟩

/-! ### The rounding -/

theorem roundMag32_lt (m : Nat) (e : Int) : binary32.roundMag m e < 2 ^ 31 :=
  lt_of_le_of_lt (roundMag_le binary32 m e) (by decide)

theorem pack32_toNat (neg : Bool) {g : Nat} (h : g < 2 ^ 31) :
    (pack32 neg g).toNat = (if neg then 2 ^ 31 else 0) + g := by
  unfold pack32
  rw [BitVec.toNat_ofNat]
  cases neg <;> (simp; omega)

theorem pack32_mag (neg : Bool) {g : Nat} (h : g < 2 ^ 31) : (pack32 neg g).toNat % 2 ^ 31 = g := by
  rw [pack32_toNat neg h]
  cases neg <;> (simp; omega)

theorem pack32_msb (neg : Bool) {g : Nat} (h : g < 2 ^ 31) : (pack32 neg g).msb = neg := by
  rw [BitVec.msb_eq_decide, pack32_toNat neg h]
  cases neg
  · simp; omega
  · simp

/-- A sign and a correctly rounded magnitude are the rounded number. -/
theorem rounded32_of_magnitude {a : ℚ} (ha : 0 ≤ a) (neg : Bool) {g : Nat} (hg : g < 2 ^ 31)
    (h : binary32.NearestEven a g) : Rounded32 ((if neg then -1 else 1) * a) (pack32 neg g) := by
  have hmsb := pack32_msb neg hg
  refine ⟨?_, fun hneg => ?_, fun hpos => ?_⟩
  · have habs : |(if neg then -1 else 1) * a| = a := by cases neg <;> simp [abs_of_nonneg ha]
    rwa [habs, pack32_mag neg hg]
  · cases neg
    · rw [if_neg Bool.false_ne_true, one_mul] at hneg
      linarith
    · exact hmsb
  · cases neg
    · exact hmsb
    · rw [if_pos rfl] at hpos
      linarith

/-- The word of a literal is its sign and the magnitude of its number rounded once: an integer is exact, and a quotient by
a power of ten is known to its sticky bit. -/
theorem decimal32_eq_pack32 (neg : Bool) (m : Nat) (e : Int) :
    ∃ g < 2 ^ 31, decimal32 neg m e = pack32 neg g ∧ binary32.NearestEven ((m : ℚ) * 10 ^ e) g := by
  unfold decimal32
  split
  · rename_i he
    obtain ⟨i, rfl⟩ := Int.eq_ofNat_of_zero_le he
    have hnum : (m : ℚ) * 10 ^ (i : ℤ) = ((m * 10 ^ i : Nat) : ℚ) * 2 ^ (0 : ℤ) := by push_cast; simp
    refine ⟨_, roundMag32_lt _ _, rfl, ?_⟩
    rw [hnum, Int.toNat_natCast]
    exact roundMag_nearestEven (by decide) (by decide) (.self _) (.inl rfl) 0
  · obtain ⟨i, rfl⟩ : ∃ i : Nat, e = -(i : ℤ) := ⟨(-e).toNat, by omega⟩
    obtain ⟨z, hz, hstands, hbits⟩ := stickyQuot_standsFor m (n := 10 ^ i) (by positivity)
    have hnum : (m : ℚ) * 10 ^ (-(i : ℤ)) = z * 2 ^ (stickyQuot m (10 ^ i)).2 := by
      rw [hz, zpow_neg, zpow_natCast, div_eq_mul_inv]
      push_cast
      rfl
    refine ⟨_, roundMag32_lt _ _, rfl, ?_⟩
    rw [hnum, neg_neg, Int.toNat_natCast]
    exact roundMag_nearestEven (by decide) (by decide) hstands
      (hbits.imp_right (le_trans (Nat.pow_le_pow_right two_pos (by decide)))) _

theorem decimal32_rounds (neg : Bool) (m : Nat) (e : Int) :
    Rounded32 ((if neg then -1 else 1) * ((m : ℚ) * 10 ^ e)) (decimal32 neg m e) ∧ (decimal32 neg m e).msb = neg := by
  obtain ⟨g, hg, hword, hnear⟩ := decimal32_eq_pack32 neg m e
  rw [hword]
  exact ⟨rounded32_of_magnitude (by positivity) neg hg hnear, pack32_msb neg hg⟩

/-! ### Sample rates -/

/-- A sample-rate operand that is no raw word is read as a decimal number (R45). -/
theorem rateOperand_decimal {ds : List Char} (h : ds.head? ≠ some 'w') :
    rateOperand ds = (number decDigit 10 ds).bind fun n => if n < 2 ^ 32 then some (BitVec.ofNat 32 n) else none := by
  unfold rateOperand
  split
  · exact absurd rfl h
  · cases number decDigit 10 ds <;> rfl

theorem decimal_head_ne {ds : List Char} {n : Nat} (h : number decDigit 10 ds = some n) : ds.head? ≠ some 'w' := by
  exact fun hw => absurd (decimal_range h 'w' (List.mem_of_head? hw)) (by decide)

theorem needRate_ok {ds : List Char} {n : Nat} (h : number decDigit 10 ds = some n) (hlt : n < 2 ^ 32) :
    needRate ds = .ok (BitVec.ofNat 32 n) := by
  rw [needRate, rateOperand_decimal (decimal_head_ne h), h, Option.bind_some, if_pos hlt]

theorem needRate_out_of_range {ds : List Char} {n : Nat} (h : number decDigit 10 ds = some n) (hge : 2 ^ 32 ≤ n) :
    needRate ds = .error .badRate := by
  rw [needRate, rateOperand_decimal (decimal_head_ne h), h, Option.bind_some, if_neg (Nat.not_lt.mpr hge)]

theorem needRate_no_integer {ds : List Char} (h : number decDigit 10 ds = none) (hw : ds.head? ≠ some 'w') :
    needRate ds = .error .badRate := by
  rw [needRate, rateOperand_decimal hw, h, Option.bind_none]

theorem needReal_ok {cs : List Char} {w : Word32} (h : realOperand cs = some w) : needReal cs = .ok w := by
  rw [needReal, h]

/-! ### Lines with a sample rate -/

/-- The words of SET_FS, whose unused argument words are 0 (R45). -/
theorem assembleWords_setFs (ds : List Char) :
    assembleWords "SET_FS".toList [ds] = (needRate ds).map fun r => .command ⟨0x3, r, 0, 0⟩ := by
  have h : assembleWords "SET_FS".toList [ds] = (do return .ofInstr (.setFs (← needRate ds))) := rfl
  rw [h]
  cases needRate ds <;> rfl

/-- The words of CONSTRUCT, with the first operand in error deciding. -/
theorem assembleWords_construct (f q ds : List Char) :
    assembleWords "CONSTRUCT".toList [f, q, ds] =
      (needReal f).bind fun fw => (needReal q).bind fun qw => (needRate ds).map fun r => .command ⟨0x1, fw, qw, r⟩ := by
  have h : assembleWords "CONSTRUCT".toList [f, q, ds] =
    (do return .ofInstr (.construct (← needReal f) (← needReal q) (← needRate ds))) := rfl
  rw [h]
  cases needReal f with
  | error => rfl
  | ok fw =>
    cases needReal q with
    | error => rfl
    | ok qw => cases needRate ds <;> rfl

/-- A rate in error makes its line one, whatever the other operands are. -/
theorem assembleWords_construct_badRate {ds : List Char} (h : needRate ds = .error .badRate) (f q : List Char) :
    ∃ err, assembleWords "CONSTRUCT".toList [f, q, ds] = .error err := by
  rw [assembleWords_construct, h]
  cases needReal f with
  | error err => exact ⟨err, rfl⟩
  | ok fw =>
    cases needReal q with
    | error err => exact ⟨err, rfl⟩
    | ok qw => exact ⟨.badRate, rfl⟩

/-- With readable operands before it, the rate decides. -/
theorem assembleWords_construct_rate {f q ds : List Char} {fw qw : Word32} (hf : realOperand f = some fw)
    (hq : realOperand q = some qw) : assembleWords "CONSTRUCT".toList [f, q, ds] =
      (needRate ds).map fun r => .command ⟨0x1, fw, qw, r⟩ := by
  rw [assembleWords_construct, needReal_ok hf, needReal_ok hq]
  rfl

/-- The words of a decimal rate: its integer below 2^32, and an error from there on (R45). -/
theorem assembleWords_rate {ds : List Char} {n : Nat} (h : number decDigit 10 ds = some n) :
    (n < 2 ^ 32 → assembleWords "SET_FS".toList [ds] = .ok (.command ⟨0x3, BitVec.ofNat 32 n, 0, 0⟩)) ∧
    (2 ^ 32 ≤ n → assembleWords "SET_FS".toList [ds] = .error .badRate) ∧
    ∀ (f q : List Char) (fw qw : Word32), realOperand f = some fw → realOperand q = some qw →
      (n < 2 ^ 32 →
        assembleWords "CONSTRUCT".toList [f, q, ds] = .ok (.command ⟨0x1, fw, qw, BitVec.ofNat 32 n⟩)) ∧
      (2 ^ 32 ≤ n → assembleWords "CONSTRUCT".toList [f, q, ds] = .error .badRate) := by
  refine ⟨fun hlt => ?_, fun hge => ?_, fun f q fw qw hf hq => ⟨fun hlt => ?_, fun hge => ?_⟩⟩
  · rw [assembleWords_setFs, needRate_ok h hlt]
    rfl
  · rw [assembleWords_setFs, needRate_out_of_range h hge]
    rfl
  · rw [assembleWords_construct_rate hf hq, needRate_ok h hlt]
    rfl
  · rw [assembleWords_construct_rate hf hq, needRate_out_of_range h hge]
    rfl

/-- The line of SET_FS and a decimal rate. -/
theorem assembleLine_setFs {ds : List Char} {n : Nat} (h : number decDigit 10 ds = some n) :
    assembleLine ("SET_FS".toList ++ ' ' :: ds) = assembleWords "SET_FS".toList [ds] :=
  assembleLine_one (by decide) (number_digits h).1 rate_mnemonics_plain.1 (decimal_plain h)

/-- The line of CONSTRUCT, two readable operands and a decimal rate. -/
theorem assembleLine_construct {f q ds : List Char} {fw qw : Word32} {n : Nat} (h : number decDigit 10 ds = some n)
    (hf : realOperand f = some fw) (hq : realOperand q = some qw) :
    assembleLine ("CONSTRUCT".toList ++ ' ' :: f ++ ',' :: ' ' :: q ++ ',' :: ' ' :: ds) =
      assembleWords "CONSTRUCT".toList [f, q, ds] :=
  assembleLine_three (by decide) (realOperand_ne_nil hf) (number_digits h).1 rate_mnemonics_plain.2
    (realOperand_plain hf) (realOperand_plain hq) (decimal_plain h)

/-- A line in error assembles to nothing (R45). -/
theorem assemble_error {line : List Char} {err : AsmError} (h : assembleLine line = .error err)
    (before after : List (List Char)) : assemble (before ++ line :: after) = assemble before ++ assemble after := by
  simp [assemble, h]

/-- Settles O6, clause by clause: how digits, a dot, an exponent and a sign are read, the one rounding
(`decimal32_rounds`), the words of a line with a sample rate (`assembleWords_rate`), and the lines themselves. -/
theorem decimalLiteralRoundsOnce : Obligations.DecimalLiteralRoundsOnce := by
  refine ⟨fun _ => number_digitChar, fun ds n d hd hn => ?digit, fun _ _ => mantissa_digits,
    fun _ _ _ _ => mantissa_dot, fun cs m e h => ?literal, decimal32_rounds, by decide,
    fun _ _ => assembleWords_rate, fun ds hn hw => ?noInteger, fun ds n h => ?line, assembleLine_comment,
    fun before after _ _ h => assemble_error h before after⟩
  case digit => simpa [Nat.mul_comm] using number_append hn (number_digitChar hd)
  case literal =>
    obtain ⟨plus, minus⟩ := realOperand_literal h
    refine ⟨plus, minus, fun ds x hx => ?_⟩
    obtain ⟨up, up'⟩ := realOperand_exponent h (exponent_digits hx)
    obtain ⟨down, down'⟩ := realOperand_exponent h (exponent_minus hx)
    exact ⟨up, up', down, down'⟩
  case noInteger =>
    have herr := needRate_no_integer hn hw
    exact ⟨by rw [assembleWords_setFs, herr]; rfl, assembleWords_construct_badRate herr⟩
  case line =>
    obtain ⟨-, setFs_error, construct⟩ := assembleWords_rate h
    refine ⟨assembleLine_setFs h, fun hge => (assembleLine_setFs h).trans (setFs_error hge), fun f q fw qw hf hq => ?_⟩
    have line := assembleLine_construct h hf hq
    exact ⟨line, fun hge => line.trans ((construct f q fw qw hf hq).2 hge)⟩

end Sys2Proof.Machine
end

section
/-! PROOFS. The commands as a family: a commit is one equation in the parameter triple a command leaves, and
idempotence, independence of history and the frame of the parameters are read off it (R51, R56, R58 to R60). -/

namespace Sys2Proof

/-! ### The parameter triple a command leaves -/

/-- FREQ after a command, from FREQ before it. -/
def Instr.newFreq : Instr → Word32 → Word32
  | .construct f _ _, _ => f
  | .setFreq f, _ => f
  | _, f => f

/-- QF after a command, from QF before it. -/
def Instr.newQf : Instr → Word32 → Word32
  | .construct _ q _, _ => q
  | .setQ q, _ => q
  | _, q => q

/-- FS after a command, from FS before it. -/
def Instr.newFs : Instr → Word32 → Word32
  | .construct _ _ r, _ => r
  | .setFs r, _ => r
  | _, r => r

@[simp] theorem Instr.newFreq_newFreq (i : Instr) (f : Word32) : i.newFreq (i.newFreq f) = i.newFreq f := by
  cases i <;> rfl

@[simp] theorem Instr.newQf_newQf (i : Instr) (q : Word32) : i.newQf (i.newQf q) = i.newQf q := by
  cases i <;> rfl

@[simp] theorem Instr.newFs_newFs (i : Instr) (r : Word32) : i.newFs (i.newFs r) = i.newFs r := by
  cases i <;> rfl

/-- Every command but CONSTRUCT keeps two of the three parameters. -/
theorem Instr.two_parameters_kept {i : Instr} (h : ∀ f q r, i ≠ .construct f q r) (f q r : Word32) :
    (i.newFreq f = f ∧ i.newQf q = q) ∨ (i.newFreq f = f ∧ i.newFs r = r) ∨
      (i.newQf q = q ∧ i.newFs r = r) := by
  cases i with
  | construct f' q' r' => exact absurd rfl (h f' q' r')
  | setFreq f' => exact .inr (.inr ⟨rfl, rfl⟩)
  | setQ q' => exact .inr (.inl ⟨rfl, rfl⟩)
  | _ => exact .inl ⟨rfl, rfl⟩

end Sys2Proof

namespace Sys2Proof.Machine

open Sys2Proof

/-! ### A commit as one equation -/

/-- The commit of every command: a reserved one raises Illegal, any other installs the triple it leaves. -/
theorem exec_eq (i : Instr) (s : State) : exec i s = .next (if i.reserved then raiseIllegal i.opcode s else
    commitOk i.opcode (i.newFreq s.freq) (i.newQf s.qf) (i.newFs s.fs) s) := by
  cases i <;> rfl

theorem exec_of_reserved {i : Instr} (h : i.reserved = true) (s : State) :
    exec i s = .next (raiseIllegal i.opcode s) := by
  simp [exec_eq, h]

theorem exec_of_not_reserved {i : Instr} (h : i.reserved = false) (s : State) :
    exec i s = .next (commitOk i.opcode (i.newFreq s.freq) (i.newQf s.qf) (i.newFs s.fs) s) := by
  simp [exec_eq, h]

/-- Of two commits in a row the second decides. -/
@[simp] theorem commitOk_commitOk (op op' : Opcode) (f q r f' q' r' : Word32) (s : State) :
    commitOk op f q r (commitOk op' f' q' r' s) = commitOk op f q r s := rfl

@[simp] theorem raiseIllegal_raiseIllegal (op op' : Opcode) (s : State) :
    raiseIllegal op (raiseIllegal op' s) = raiseIllegal op s := rfl

/-- The opcode of a commit is in the response alone. -/
theorem commitOk_with_rsp (op op' : Opcode) (f q r : Word32) (s : State) :
    { commitOk op f q r s with rsp := some ⟨.ok, op'⟩ } = commitOk op' f q r s := rfl

/-- Settles O16: the triple a command leaves it leaves again (`Instr.newFreq_newFreq`, `Instr.newQf_newQf`,
`Instr.newFs_newFs`), and a commit reads nothing of the response and the coefficients a commit before it wrote. -/
theorem repeatedCommandIsIdempotent : Obligations.RepeatedCommandIsIdempotent := by
  intro i s t h
  cases hr : i.reserved with
  | true =>
    rw [exec_of_reserved hr] at h
    cases h
    simp [exec_of_reserved hr]
  | false =>
    rw [exec_of_not_reserved hr] at h
    cases h
    simp [exec_of_not_reserved hr]

/-- Settles O19: a commit's triple, coefficients, response and pulse are functions of the command and of the triple
before it (`exec_of_not_reserved`). -/
theorem resultsDependOnParametersAlone : Obligations.ResultsDependOnParametersAlone := by
  intro i s s' hi hf hq hr
  refine ⟨_, _, exec_of_not_reserved hi s, exec_of_not_reserved hi s', ?_⟩
  simp [hf, hq, hr]

/-- Settles O15: a reserved command writes no register, any other commits the triple it leaves, of which
`Instr.two_parameters_kept` says what changed; the two orders of SET_FREQ and SET_FS are computed. -/
theorem onlyConstructChangesTwoParameters : Obligations.OnlyConstructChangesTwoParameters := by
  refine ⟨fun i s t hi h => ?frame, fun f2 s2 s => ⟨_, _, _, _, _, rfl, rfl, rfl, rfl, rfl, rfl, rfl, rfl, rfl⟩⟩
  cases hr : i.reserved with
  | true =>
    rw [exec_of_reserved hr] at h
    cases h
    exact ⟨.inl ⟨rfl, rfl⟩, rfl, .inl rfl⟩
  | false =>
    rw [exec_of_not_reserved hr] at h
    cases h
    exact ⟨Instr.two_parameters_kept hi s.freq s.qf s.fs, rfl, .inr rfl⟩

/-- Settles O17: each setter commits the triple CALC commits, and `commitOk_with_rsp` changes the echoed opcode. -/
theorem setterOfHeldValueIsCalc : Obligations.SetterOfHeldValueIsCalc := by
  intro s
  have echo (op : Opcode) := congrArg (Host.Outcome.next (φ := Fault) (ρ := Refusal))
    (commitOk_with_rsp 0x5 op s.freq s.qf s.fs s).symm
  exact ⟨_, rfl, echo 0x2, echo 0x3, echo 0x4⟩

/-! ### The pending command -/

/-- A table word that decodes, decodes to the command in the fields of its beat. -/
theorem decodeCommand_of_decodeTableWord {nbits w : Nat} {i : Instr} (h : decodeTableWord nbits w = some i) :
    decodeCommand (.ofBeat (BitVec.ofNat 100 (w % 2 ^ nbits))) = i := by
  unfold decodeTableWord decode at h
  split at h
  · exact Option.some.inj h
  · cases h

/-- A loaded command runs in the next step, on the state it was loaded into without the old pulses. -/
theorem step_loadPending (c : Command) (s : State) :
    step (loadPending c s) = exec (decodeCommand c) { s with rsp := none, coefUpdate := false } :=
  (step_commit (action_of_cons (loadPending_schedule c s)) rfl rfl).trans (exec_congr _ rfl rfl rfl rfl rfl)

/-- Settles O20: `step_commit`, and `step_loadPending` for a table word's command. -/
theorem stepRunsThePendingCommand : Obligations.StepRunsThePendingCommand :=
  ⟨fun _ _ ha hb hp => step_commit ha hb hp, fun s _ _ _ h =>
    decodeCommand_of_decodeTableWord h ▸ step_loadPending _ s⟩

end Sys2Proof.Machine
end

section
/-! Rounding once, read back as numbers: a rounded word is finite exactly below the overflow threshold, rounding never
passes a number of the format, and it changes no number that has one (R4, R90). -/

namespace Sys2Proof.Machine

open Sys2Proof

/-! ### Finite words and their magnitude bits -/

theorem mag_lt (w : Word64) : w.toNat % 2 ^ 63 < 2 ^ 63 := Nat.mod_lt _ (by decide)

theorem isNonFinite64_eq (w : Word64) : isNonFinite64 w = !(b64 w).isFin := by
  rw [Bool.eq_iff_iff, isNonFinite64_iff]
  cases b64 w <;> simp [Value.isFin]

/-- A word is finite exactly when its magnitude bits are below those of infinity. -/
theorem isFin_iff_mag_lt (w : Word64) : (b64 w).isFin = true ↔ w.toNat % 2 ^ 63 < binary64.infMag := by
  have hmag := mag_lt w
  have hinf : binary64.infMag = 2047 * 2 ^ 52 := rfl
  have hfield : (b64 w).isFin = true ↔ (w.extractLsb' 52 11).toNat ≠ 2047 := by
    rw [← Bool.not_eq_false', ← isNonFinite64_eq, isNonFinite64, beq_eq_false_iff_ne, ne_eq, ← BitVec.toNat_inj]
    rfl
  rw [hfield, expField_toNat]
  omega

/-- A sign does not change the size. -/
theorem abs_sign_mul (s : Bool) (a : ℚ) : |(if s then -1 else 1) * a| = |a| := by
  cases s <;> simp

theorem abs_toRat_fin (s : Bool) (m : Nat) (e : Int) : |(Value.fin s m e).toRat| = m * 2 ^ e := by
  rw [Value.toRat, abs_sign_mul, abs_of_nonneg (by positivity)]

/-- The size of a value does not depend on its sign. -/
theorem abs_toRat_value (f : Format) (neg : Bool) (expField frac : Nat) :
    |(f.value neg expField frac).toRat| = (f.value false expField frac).toRat := by
  unfold Format.value
  split
  · split <;> simp [Value.toRat]
  · split <;> rw [abs_toRat_fin] <;> simp [Value.toRat]

/-- The size of a finite word's number is the number of its magnitude bits. -/
theorem abs_num64 {w : Word64} (hw : (b64 w).isFin = true) :
    |num64 w| = binary64.unboundedNum (w.toNat % 2 ^ 63) := by
  rw [← magNum_eq_unboundedNum binary64 ((isFin_iff_mag_lt w).mp hw), num64, b64, expField_toNat, frac_toNat,
    abs_toRat_value]
  rfl

/-- A word's number has its sign bit's sign. -/
theorem num64_eq_sign_mul_abs (w : Word64) : num64 w = (if w.msb then -1 else 1) * |num64 w| := by
  cases hw : b64 w with
  | nan => simp [num64, hw, Value.toRat]
  | inf s => simp [num64, hw, Value.toRat]
  | fin s m e =>
    rw [msb_of_fin hw, num64_of_fin hw]
    cases s <;> simp [abs_of_nonneg]

/-- A nonzero number's sign is its word's sign bit. -/
theorem msb_eq_decide_neg {w : Word64} (h0 : num64 w ≠ 0) : w.msb = decide (num64 w < 0) := by
  have hsign := num64_eq_sign_mul_abs w
  have hpos : 0 < |num64 w| := abs_pos.mpr h0
  cases hmsb : w.msb with
  | true =>
    rw [hmsb, if_pos rfl] at hsign
    exact (decide_eq_true (by linarith)).symm
  | false =>
    rw [hmsb, if_neg Bool.false_ne_true] at hsign
    exact (decide_eq_false (by linarith)).symm

theorem overflow_bounds : binary64.unboundedNum (binary64.infMag - 1) < binary64.overflow ∧
    binary64.overflow < binary64.unboundedNum binary64.infMag := by
  have hmid := overflow_midpoint (f := binary64) (by decide) (by decide)
  have hgap := unboundedNum_strictMono binary64 (show binary64.infMag - 1 < binary64.infMag by decide)
  constructor <;> linarith

theorem abs_num64_lt_overflow {w : Word64} (hw : (b64 w).isFin = true) : |num64 w| < binary64.overflow := by
  have hlt := (isFin_iff_mag_lt w).mp hw
  rw [abs_num64 hw]
  exact lt_of_le_of_lt ((unboundedNum_strictMono binary64).monotone (by omega)) overflow_bounds.1

/-- Finite words of one nonzero number are one word. -/
theorem eq_of_num64_eq {x y : Word64} (hx : (b64 x).isFin = true) (hy : (b64 y).isFin = true)
    (h : num64 x = num64 y) (h0 : num64 x ≠ 0) : x = y := by
  have hmag : x.toNat % 2 ^ 63 = y.toNat % 2 ^ 63 := by
    apply (unboundedNum_strictMono binary64).injective
    rw [← abs_num64 hx, ← abs_num64 hy, h]
  have hsign : x.msb = y.msb := by rw [msb_eq_decide_neg h0, msb_eq_decide_neg (h ▸ h0), h]
  rw [← pack64_self x, ← pack64_self y, hmag, hsign]

/-- A finite word of the number 0 is the zero of its sign. -/
theorem eq_zero64_of_num64_eq_zero {x : Word64} (hx : (b64 x).isFin = true) (h : num64 x = 0) : x = zero64 x.msb := by
  have hmag : x.toNat % 2 ^ 63 = 0 := by
    apply (unboundedNum_strictMono binary64).injective
    rw [← abs_num64 hx, h]
    simp [Format.unboundedNum]
  rw [zero64, ← hmag, pack64_self]

/-- A zero is a finite word of the number 0. -/
theorem isZero_iff (w : Word64) : (b64 w).isZero = true ↔ (b64 w).isFin = true ∧ num64 w = 0 := by
  cases hw : b64 w with
  | nan => simp [Value.isZero, Value.isFin]
  | inf s => simp [Value.isZero, Value.isFin]
  | fin s m e => cases s <;> simp [num64_of_fin hw, Value.isZero, Value.isFin, zpow_ne_zero]

/-! ### What a rounded word can be -/

/-- Rounding gives a finite word exactly below the overflow threshold. -/
theorem Rounded64.isFin_iff {x : ℚ} {w : Word64} (h : Rounded64 x w) :
    (b64 w).isFin = true ↔ |x| < binary64.overflow := by
  obtain ⟨near, -, -⟩ := h
  rw [isFin_iff_mag_lt]
  unfold Format.NearestEven at near
  split at near
  · rename_i hover
    exact ⟨fun hlt => absurd near hlt.ne, fun hlt => absurd hover (not_le.mpr hlt)⟩
  · rename_i hover
    exact ⟨fun _ => not_le.mp hover, fun _ => near.1⟩

/-- No finite word is nearer than the rounded one. -/
theorem Rounded64.nearest {x : ℚ} {w y : Word64} (h : Rounded64 x w) (hw : (b64 w).isFin = true)
    (hy : (b64 y).isFin = true) : |(|num64 w| - |x|)| ≤ |(|num64 y| - |x|)| := by
  have hover := h.isFin_iff.mp hw
  obtain ⟨near, -, -⟩ := h
  rw [Format.NearestEven, if_neg (not_le.mpr hover)] at near
  have hwmag := (isFin_iff_mag_lt w).mp hw
  have hymag := (isFin_iff_mag_lt y).mp hy
  have := (near.2 _ hymag).1
  rwa [magNum_eq_unboundedNum _ hwmag, magNum_eq_unboundedNum _ hymag, ← abs_num64 hw, ← abs_num64 hy] at this

/-- Rounding never passes a number of the format from below, and does not overflow below one. -/
theorem Rounded64.abs_le {x : ℚ} {w y : Word64} (h : Rounded64 x w) (hy : (b64 y).isFin = true)
    (hle : |x| ≤ |num64 y|) : (b64 w).isFin = true ∧ |num64 w| ≤ |num64 y| := by
  have hw : (b64 w).isFin = true := h.isFin_iff.mpr (lt_of_le_of_lt hle (abs_num64_lt_overflow hy))
  refine ⟨hw, not_lt.mp fun hlt => ?_⟩
  have near := h.nearest hw hy
  rw [abs_of_nonneg (sub_nonneg.mpr (hle.trans hlt.le)), abs_of_nonneg (sub_nonneg.mpr hle)] at near
  exact absurd (sub_le_sub_iff_right _ |>.mp near) (not_le.mpr hlt)

/-- Rounding never passes a number of the format from above. -/
theorem Rounded64.le_abs {x : ℚ} {w y : Word64} (h : Rounded64 x w) (hw : (b64 w).isFin = true)
    (hy : (b64 y).isFin = true) (hle : |num64 y| ≤ |x|) : |num64 y| ≤ |num64 w| := by
  refine not_lt.mp fun hlt => ?_
  have near := h.nearest hw hy
  rw [abs_of_nonpos (sub_nonpos.mpr (hlt.le.trans hle)), abs_of_nonpos (sub_nonpos.mpr hle), neg_sub, neg_sub] at near
  exact absurd (sub_le_sub_iff_left _ |>.mp near) (not_le.mpr hlt)

/-! ### Exact results -/

/-- A number of at most 53 significant bits at a place the format has: a number of the format, but for overflow. -/
def Dyadic64 (x : ℚ) : Prop := ∃ (n e : ℤ), |n| < 2 ^ 53 ∧ -1074 ≤ e ∧ x = n * 2 ^ e

theorem dyadic64_int {n : ℤ} (h : |n| < 2 ^ 53) : Dyadic64 n := ⟨n, 0, h, by decide, by simp⟩

@[simp] theorem abs_signed (s : Bool) (m : Nat) : |signed s m| = m := by
  cases s <;> simp [signed]

theorem dyadic64_signed (s : Bool) {m : Nat} {e : Int} (hm : m < 2 ^ 53) (he : -1074 ≤ e) :
    Dyadic64 ((if s then -1 else 1) * (m * 2 ^ e)) :=
  ⟨signed s m, e, by rw [abs_signed]; exact_mod_cast hm, he, by rw [signed_cast, mul_assoc]⟩

/-- Scaling up by a power of two keeps the significant bits. -/
theorem Dyadic64.mul_two_pow {x : ℚ} (h : Dyadic64 x) (k : Nat) : Dyadic64 (2 ^ k * x) := by
  obtain ⟨n, e, hn, he, rfl⟩ := h
  refine ⟨n, k + e, hn, by omega, ?_⟩
  rw [zpow_add₀ two_ne_zero, zpow_natCast]
  ring

/-- The significand of a finite word has at most 53 bits, and its exponent is that of a place of the format. -/
theorem b64_fin_bounds {w : Word64} {s : Bool} {m : Nat} {e : Int} (h : b64 w = .fin s m e) :
    m < 2 ^ 53 ∧ -1074 ≤ e := by
  have hmin : binary64.minExp = -1074 := rfl
  have hlead : 2 ^ (binary64.prec - 1) = 2 ^ 52 := rfl
  have hfrac := (w.extractLsb' 0 52).isLt
  unfold b64 Format.value at h
  split at h
  · split at h <;> cases h
  · split at h <;> cases h <;> omega

theorem dyadic64_num64 (w : Word64) : Dyadic64 (num64 w) := by
  cases hw : b64 w with
  | nan => simpa [num64, hw, Value.toRat] using dyadic64_int (n := 0) (by decide)
  | inf s => simpa [num64, hw, Value.toRat] using dyadic64_int (n := 0) (by decide)
  | fin s m e =>
    obtain ⟨hm, he⟩ := b64_fin_bounds hw
    exact num64_of_fin hw ▸ dyadic64_signed s hm he

/-- Magnitude bits of a number with at most `prec` significant bits: shift the significand up to the leading bit or to
the lowest place. -/
theorem exists_mag_of_significand (f : Format) (k : Nat) {m : Nat} (hm : m < 2 * 2 ^ (f.prec - 1)) :
    ∃ g, f.unboundedNum g = m * 2 ^ (f.minExp + k) := by
  induction k generalizing m with
  | zero => exact ⟨_, unboundedNum_place f (k := 0) hm.le (.inl rfl)⟩
  | succ k ih =>
    by_cases hlead : 2 ^ (f.prec - 1) ≤ m
    · exact ⟨_, unboundedNum_place f hm.le (.inr hlead)⟩
    · obtain ⟨g, hg⟩ := ih (m := 2 * m) (by omega)
      refine ⟨g, hg.trans ?_⟩
      rw [Nat.cast_add, ← add_assoc, Nat.cast_one, zpow_add_one₀ two_ne_zero]
      push_cast
      ring

/-- Below the overflow threshold a dyadic number is that of a word. -/
theorem Dyadic64.exists_word {x : ℚ} (hx : Dyadic64 x) (hlt : |x| < binary64.overflow) :
    ∃ y : Word64, (b64 y).isFin = true ∧ |num64 y| = |x| := by
  obtain ⟨n, e, hn, he, rfl⟩ := hx
  obtain ⟨k, rfl⟩ : ∃ k : Nat, e = binary64.minExp + k := ⟨(e + 1074).toNat, by
    have hmin : binary64.minExp = -1074 := rfl
    omega⟩
  obtain ⟨g, hg⟩ := exists_mag_of_significand binary64 k (m := n.natAbs)
    (by rw [Int.abs_eq_natAbs] at hn; change n.natAbs < 2 * 2 ^ 52; omega)
  have habs : binary64.unboundedNum g = |(n : ℚ) * 2 ^ (binary64.minExp + k)| := by
    rw [hg, abs_mul, abs_of_pos (zpow_pos (zero_lt_two' ℚ) _), Nat.cast_natAbs, Int.cast_abs]
  have hfin : g < binary64.infMag :=
    (unboundedNum_strictMono binary64).lt_iff_lt.mp (by linarith [overflow_bounds.2])
  have hg63 : g < 2 ^ 63 := lt_trans hfin (by decide)
  have hy : (b64 (pack64 false g)).isFin = true := by
    rwa [isFin_iff_mag_lt, pack64_mag false hg63]
  exact ⟨pack64 false g, hy, by rw [abs_num64 hy, pack64_mag false hg63, habs]⟩

/-- Rounding is exact on a number of the format. -/
theorem Rounded64.exact {x : ℚ} {w : Word64} (h : Rounded64 x w) (hx : Dyadic64 x) (hw : (b64 w).isFin = true) :
    num64 w = x := by
  obtain ⟨y, hy, hyx⟩ := hx.exists_word (h.isFin_iff.mp hw)
  have hmag : |num64 w| = |x| := le_antisymm (hyx ▸ (h.abs_le hy hyx.ge).2) (hyx ▸ h.le_abs hw hy hyx.le)
  obtain ⟨-, hneg, hpos⟩ := h
  rw [num64_eq_sign_mul_abs, hmag]
  rcases lt_trichotomy x 0 with hx | rfl | hx
  · simp [hneg hx, abs_of_neg hx]
  · simp
  · simp [hpos hx, abs_of_pos hx]

/-- The powers of two up to the largest of the format are below the overflow threshold. -/
theorem two_pow_lt_overflow {k : Nat} (hk : k ≤ 1023) : (2 : ℚ) ^ k < binary64.overflow := by
  calc (2 : ℚ) ^ k ≤ 2 ^ 1023 := pow_le_pow_right₀ one_le_two hk
    _ = 2 ^ 52 * 2 ^ 971 := (pow_add 2 52 971)
    _ < (2 ^ 53 - 1 / 2) * 2 ^ 971 := mul_lt_mul_of_pos_right (by norm_num) (by positivity)
    _ = binary64.overflow := rfl

/-- The word of an integer of the format is exact (R69). -/
theorem int64_exact {k : ℤ} (hk : Dyadic64 k) (hlt : |(k : ℚ)| < binary64.overflow) :
    (b64 (int64 k)).isFin = true ∧ num64 (int64 k) = k := by
  have hround : Rounded64 k (int64 k) := rounded64_round64 (by rw [zpow_zero, mul_one, sign_mul_natAbs])
  have hfin := hround.isFin_iff.mpr hlt
  exact ⟨hfin, hround.exact hk hfin⟩

end Sys2Proof.Machine
end

section
/-! The normalized frequency: the operands widen exactly, and the quotient is rounded once, with no overflow and no
subnormal result (R66, R67). -/

namespace Sys2Proof.Machine

open Sys2Proof

/-! ### The operands are exact -/

/-- A value's sign is the sign field it was built from. -/
theorem value_neg (f : Format) (neg : Bool) (expField frac : Nat) (h : f.value neg expField frac ≠ .nan) :
    (f.value neg expField frac).neg = neg := by
  revert h
  unfold Format.value
  split_ifs <;> simp [Value.neg]

/-- A binary32 value's sign is its word's sign bit. -/
theorem b32_neg {f : Word32} (h : b32 f ≠ .nan) : (b32 f).neg = f.msb := value_neg _ _ _ _ h

theorem to64_msb {v : Value} (h : v ≠ .nan) : v.to64.msb = v.neg := by
  cases v with
  | nan => exact absurd rfl h
  | inf s => exact msb_inf64 s
  | fin s m e => exact msb_round64 s m e

theorem freqValue_msb {f : Word32} (h : b32 f ≠ .nan) : (freqValue f).msb = f.msb :=
  (to64_msb h).trans (b32_neg h)

theorem fsValue_msb (r : Word32) : (fsValue r).msb = false := msb_round64 _ _ _

/-- A binary32 number has at most 24 significant bits and is below 2^128. -/
theorem b32_fin_bounds {f : Word32} {s : Bool} {m : Nat} {e : Int} (h : b32 f = .fin s m e) :
    m < 2 ^ 24 ∧ -149 ≤ e ∧ e ≤ 104 := by
  have hmin : binary32.minExp = -149 := rfl
  have hlead : 2 ^ (binary32.prec - 1) = 2 ^ 23 := rfl
  have hones : binary32.expOnes = 255 := rfl
  have hfield := (f.extractLsb' 23 8).isLt
  have hfrac := (f.extractLsb' 0 23).isLt
  unfold b32 Format.value at h
  split at h
  · split at h <;> cases h
  · split at h <;> cases h <;> omega

theorem abs_num32 {f : Word32} {s : Bool} {m : Nat} {e : Int} (h : b32 f = .fin s m e) :
    |num32 f| = m * 2 ^ e := by
  rw [num32, h, abs_toRat_fin]

theorem abs_num32_lt {f : Word32} (h : (b32 f).isFin = true) : |num32 f| < 2 ^ 128 := by
  obtain ⟨s, m, e, hf⟩ := isFin_iff.mp h
  obtain ⟨hm, -, he⟩ := b32_fin_bounds hf
  rw [abs_num32 hf]
  have hm' : (m : ℚ) < 2 ^ 24 := by exact_mod_cast hm
  calc (m : ℚ) * 2 ^ e < 2 ^ 24 * 2 ^ e := mul_lt_mul_of_pos_right hm' (by positivity)
    _ ≤ 2 ^ 24 * 2 ^ (104 : ℤ) := mul_le_mul_of_nonneg_left (zpow_le_zpow_right₀ one_le_two he) (by positivity)
    _ = 2 ^ 128 := by norm_num

/-- The smallest subnormal of binary32 bounds its nonzero numbers. -/
theorem le_abs_num32 {f : Word32} (h : (b32 f).isFin = true) (h0 : (b32 f).isZero = false) :
    2 ^ (-149 : ℤ) ≤ |num32 f| := by
  obtain ⟨s, m, e, hf⟩ := isFin_iff.mp h
  obtain ⟨-, he, -⟩ := b32_fin_bounds hf
  have hm : (1 : ℚ) ≤ m := by
    simp only [hf, Value.isZero, beq_eq_false_iff_ne] at h0
    exact_mod_cast Nat.one_le_iff_ne_zero.mpr h0
  rw [abs_num32 hf]
  calc (2 : ℚ) ^ (-149 : ℤ) ≤ 2 ^ e := zpow_le_zpow_right₀ one_le_two he
    _ ≤ m * 2 ^ e := le_mul_of_one_le_left (by positivity) hm

/-- A binary32 number is a binary64 number (R66). -/
theorem freqValue_exact {f : Word32} (h : (b32 f).isFin = true) :
    (b64 (freqValue f)).isFin = true ∧ num64 (freqValue f) = num32 f := by
  have hlt := abs_num32_lt h
  obtain ⟨s, m, e, hf⟩ := isFin_iff.mp h
  obtain ⟨hm, he, -⟩ := b32_fin_bounds hf
  have hnum : num32 f = (if s then -1 else 1) * ((m : ℚ) * 2 ^ e) := by rw [num32, hf, Value.toRat]
  have hround : Rounded64 (num32 f) (freqValue f) := by
    rw [freqValue, w64, hf]
    exact rounded64_round64 hnum
  have hfin := hround.isFin_iff.mpr (hlt.trans (two_pow_lt_overflow (by decide)))
  exact ⟨hfin, hround.exact (hnum ▸ dyadic64_signed s (hm.trans (by decide)) (by omega)) hfin⟩

/-- An integer below 2^32 is a binary64 number (R66). -/
theorem fsValue_exact (r : Word32) : (b64 (fsValue r)).isFin = true ∧ num64 (fsValue r) = r.toNat := by
  have hr := r.isLt
  have hround : Rounded64 r.toNat (fsValue r) := rounded64_round64 (by simp)
  have hlt : |(r.toNat : ℚ)| < binary64.overflow := by
    have : (r.toNat : ℚ) < 2 ^ 32 := by exact_mod_cast hr
    rw [Nat.abs_cast]
    exact this.trans (two_pow_lt_overflow (by decide))
  have hfin := hround.isFin_iff.mpr hlt
  exact ⟨hfin, hround.exact (dyadic64_int (n := r.toNat) (by rw [Nat.abs_cast]; omega)) hfin⟩

theorem fsValue_zero : fsValue 0 = zero64 false := by simp [fsValue, u2f64]

theorem one_le_rate {r : Word32} (h : r ≠ 0) : (1 : ℚ) ≤ r.toNat := by
  have : r.toNat ≠ 0 := fun h0 => h (BitVec.eq_of_toNat_eq h0)
  exact_mod_cast Nat.one_le_iff_ne_zero.mpr this

/-! ### Quotients with special operands -/

theorem div64_zero_left {s : Bool} {y : Word64} (hy : (b64 y).isFin = true) (h0 : num64 y ≠ 0) :
    div64 (zero64 s) y = zero64 (s != y.msb) := by
  obtain ⟨t, n, g, hn⟩ := isFin_iff.mp hy
  have hn0 : n ≠ 0 := fun h => h0 (by simp [num64_of_fin hn, h])
  simp [div64, hn, hn0, msb_of_fin hn, stickyQuot]

theorem div64_inf_left (s : Bool) {y : Word64} (hy : (b64 y).isFin = true) :
    div64 (inf64 s) y = inf64 (s != y.msb) := by
  obtain ⟨t, n, g, hn⟩ := isFin_iff.mp hy
  rw [div64, b64_inf64, hn, msb_of_fin hn]

theorem div64_zero_right {x : Word64} (hx : (b64 x).isFin = true) (h0 : num64 x ≠ 0) (t : Bool) :
    div64 x (zero64 t) = inf64 (x.msb != t) := by
  obtain ⟨s, m, e, hm⟩ := isFin_iff.mp hx
  have hm0 : m ≠ 0 := fun h => h0 (by simp [num64_of_fin hm, h])
  simp [div64, hm, hm0, msb_of_fin hm]

theorem div64_zero_zero (s t : Bool) : div64 (zero64 s) (zero64 t) = nan64 := by simp [div64]

/-! ### The quotient -/

theorem freqValue_zero {f : Word32} (h : (b32 f).isZero = true) : freqValue f = zero64 f.msb := by
  cases hf : b32 f with
  | nan => simp [hf, Value.isZero] at h
  | inf s => simp [hf, Value.isZero] at h
  | fin s m e =>
    have hm : m = 0 := by simpa [hf, Value.isZero] using h
    have hs : s = f.msb := by rw [← b32_neg (by simp [hf]), hf, Value.neg]
    rw [freqValue, w64, hf, Value.to64, hm, round64_zero, hs]

theorem freqValue_inf {f : Word32} {s : Bool} (h : b32 f = .inf s) : freqValue f = inf64 s := by
  rw [freqValue, w64, h, Value.to64]

theorem freqValue_nan {f : Word32} (h : b32 f = .nan) : freqValue f = nan64 := by
  rw [freqValue, w64, h, Value.to64]

theorem num32_ne_zero {f : Word32} (h : (b32 f).isFin = true) (h0 : (b32 f).isZero = false) : num32 f ≠ 0 :=
  abs_pos.mp (lt_of_lt_of_le (by positivity) (le_abs_num32 h h0))

theorem turns_rounded {f r : Word32} (hr : r ≠ 0) (hf : (b32 f).isFin = true) :
    Rounded64 (num32 f / r.toNat) (turns (freqValue f) (fsValue r)) := by
  obtain ⟨hF, hFnum⟩ := freqValue_exact hf
  obtain ⟨hS, hSnum⟩ := fsValue_exact r
  rw [← hFnum, ← hSnum]
  exact rounded64_div64 hF hS (by rw [hSnum]; linarith [one_le_rate hr])

/-- Dividing by a sample rate of at least 1 does not pass F, a number of the format. -/
theorem turns_finite {f r : Word32} (hr : r ≠ 0) (hf : (b32 f).isFin = true) :
    (b64 (turns (freqValue f) (fsValue r))).isFin = true ∧ |num64 (turns (freqValue f) (fsValue r))| < 2 ^ 128 := by
  obtain ⟨hF, hFnum⟩ := freqValue_exact hf
  have hrate := one_le_rate hr
  have hle : |num32 f / r.toNat| ≤ |num64 (freqValue f)| := by
    rw [hFnum, abs_div, Nat.abs_cast]
    exact div_le_self (abs_nonneg _) hrate
  obtain ⟨hfin, hbound⟩ := (turns_rounded hr hf).abs_le hF hle
  exact ⟨hfin, lt_of_le_of_lt hbound (hFnum ▸ abs_num32_lt hf)⟩

/-- The smallest normal number. -/
def minNormal64 : Word64 := 0x0010000000000000

theorem abs_num64_minNormal64 : |num64 minNormal64| = 2 ^ (-1022 : ℤ) := by
  have h : b64 minNormal64 = .fin false (2 ^ 52) (-1074) := by decide
  have hsplit : (2 : ℚ) ^ (-1022 : ℤ) = 2 ^ 52 * 2 ^ (-1074 : ℤ) := by
    rw [← zpow_natCast, ← zpow_add₀ two_ne_zero]
    rfl
  rw [num64_of_fin h, hsplit, if_neg Bool.false_ne_true, one_mul, abs_of_nonneg (by positivity), Nat.cast_pow,
    Nat.cast_ofNat]

/-- A word of at least the smallest normal number has a nonzero exponent field. -/
theorem expField_ne_zero_of_le {w : Word64} (hw : (b64 w).isFin = true) (h : |num64 minNormal64| ≤ |num64 w|) :
    w.extractLsb' 52 11 ≠ 0#11 := by
  intro h0
  rw [abs_num64 hw, abs_num64 (by decide), (unboundedNum_strictMono binary64).le_iff_le] at h
  have hmag : minNormal64.toNat % 2 ^ 63 = 2 ^ 52 := by decide
  have hfield : w.toNat % 2 ^ 63 / 2 ^ 52 = 0 := by
    rw [← expField_toNat, h0]
    rfl
  omega

theorem turns_normal {f r : Word32} (hr : r ≠ 0) (hf : (b32 f).isFin = true) (h0 : (b32 f).isZero = false) :
    (turns (freqValue f) (fsValue r)).extractLsb' 52 11 ≠ 0#11 := by
  have hfin := (turns_finite hr hf).1
  refine expField_ne_zero_of_le hfin ((turns_rounded hr hf).le_abs hfin (by decide) ?_)
  have hrate := one_le_rate hr
  have hrate32 : (r.toNat : ℚ) ≤ 2 ^ (32 : ℤ) := by exact_mod_cast r.isLt.le
  rw [abs_num64_minNormal64, abs_div, Nat.abs_cast, le_div_iff₀ (by linarith)]
  calc (2 : ℚ) ^ (-1022 : ℤ) * r.toNat ≤ 2 ^ (-1022 : ℤ) * 2 ^ (32 : ℤ) :=
        mul_le_mul_of_nonneg_left hrate32 (by positivity)
    _ = 2 ^ (-990 : ℤ) := (zpow_add₀ two_ne_zero _ _).symm
    _ ≤ 2 ^ (-149 : ℤ) := zpow_le_zpow_right₀ one_le_two (by decide)
    _ ≤ |num32 f| := le_abs_num32 hf h0

theorem turns_zero {f r : Word32} (hr : r ≠ 0) (h : (b32 f).isZero = true) :
    turns (freqValue f) (fsValue r) = zero64 f.msb := by
  obtain ⟨hS, hSnum⟩ := fsValue_exact r
  rw [turns, freqValue_zero h, div64_zero_left hS (by rw [hSnum]; linarith [one_le_rate hr]), fsValue_msb,
    Bool.bne_false]

theorem turns_inf {f : Word32} {s : Bool} (h : b32 f = .inf s) (r : Word32) :
    turns (freqValue f) (fsValue r) = inf64 s := by
  rw [turns, freqValue_inf h, div64_inf_left s (fsValue_exact r).1, fsValue_msb, Bool.bne_false]

theorem turns_nan {f : Word32} (h : b32 f = .nan) (r : Word32) : turns (freqValue f) (fsValue r) = nan64 := by
  rw [turns, freqValue_nan h]
  exact div64_nan_left _ _ b64_nan64

theorem turns_rate_zero {f : Word32} (hnan : b32 f ≠ .nan) (h0 : (b32 f).isZero = false) :
    turns (freqValue f) (fsValue 0) = inf64 f.msb := by
  have hmsb := freqValue_msb hnan
  cases hf : b32 f with
  | nan => exact absurd hf hnan
  | inf s => rw [turns_inf hf, ← hmsb, freqValue_inf hf, msb_inf64]
  | fin s m e =>
    have hfin : (b32 f).isFin = true := by rw [hf]; rfl
    obtain ⟨hF, hFnum⟩ := freqValue_exact hfin
    rw [turns, fsValue_zero, div64_zero_right hF (hFnum ▸ num32_ne_zero hfin h0), hmsb, Bool.bne_false]

theorem turns_zero_zero {f : Word32} (h : (b32 f).isZero = true) : turns (freqValue f) (fsValue 0) = nan64 := by
  rw [turns, freqValue_zero h, fsValue_zero, div64_zero_zero]

/-- Settles O37: the operands are exact, so the quotient is F/S rounded once; it lies between F and the smallest normal
number, and rounding passes neither. -/
theorem normalizedFrequencyIsOneRoundedQuotient : Obligations.NormalizedFrequencyIsOneRoundedQuotient := by
  refine ⟨fun f hf => freqValue_exact hf, fsValue_exact, fun f r hr hf => ?regular, fun f r neg _ h => turns_inf h r,
    fun f hnan h0 => turns_rate_zero hnan h0, fun f h => ?_, fun f r h => ?_⟩
  case regular =>
    obtain ⟨hfin, hbound⟩ := turns_finite hr hf
    exact ⟨turns_rounded hr hf, hfin, hbound, turns_zero hr, turns_normal hr hf⟩
  · rw [turns_zero_zero h, b64_nan64]
  · rw [turns_nan h, b64_nan64]

/-! ### Non-finite turns -/

theorem trigTurns_of_not_isFin {u : Word64} (h : (b64 u).isFin = false) : trigTurns u = (nan64, nan64) := by
  rw [trigTurns, isNonFinite64_eq, h]
  rfl

/-- FS = 0 and a non-finite FREQ make u non-finite. -/
theorem turns_not_isFin {f r : Word32} (h : r = 0 ∨ (b32 f).isFin = false) :
    (b64 (turns (freqValue f) (fsValue r))).isFin = false := by
  cases hf : b32 f with
  | nan => rw [turns_nan hf, b64_nan64]; rfl
  | inf s => rw [turns_inf hf, b64_inf64]; rfl
  | fin s m e =>
    obtain rfl : r = 0 := h.resolve_right (by simp [hf, Value.isFin])
    cases h0 : (b32 f).isZero with
    | true => rw [turns_zero_zero h0, b64_nan64]; rfl
    | false => rw [turns_rate_zero (by simp [hf]) h0, b64_inf64]; rfl

/-- Settles O38: a non-finite u skips the steps, and `turns_not_isFin` gives the inputs that have one. -/
theorem nonFiniteTurnsGiveNaN : Obligations.NonFiniteTurnsGiveNaN := by
  have nanPair {u : Word64} (h : (b64 u).isFin = false) :
      b64 (trigTurns u).1 = .nan ∧ b64 (trigTurns u).2 = .nan := by
    rw [trigTurns_of_not_isFin h]
    exact ⟨b64_nan64, b64_nan64⟩
  exact ⟨fun _ => nanPair, fun _ _ h => nanPair (turns_not_isFin h)⟩

end Sys2Proof.Machine
end

section
/-! The quadrant reduction: 4u is exact, its integer rounding is the nearest integer, and the reduced argument is the
exact difference of the two (R68, R69). -/

namespace Sys2Proof.Machine

open Sys2Proof

/-! ### The integer rounding -/

/-- The integer rounding of a finite word, by the exact number it stands for. -/
theorem rneInt_of_fin {v : Word64} {s : Bool} {m : Nat} {e : Int} (h : b64 v = .fin s m e) :
    rneInt v = some (signed s (if 0 ≤ e then m * 2 ^ e.toNat else rneShift m (-e).toNat)) := by
  rw [rneInt, h]

/-- Exactly the finite words have an integer rounding. -/
theorem rneInt_isSome (v : Word64) : (∃ k, rneInt v = some k) ↔ (b64 v).isFin = true := by
  cases hv : b64 v <;> simp [rneInt, hv, Value.isFin]

theorem isFin_of_rneInt {v : Word64} {k : ℤ} (h : rneInt v = some k) : (b64 v).isFin = true :=
  (rneInt_isSome v).mp ⟨k, h⟩

theorem natCast_dvd_signed (s : Bool) {j n : Nat} (h : j ∣ n) : (j : ℤ) ∣ signed s n := by
  have hn : (j : ℤ) ∣ n := Int.natCast_dvd_natCast.mpr h
  cases s
  · exact hn
  · exact (dvd_neg (α := ℤ)).mpr hn

/-- The integer rounding is a nearest integer, and the even one at a tie (R68). -/
theorem rneInt_nearest {v : Word64} {k : ℤ} (h : rneInt v = some k) :
    |num64 v - k| ≤ 1 / 2 ∧ (|num64 v - k| = 1 / 2 → k % 2 = 0) := by
  obtain ⟨s, m, e, hv⟩ := isFin_iff.mp (isFin_of_rneInt h)
  have hnear := nearestInt_significand (.self m) (e := e) (q := 0) (.inl rfl)
  rw [rneInt_of_fin hv, Option.some.injEq] at h
  simp only [sub_zero, zero_sub] at hnear
  generalize (if 0 ≤ e then m * 2 ^ e.toNat else rneShift m (-e).toNat) = n at h hnear
  have hdist : |num64 v - k| = |(n : ℚ) - m * 2 ^ e| := by
    rw [num64_of_fin hv, ← h, signed_cast, ← mul_sub, abs_sign_mul, abs_sub_comm]
  obtain ⟨near, even⟩ := hnear
  rw [hdist]
  exact ⟨near, fun htie => h ▸ Int.emod_eq_zero_of_dvd (natCast_dvd_signed s (Nat.dvd_of_mod_eq_zero (even htie)))⟩

/-- A number at a place of whole numbers is its own integer rounding. -/
theorem rneInt_of_whole {v : Word64} {s : Bool} {m : Nat} {e : Int} (h : b64 v = .fin s m e) (he : 0 ≤ e) :
    rneInt v = some (signed s (m * 2 ^ e.toNat)) ∧ num64 v = (signed s (m * 2 ^ e.toNat) : ℤ) := by
  refine ⟨by rw [rneInt_of_fin h, if_pos he], ?_⟩
  obtain ⟨i, rfl⟩ := Int.eq_ofNat_of_zero_le he
  rw [num64_of_fin h, signed_cast, Int.toNat_natCast, zpow_natCast]
  push_cast
  rfl

/-- From 2^52 on every finite word is at a place of whole numbers, and from 2^(52 + i) on at one of multiples of 2^i. -/
theorem exponent_of_large {v : Word64} {s : Bool} {m : Nat} {e : Int} (h : b64 v = .fin s m e) {i : Nat}
    (hv : 2 ^ (52 + i) ≤ |num64 v|) : (i : ℤ) ≤ e := by
  obtain ⟨hm, -⟩ := b64_fin_bounds h
  have hm' : (m : ℚ) < 2 ^ (53 : ℤ) := by exact_mod_cast hm
  by_contra hlt
  have habs : |num64 v| = m * 2 ^ e := by rw [num64, h, abs_toRat_fin]
  have : |num64 v| < 2 ^ (52 + i) := by
    calc |num64 v| = m * 2 ^ e := habs
      _ < 2 ^ (53 : ℤ) * 2 ^ e := mul_lt_mul_of_pos_right hm' (by positivity)
      _ = 2 ^ (53 + e) := (zpow_add₀ two_ne_zero _ _).symm
      _ ≤ 2 ^ (((52 + i : Nat) : ℤ)) := zpow_le_zpow_right₀ one_le_two (by push_cast; omega)
      _ = 2 ^ (52 + i) := zpow_natCast _ _
  linarith

/-- From 2^52 on a number is its own integer rounding (R68). -/
theorem rneInt_of_large {v : Word64} {k : ℤ} (h : rneInt v = some k) (hv : 2 ^ 52 ≤ |num64 v|) : num64 v = k := by
  obtain ⟨s, m, e, hfin⟩ := isFin_iff.mp (isFin_of_rneInt h)
  obtain ⟨hk, hnum⟩ := rneInt_of_whole hfin (exponent_of_large hfin (i := 0) hv)
  rw [hnum, Option.some.inj (h.symm.trans hk)]

/-! ### Four times u -/

theorem num64_four64 : num64 four64 = 4 := by
  have h : b64 four64 = .fin false (2 ^ 52) (-50) := by decide
  rw [num64_of_fin h]
  norm_num

/-- The product with 4 is a scaling by a power of two, so it is exact where it does not overflow (R68). -/
theorem mul64_four64_exact {u : Word64} (hu : (b64 u).isFin = true) (hv : (b64 (mul64 four64 u)).isFin = true) :
    num64 (mul64 four64 u) = 4 * num64 u := by
  have hround := rounded64_mul64 (x := four64) (by decide) hu
  have hdyadic := (dyadic64_num64 u).mul_two_pow 2
  rw [num64_four64] at hround
  norm_num at hdyadic
  exact hround.exact hdyadic hv

/-- Four times a number below 2^128 does not overflow (R68). -/
theorem mul64_four64_isFin {u : Word64} (hu : (b64 u).isFin = true) (hlt : |num64 u| < 2 ^ 128) :
    (b64 (mul64 four64 u)).isFin = true := by
  have hround := rounded64_mul64 (x := four64) (by decide) hu
  rw [hround.isFin_iff, num64_four64, abs_mul, abs_of_pos four_pos]
  calc 4 * |num64 u| < 2 ^ 130 := by linarith
    _ < binary64.overflow := two_pow_lt_overflow (by decide)

/-! ### The reduced argument -/

/-- A difference of two equal nonzero finite numbers is +0 (R69). -/
theorem sub64_of_num64_eq {x y : Word64} (hx : (b64 x).isFin = true) (hy : (b64 y).isFin = true)
    (h : num64 x = num64 y) (h0 : num64 x ≠ 0) : sub64 x y = zero64 false := by
  obtain rfl := eq_of_num64_eq hx hy h h0
  obtain ⟨s, m, e, hm⟩ := isFin_iff.mp hx
  have hz : signed s m + signed (!s) m = 0 := by cases s <;> simp [signed]
  simp [sub64, add64, hm, Value.flip, hz]

/-- `K` is exact: the integer rounding is the number itself, or at most 2^52 (R69). -/
theorem int64_rneInt {v : Word64} {k : ℤ} (h : rneInt v = some k) :
    (b64 (int64 k)).isFin = true ∧ num64 (int64 k) = k := by
  by_cases hlarge : 2 ^ 52 ≤ |num64 v|
  · have hself := rneInt_of_large h hlarge
    exact int64_exact (hself ▸ dyadic64_num64 v) (hself ▸ abs_num64_lt_overflow (isFin_of_rneInt h))
  · have hnear := (rneInt_nearest h).1
    have htriangle := abs_sub_abs_le_abs_sub (k : ℚ) (num64 v)
    rw [abs_sub_comm] at htriangle
    have hlt : |(k : ℚ)| < 2 ^ 53 := by linarith
    exact int64_exact (dyadic64_int (by exact_mod_cast hlt)) (hlt.trans (two_pow_lt_overflow (by decide)))

/-- The distance to a nonzero nearest integer is no more than the number itself. -/
theorem rneInt_dist_le {v : Word64} {k : ℤ} (h : rneInt v = some k) (hk : k ≠ 0) : |num64 v - k| ≤ |num64 v| := by
  have hnear := (rneInt_nearest h).1
  have hone : (1 : ℚ) ≤ |(k : ℚ)| := by exact_mod_cast Int.one_le_abs hk
  have htriangle := abs_sub_abs_le_abs_sub (k : ℚ) (num64 v)
  rw [abs_sub_comm] at htriangle
  linarith

/-- `v − k` is a whole number of last places of `v`, and no larger than `v` (R69). -/
theorem dyadic64_sub_rneInt {v : Word64} {k : ℤ} (h : rneInt v = some k) (hk : k ≠ 0) : Dyadic64 (num64 v - k) := by
  obtain ⟨s, m, e, hv⟩ := isFin_iff.mp (isFin_of_rneInt h)
  by_cases he : 0 ≤ e
  · obtain ⟨hself, hnum⟩ := rneInt_of_whole hv he
    rw [hnum, Option.some.inj (h.symm.trans hself), sub_self]
    exact dyadic64_int (n := 0) (by decide)
  · obtain ⟨i, rfl⟩ : ∃ i : Nat, e = -(i : ℤ) := ⟨(-e).toNat, by omega⟩
    obtain ⟨hm, hmin⟩ := b64_fin_bounds hv
    have hunit : (0 : ℚ) < 2 ^ (-(i : ℤ)) := by positivity
    have hv' : num64 v = (signed s m : ℤ) * 2 ^ (-(i : ℤ)) := by rw [num64_of_fin hv, signed_cast, mul_assoc]
    have hdiff : num64 v - k = ((signed s m - k * 2 ^ i : ℤ) : ℚ) * 2 ^ (-(i : ℤ)) := by
      rw [hv', zpow_neg, zpow_natCast]
      push_cast
      field_simp
    have hle := rneInt_dist_le h hk
    rw [hdiff, hv', abs_mul, abs_mul, mul_le_mul_iff_left₀ (abs_pos.mpr hunit.ne')] at hle
    have hint : |signed s m - k * 2 ^ i| ≤ |signed s m| := by exact_mod_cast hle
    refine ⟨signed s m - k * 2 ^ i, _, lt_of_le_of_lt hint ?_, hmin, hdiff⟩
    rw [abs_signed]
    exact_mod_cast hm

theorem reduced_zero (v : Word64) : reduced v 0 = v := if_pos rfl

theorem reduced_of_ne_zero (v : Word64) {k : ℤ} (hk : k ≠ 0) : reduced v k = sub64 v (int64 k) := if_neg hk

/-- The subtraction is exact: `v = k + d` (R69). -/
theorem reduced_exact {v : Word64} {k : ℤ} (h : rneInt v = some k) :
    (b64 (reduced v k)).isFin = true ∧ num64 (reduced v k) = num64 v - k := by
  by_cases hk : k = 0
  · subst hk
    rw [reduced_zero]
    exact ⟨isFin_of_rneInt h, by simp⟩
  · obtain ⟨hK, hKnum⟩ := int64_rneInt h
    have hround := rounded64_sub64 (isFin_of_rneInt h) hK
    rw [hKnum] at hround
    rw [reduced_of_ne_zero v hk]
    have hfin : (b64 (sub64 v (int64 k))).isFin = true := hround.isFin_iff.mpr
      (lt_of_le_of_lt (rneInt_dist_le h hk) (abs_num64_lt_overflow (isFin_of_rneInt h)))
    exact ⟨hfin, hround.exact (dyadic64_sub_rneInt h hk) hfin⟩

/-- An exact zero difference is +0 (R69). -/
theorem reduced_of_whole {v : Word64} {k : ℤ} (h : rneInt v = some k) (hk : k ≠ 0) (hv : num64 v = k) :
    reduced v k = zero64 false := by
  obtain ⟨hK, hKnum⟩ := int64_rneInt h
  rw [reduced_of_ne_zero v hk]
  exact sub64_of_num64_eq (isFin_of_rneInt h) hK (hv.trans hKnum.symm) (by rw [hv]; exact_mod_cast hk)

/-- Settles O39: 4u is exact, `rneInt_nearest` and `rneInt_of_large` say what k is, and `reduced_exact` and
`reduced_of_whole` what d is. -/
theorem quadrantReductionIsExact : Obligations.QuadrantReductionIsExact := by
  refine ⟨fun f r hr hf => ?_, fun u k hu h => ?_⟩
  · obtain ⟨hu, hlt⟩ := turns_finite hr hf
    have hv := mul64_four64_isFin hu hlt
    refine ⟨(rneInt_isSome _).mpr hv, ?_⟩
    rw [mul64_four64_exact hu hv, abs_mul, abs_of_pos four_pos]
    linarith
  · intro v d
    have hv : num64 v = 4 * num64 u := mul64_four64_exact hu (isFin_of_rneInt h)
    obtain ⟨near, even⟩ := rneInt_nearest h
    obtain ⟨hd, hdnum⟩ := reduced_exact h
    refine ⟨hv, near, even, rneInt_of_large h, ?_, hd, ?_, hdnum ▸ near, reduced_of_whole h⟩
    · rintro rfl
      exact reduced_zero v
    · rw [← hv, hdnum, sub_add_cancel]

end Sys2Proof.Machine
end

section
/-! The kernels: their constants, Horner's rule with every operation rounded once, and the quadrant that selects their
results (R70 to R73). -/

namespace Sys2Proof.Machine

open Sys2Proof

/-! ### The quadrant -/

theorem quadrant_zero {k : ℤ} (h : k % 4 = 0) (s c : Word64) : quadrant k s c = (s, c) := by
  rw [quadrant, h]
  rfl

theorem quadrant_one {k : ℤ} (h : k % 4 = 1) (s c : Word64) : quadrant k s c = (c, neg64 s) := by
  rw [quadrant, h]
  rfl

theorem quadrant_two {k : ℤ} (h : k % 4 = 2) (s c : Word64) : quadrant k s c = (neg64 s, neg64 c) := by
  rw [quadrant, h]
  rfl

theorem quadrant_three {k : ℤ} (h : k % 4 = 3) (s c : Word64) : quadrant k s c = (neg64 c, s) := by
  rw [quadrant, h]
  rfl

/-- Settles O40: one lemma per residue, and `neg64` is the flip of the sign bit. -/
theorem quadrantSelectsKernels : Obligations.QuadrantSelectsKernels := by
  refine ⟨fun k s c => ⟨fun h => quadrant_zero h s c, fun h => quadrant_one h s c, fun h => quadrant_two h s c,
    fun h => quadrant_three h s c⟩, quadrant_three (by decide), fun c => ?_⟩
  rw [quadrant_one (by decide), neg64_zero64, Bool.not_false]

/-! ### The constants -/

/-- Settles O41: each quotient is evaluated. -/
theorem kernelConstantsAreRoundedQuotients : Obligations.KernelConstantsAreRoundedQuotients := by
  refine ⟨?_, ?_, ?_, ?_⟩ <;> decide +kernel

theorem b64_halfPi : b64 halfPi = .fin false 7074237752028440 (-52) := by decide

theorem num64_halfPi : num64 halfPi = 884279719003555 / 562949953421312 := by
  rw [num64_of_fin b64_halfPi]
  norm_num

/-- Settles O42: the constant and the bounds of π to twenty places, compared as rationals. -/
theorem halfPiIsNearest : Obligations.HalfPiIsNearest := by
  refine ⟨rfl, by decide, by decide, ?_⟩
  have hlo := Real.pi_gt_d20
  have hhi := Real.pi_lt_d20
  rw [num64_halfPi, abs_lt]
  push_cast
  constructor <;> norm_num at hlo hhi ⊢ <;> linarith

/-! ### Bounds that rounding keeps -/

/-- Smaller magnitude bits are a smaller number. -/
theorem abs_num64_le_of_mag_le {w y : Word64} (hy : (b64 y).isFin = true)
    (h : w.toNat % 2 ^ 63 ≤ y.toNat % 2 ^ 63) : (b64 w).isFin = true ∧ |num64 w| ≤ |num64 y| := by
  have hw : (b64 w).isFin = true := (isFin_iff_mag_lt w).mpr (lt_of_le_of_lt h ((isFin_iff_mag_lt y).mp hy))
  rw [abs_num64 hw, abs_num64 hy]
  exact ⟨hw, (unboundedNum_strictMono binary64).monotone h⟩

theorem num64_one64 : num64 one64 = 1 := by
  have h : b64 one64 = .fin false (2 ^ 52) (-52) := by decide
  rw [num64_of_fin h]
  norm_num

theorem abs_num64_le_one {w : Word64} (h : w.toNat % 2 ^ 63 ≤ one64.toNat % 2 ^ 63) :
    (b64 w).isFin = true ∧ |num64 w| ≤ 1 := by
  simpa [num64_one64] using abs_num64_le_of_mag_le (y := one64) (by decide) h

/-- A whole number of at most 53 bits bounds what is rounded from below it. -/
theorem Rounded64.abs_le_nat {x : ℚ} {w : Word64} (h : Rounded64 x w) {n : Nat} (hn : n < 2 ^ 53) (hx : |x| ≤ n) :
    (b64 w).isFin = true ∧ |num64 w| ≤ n := by
  have hn' : (n : ℚ) < 2 ^ 53 := by exact_mod_cast hn
  have hover := hn'.trans (two_pow_lt_overflow (by decide))
  obtain ⟨hy, hynum⟩ := int64_exact (k := n) (dyadic64_int (by rw [Nat.abs_cast]; exact_mod_cast hn)) (by simpa)
  have hyabs : |num64 (int64 n)| = n := by rw [hynum, Int.cast_natCast, Nat.abs_cast]
  have := h.abs_le hy (by rwa [hyabs])
  rwa [hyabs] at this

/-! ### Products -/

/-- A product of finite words rounds the exact product under the exclusive-or of the signs. -/
theorem mul64_of_fin {x y : Word64} {s t : Bool} {m n : Nat} {e g : Int} (hx : b64 x = .fin s m e)
    (hy : b64 y = .fin t n g) : mul64 x y = round64 (s != t) (m * n) (e + g) := by
  rw [mul64, hx, hy]

theorem mul64_msb {x y : Word64} (hx : (b64 x).isFin = true) (hy : (b64 y).isFin = true) :
    (mul64 x y).msb = (x.msb != y.msb) := by
  obtain ⟨s, m, e, hx⟩ := isFin_iff.mp hx
  obtain ⟨t, n, g, hy⟩ := isFin_iff.mp hy
  rw [mul64_of_fin hx hy, msb_round64, msb_of_fin hx, msb_of_fin hy]

/-! ### Horner's rule -/

/-- With `|x2| ≤ 1` and coefficients of at most 1, a step of Horner's rule adds at most 1 to the bound on the sum, so
every intermediate value is finite. -/
theorem horner_rounds {x2 : Word64} (hx2 : (b64 x2).isFin = true) (hx2one : |num64 x2| ≤ 1) {cs : List Word64}
    (hcs : ∀ c ∈ cs, c.toNat % 2 ^ 63 ≤ one64.toNat % 2 ^ 63) {p : Word64} {n : Nat} (hn : n + cs.length < 2 ^ 53)
    (hp : (b64 p).isFin = true) (hpn : |num64 p| ≤ n) :
    HornerRounds x2 p cs (horner x2 p cs) ∧ (b64 (horner x2 p cs)).isFin = true ∧
      |num64 (horner x2 p cs)| ≤ (n + cs.length : Nat) := by
  induction cs generalizing p n with
  | nil => exact ⟨rfl, hp, by simpa [horner] using hpn⟩
  | cons c cs ih =>
    rw [List.length_cons] at hn ⊢
    obtain ⟨hc, hcone⟩ := abs_num64_le_one (hcs c List.mem_cons_self)
    have htround := rounded64_mul64 hp hx2
    have hprod : |num64 p * num64 x2| ≤ n := by
      rw [abs_mul]
      exact (mul_le_of_le_one_right (abs_nonneg _) hx2one).trans hpn
    obtain ⟨ht, htn⟩ := htround.abs_le_nat (by omega) hprod
    have hsround := rounded64_add64 ht hc
    have hsum : |num64 (mul64 p x2) + num64 c| ≤ (n + 1 : Nat) := by
      push_cast
      exact (abs_add_le _ _).trans (add_le_add htn hcone)
    obtain ⟨hs, hsn⟩ := hsround.abs_le_nat (by omega) hsum
    obtain ⟨hrounds, hfin, hbound⟩ := ih (fun c' hc' => hcs c' (List.mem_cons_of_mem c hc')) (by omega) hs hsn
    exact ⟨⟨_, _, ht, hs, htround, hsround, hrounds⟩, hfin, by rwa [Nat.add_right_comm] at hbound⟩

/-! ### The scaled argument -/

theorem isFin_halfPi : (b64 halfPi).isFin = true := by rw [b64_halfPi]; rfl

theorem num64_quarterPi : num64 0x3FE921FB54442D18 = num64 halfPi / 2 := by
  have h : b64 0x3FE921FB54442D18 = .fin false 7074237752028440 (-53) := by decide
  rw [num64_of_fin h, num64_halfPi]
  norm_num

/-- `|d| ≤ 1/2` gives `|x| ≤ π/4` rounded, a number of the format (R70). -/
theorem scaled_bound {d : Word64} (hd : (b64 d).isFin = true) (hle : |num64 d| ≤ 1 / 2) :
    (b64 (mul64 d halfPi)).isFin = true ∧ |num64 (mul64 d halfPi)| ≤ num64 0x3FE921FB54442D18 := by
  have hpos : 0 < num64 halfPi := by rw [num64_halfPi]; norm_num
  have habs : |num64 0x3FE921FB54442D18| = num64 halfPi / 2 := by
    rw [num64_quarterPi, abs_of_pos (by linarith)]
  have := (rounded64_mul64 hd isFin_halfPi).abs_le (y := 0x3FE921FB54442D18) (by decide) (by
    rw [habs, abs_mul, abs_of_pos hpos]
    nlinarith)
  rwa [habs, ← num64_quarterPi] at this

/-- Scaling by a number of at least 1 does not reach zero, and keeps a zero (R70). -/
theorem scaled_isZero {d : Word64} (hd : (b64 d).isFin = true) (hle : |num64 d| ≤ 1 / 2) :
    (b64 (mul64 d halfPi)).isZero = (b64 d).isZero := by
  have hx := (scaled_bound hd hle).1
  have hround := rounded64_mul64 hd isFin_halfPi
  have hone : 1 ≤ |num64 halfPi| := by rw [num64_halfPi]; norm_num
  have hgrow : |num64 d| ≤ |num64 d * num64 halfPi| := by
    rw [abs_mul]
    exact le_mul_of_one_le_right (abs_nonneg _) hone
  rw [Bool.eq_iff_iff, isZero_iff, isZero_iff]
  constructor
  · rintro ⟨-, h0⟩
    have := hround.le_abs hx hd hgrow
    rw [h0, abs_zero] at this
    exact ⟨hd, abs_nonpos_iff.mp this⟩
  · rintro ⟨-, h0⟩
    have := (hround.abs_le hd (by simp [h0])).2
    rw [h0, abs_zero] at this
    exact ⟨hx, abs_nonpos_iff.mp this⟩

/-! ### The kernels -/

/-- The square of a number of at most 1 is at most 1, rounded too. -/
theorem square_bound {x : Word64} (hx : (b64 x).isFin = true) (hxle : |num64 x| ≤ 1) :
    (b64 (mul64 x x)).isFin = true ∧ |num64 (mul64 x x)| ≤ 1 := by
  have := (rounded64_mul64 hx hx).abs_le_nat (n := 1) (by decide) (by
    rw [abs_mul, Nat.cast_one]
    exact mul_le_one₀ hxle (abs_nonneg _) hxle)
  rwa [Nat.cast_one] at this

/-- Horner's rule in the square of a scaled argument, from coefficients of at most 1. -/
theorem horner_square_rounds {x : Word64} (hx : (b64 x).isFin = true) (hxle : |num64 x| ≤ 1) {p : Word64}
    {cs : List Word64} (hle : ∀ c ∈ p :: cs, c.toNat % 2 ^ 63 ≤ one64.toNat % 2 ^ 63) (hn : 1 + cs.length < 2 ^ 53) :
    HornerRounds (mul64 x x) p cs (horner (mul64 x x) p cs) ∧ (b64 (horner (mul64 x x) p cs)).isFin = true ∧
      |num64 (horner (mul64 x x) p cs)| ≤ (1 + cs.length : Nat) := by
  obtain ⟨hx2, hx2one⟩ := square_bound hx hxle
  obtain ⟨hp, hpone⟩ := abs_num64_le_one (hle p List.mem_cons_self)
  exact horner_rounds hx2 hx2one (fun c hc => hle c (List.mem_cons_of_mem p hc)) hn hp (by simpa using hpone)

theorem sinCoefficients_le_one : ∀ c ∈ sinFirst :: sinRest, c.toNat % 2 ^ 63 ≤ one64.toNat % 2 ^ 63 := by
  simp [sinFirst, sinRest, one64]

theorem cosCoefficients_le_one : ∀ c ∈ cosFirst :: cosRest, c.toNat % 2 ^ 63 ≤ one64.toNat % 2 ^ 63 := by
  simp [cosFirst, cosRest, one64]

/-- The polynomial of the sine kernel, before the last product (R71). -/
theorem sinHorner_rounds {x : Word64} (hx : (b64 x).isFin = true) (hxle : |num64 x| ≤ 1) :
    HornerRounds (mul64 x x) sinFirst sinRest (horner (mul64 x x) sinFirst sinRest) ∧
      (b64 (horner (mul64 x x) sinFirst sinRest)).isFin = true ∧
      |num64 (horner (mul64 x x) sinFirst sinRest)| ≤ (8 : Nat) :=
  horner_square_rounds hx hxle sinCoefficients_le_one (by decide)

theorem sinKernel_rounded {x : Word64} (hx : (b64 x).isFin = true) (hxle : |num64 x| ≤ 1) :
    Rounded64 (num64 x * num64 (horner (mul64 x x) sinFirst sinRest)) (sinKernel x) ∧
      (b64 (sinKernel x)).isFin = true := by
  obtain ⟨-, hp, hpbound⟩ := sinHorner_rounds hx hxle
  have hround := rounded64_mul64 hx hp
  refine ⟨hround, (hround.abs_le_nat (n := 8) (by decide) ?_).1⟩
  rw [abs_mul]
  exact (mul_le_of_le_one_left (abs_nonneg _) hxle).trans hpbound

theorem cosKernel_rounds {x : Word64} (hx : (b64 x).isFin = true) (hxle : |num64 x| ≤ 1) :
    HornerRounds (mul64 x x) cosFirst cosRest (cosKernel x) ∧ (b64 (cosKernel x)).isFin = true := by
  obtain ⟨hrounds, hfin, -⟩ := horner_square_rounds hx hxle cosCoefficients_le_one (by decide)
  exact ⟨hrounds, hfin⟩

/-- The scaled argument of a `d` of R69 is at most 1. -/
theorem scaled_le_one {d : Word64} (hd : (b64 d).isFin = true) (hle : |num64 d| ≤ 1 / 2) :
    |num64 (mul64 d halfPi)| ≤ 1 := by
  refine (scaled_bound hd hle).2.trans ?_
  rw [num64_quarterPi, num64_halfPi]
  norm_num

/-- Steps R70 to R73 run for a finite u whose 4u has an integer rounding. -/
theorem trigTurns_of_rneInt {u : Word64} {k : ℤ} (hu : (b64 u).isFin = true) (h : rneInt (mul64 four64 u) = some k) :
    trigTurns u = quadrant k (sinKernel (mul64 (reduced (mul64 four64 u) k) halfPi))
      (cosKernel (mul64 (reduced (mul64 four64 u) k) halfPi)) := by
  simp [trigTurns, isNonFinite64_eq, hu, h]

/-- Settles O57: the scaled argument stays below 1, so `horner_rounds` bounds every step of both kernels. -/
theorem kernelsRoundEveryStep : Obligations.KernelsRoundEveryStep := by
  refine ⟨fun d hd hle => ?_, fun u k hu h => trigTurns_of_rneInt hu h⟩
  intro x x2
  obtain ⟨hx, hbound⟩ := scaled_bound hd hle
  have hone := scaled_le_one hd hle
  have hmsb : x.msb = d.msb := (mul64_msb hd isFin_halfPi).trans (Bool.bne_false _)
  obtain ⟨hsin, hsinfin⟩ := sinKernel_rounded hx hone
  exact ⟨⟨hx, rounded64_mul64 hd isFin_halfPi, hbound, scaled_isZero hd hle, hmsb⟩,
    ⟨(square_bound hx hone).1, rounded64_mul64 hx hx⟩,
    ⟨_, (sinHorner_rounds hx hone).1, hsin, hsinfin⟩, (cosKernel_rounds hx hone).1⟩

end Sys2Proof.Machine
end

section
/-! The symmetries of the trig approximator: exact values at whole quarter turns, and a negated u (R74). -/

namespace Sys2Proof.Machine

open Sys2Proof

/-! ### Whole quarter turns -/

/-- At a zero of either sign the scaled argument and the sine are that zero, and the cosine is 1. -/
theorem kernels_at_zero (s : Bool) : sinKernel (mul64 (zero64 s) halfPi) = zero64 s ∧
    cosKernel (mul64 (zero64 s) halfPi) = one64 := by
  cases s <;> decide +kernel

/-- Where the reduced argument is a zero, the pair is the quadrant's choice from that zero and 1. -/
theorem trigTurns_of_reduced_zero {u : Word64} {k : ℤ} {s : Bool} (hu : (b64 u).isFin = true)
    (h : rneInt (mul64 four64 u) = some k) (hd : reduced (mul64 four64 u) k = zero64 s) :
    trigTurns u = quadrant k (zero64 s) one64 := by
  rw [trigTurns_of_rneInt hu h, hd, (kernels_at_zero s).1, (kernels_at_zero s).2]

/-- For `k = 0` the reduced argument is `v`, whose sign is that of u (R69). -/
theorem trigTurns_of_zero {u : Word64} (hu : (b64 u).isFin = true) (h : rneInt (mul64 four64 u) = some 0)
    (hv : num64 (mul64 four64 u) = 0) : trigTurns u = (u, one64) := by
  have hfin := isFin_of_rneInt h
  have hu0 : num64 u = 0 := by
    rw [mul64_four64_exact hu hfin] at hv
    linarith
  have hmsb : (mul64 four64 u).msb = u.msb := (mul64_msb (by decide) hu).trans (Bool.false_bne _)
  have hd : reduced (mul64 four64 u) 0 = zero64 u.msb := by
    rw [reduced_zero, eq_zero64_of_num64_eq_zero hfin hv, hmsb]
  rw [trigTurns_of_reduced_zero hu h hd, quadrant_zero (by decide), ← eq_zero64_of_num64_eq_zero hu hu0]

/-- From `|v| = 2^54` on every finite `v` is a multiple of 4 (R74). -/
theorem rneInt_mod_four_of_large {v : Word64} {k : ℤ} (h : rneInt v = some k) (hv : 2 ^ 54 ≤ |num64 v|) :
    k % 4 = 0 := by
  obtain ⟨s, m, e, hfin⟩ := isFin_iff.mp (isFin_of_rneInt h)
  have he := exponent_of_large hfin (i := 2) hv
  obtain ⟨i, rfl⟩ : ∃ i : Nat, e = (i + 2 : Nat) := ⟨(e - 2).toNat, by omega⟩
  have hk := (rneInt_of_whole hfin (by omega)).1
  rw [h, Option.some.injEq, Int.toNat_natCast] at hk
  have hfour : 4 ∣ m * 2 ^ (i + 2) := ⟨m * 2 ^ i, by ring⟩
  exact hk ▸ Int.emod_eq_zero_of_dvd (natCast_dvd_signed s hfour)

/-- Settles O43: the reduced argument is a zero, `kernels_at_zero` gives the two kernels there, and the quadrant
selects from them. -/
theorem trigIsExactAtQuarterTurns : Obligations.TrigIsExactAtQuarterTurns := by
  intro u k hu h
  have whole (hk : k ≠ 0) (hv : num64 (mul64 four64 u) = k) : trigTurns u = quadrant k (zero64 false) one64 :=
    trigTurns_of_reduced_zero hu h (reduced_of_whole h hk hv)
  refine ⟨fun hv => ⟨?_, fun hk hq => ?_, fun hq => ?_, fun hq => ?_, fun hq => ?_⟩, fun hlarge => ?_⟩
  · rintro rfl
    exact trigTurns_of_zero hu h (hv.trans Int.cast_zero)
  · rw [whole hk hv, quadrant_zero hq]
  · rw [whole (by omega) hv, quadrant_one hq, neg64_zero64, Bool.not_false]
  · rw [whole (by omega) hv, quadrant_two hq, neg64_zero64, Bool.not_false]
  · rw [whole (by omega) hv, quadrant_three hq]
  · rw [← mul64_four64_exact hu (isFin_of_rneInt h)] at hlarge
    have hv := rneInt_of_large h (le_trans (by norm_num) hlarge)
    have hk : k ≠ 0 := by
      rintro rfl
      rw [hv] at hlarge
      norm_num at hlarge
    rw [whole hk hv, quadrant_zero (rneInt_mod_four_of_large h hlarge)]

/-! ### Negated turns -/

theorem isFin_neg64 (x : Word64) : (b64 (neg64 x)).isFin = (b64 x).isFin := by
  rw [b64_neg64]
  cases b64 x <;> rfl

/-- A product of finite words takes the sign of either factor. -/
theorem mul64_neg64_left {x y : Word64} (hx : (b64 x).isFin = true) (hy : (b64 y).isFin = true) :
    mul64 (neg64 x) y = neg64 (mul64 x y) := by
  obtain ⟨s, m, e, hx⟩ := isFin_iff.mp hx
  obtain ⟨t, n, g, hy⟩ := isFin_iff.mp hy
  rw [mul64_of_fin ((b64_neg64 x).trans (congrArg Value.flip hx)) hy, mul64_of_fin hx hy, neg64_round64, Bool.not_bne]

theorem mul64_neg64_right {x y : Word64} (hx : (b64 x).isFin = true) (hy : (b64 y).isFin = true) :
    mul64 x (neg64 y) = neg64 (mul64 x y) := by
  obtain ⟨s, m, e, hx⟩ := isFin_iff.mp hx
  obtain ⟨t, n, g, hy⟩ := isFin_iff.mp hy
  rw [mul64_of_fin hx ((b64_neg64 y).trans (congrArg Value.flip hy)), mul64_of_fin hx hy, neg64_round64, Bool.bne_not]

theorem square_neg64 {x : Word64} (hx : (b64 x).isFin = true) : mul64 (neg64 x) (neg64 x) = mul64 x x := by
  rw [mul64_neg64_left hx ((isFin_neg64 x).trans hx), mul64_neg64_right hx hx, neg64_neg64]

/-- The sine kernel is odd and the cosine kernel even (R71, R72). -/
theorem sinKernel_neg64 {x : Word64} (hx : (b64 x).isFin = true) (hxle : |num64 x| ≤ 1) :
    sinKernel (neg64 x) = neg64 (sinKernel x) := by
  rw [sinKernel, square_neg64 hx, mul64_neg64_left hx (sinHorner_rounds hx hxle).2.1, sinKernel]

theorem cosKernel_neg64 {x : Word64} (hx : (b64 x).isFin = true) : cosKernel (neg64 x) = cosKernel x := by
  rw [cosKernel, square_neg64 hx, cosKernel]

/-- Ties to even and to the nearest have no side (R68). -/
theorem rneInt_neg64 {v : Word64} {k : ℤ} (h : rneInt v = some k) : rneInt (neg64 v) = some (-k) := by
  obtain ⟨s, m, e, hv⟩ := isFin_iff.mp (isFin_of_rneInt h)
  rw [rneInt_of_fin hv, Option.some.injEq] at h
  rw [rneInt_of_fin ((b64_neg64 v).trans (congrArg Value.flip hv)), ← h]
  cases s <;> simp [signed]

/-- A nonzero reduced argument is negated: both are exact (R69). -/
theorem reduced_neg64 {v : Word64} {k : ℤ} (h : rneInt v = some k) (hv : num64 v ≠ k) :
    reduced (neg64 v) (-k) = neg64 (reduced v k) := by
  obtain ⟨hd, hdnum⟩ := reduced_exact h
  obtain ⟨hd', hdnum'⟩ := reduced_exact (rneInt_neg64 h)
  have hnum : num64 (reduced (neg64 v) (-k)) = -(num64 v - k) := by
    rw [hdnum', num64_neg64]
    push_cast
    ring
  refine eq_of_num64_eq hd' ((isFin_neg64 _).trans hd) (by rw [hnum, num64_neg64, hdnum]) ?_
  rw [hnum]
  exact neg_ne_zero.mpr (sub_ne_zero.mpr hv)

/-- The opposite quadrant of the negated sine negates the first of the pair (R73). -/
theorem quadrant_neg (k : ℤ) (s c : Word64) :
    quadrant (-k) (neg64 s) c = (neg64 (quadrant k s c).1, (quadrant k s c).2) := by
  obtain h | h | h | h : k % 4 = 0 ∨ k % 4 = 1 ∨ k % 4 = 2 ∨ k % 4 = 3 := by omega
  · rw [quadrant_zero h, quadrant_zero (by omega)]
  · rw [quadrant_one h, quadrant_three (by omega)]
  · rw [quadrant_two h, quadrant_two (by omega)]
  · rw [quadrant_three h, quadrant_one (by omega), neg64_neg64, neg64_neg64]

/-- Settles O44: k, d and x change their signs with u, so the sine kernel's result does and the cosine kernel's does
not, and the opposite quadrant (`quadrant_neg`) selects the negated sine. -/
theorem trigOfNegatedTurns : Obligations.TrigOfNegatedTurns := by
  intro u k hu h hv
  have hneg : mul64 four64 (neg64 u) = neg64 (mul64 four64 u) := mul64_neg64_right (by decide) hu
  obtain ⟨hd, hdnum⟩ := reduced_exact h
  have hdle : |num64 (reduced (mul64 four64 u) k)| ≤ 1 / 2 := hdnum ▸ (rneInt_nearest h).1
  have hx := (scaled_bound hd hdle).1
  rw [trigTurns_of_rneInt ((isFin_neg64 u).trans hu) (hneg ▸ rneInt_neg64 h), hneg, reduced_neg64 h hv,
    mul64_neg64_left hd isFin_halfPi, sinKernel_neg64 hx (scaled_le_one hd hdle), cosKernel_neg64 hx, quadrant_neg,
    trigTurns_of_rneInt hu h]

end Sys2Proof.Machine
end

section
/-! The operations on zeros and infinities: one rule per pair of operand classes, and the table of special values they
make up (R90). -/

namespace Sys2Proof.Machine

open Sys2Proof

/-! ### Zeros, infinities and the other values -/

/-- A word of a zero value is the zero of its sign. -/
theorem eq_zero64_of_isZero {x : Word64} (h : (b64 x).isZero = true) : x = zero64 x.msb := by
  obtain ⟨hx, h0⟩ := (isZero_iff x).mp h
  exact eq_zero64_of_num64_eq_zero hx h0

/-- A finite value that is no zero is a nonzero number. -/
theorem num64_ne_zero {x : Word64} (hx : (b64 x).isFin = true) (h0 : (b64 x).isZero = false) : num64 x ≠ 0 := by
  intro h
  rw [(isZero_iff x).mpr ⟨hx, h⟩] at h0
  cases h0

/-- A value that is neither NaN nor a zero is a nonzero number or the infinity of its sign. -/
theorem finite_or_eq_inf64 {x : Word64} (hnan : b64 x ≠ .nan) (h0 : (b64 x).isZero = false) :
    ((b64 x).isFin = true ∧ num64 x ≠ 0) ∨ x = inf64 x.msb := by
  cases hx : b64 x with
  | nan => exact absurd hx hnan
  | inf s => exact .inr (by rw [eq_inf64_of_inf hx, msb_inf64])
  | fin s m e => exact .inl ⟨rfl, num64_ne_zero (by rw [hx]; rfl) h0⟩

@[simp] theorem isZero_zero64 (s : Bool) : (b64 (zero64 s)).isZero = true := by
  rw [b64_zero64]
  rfl

@[simp] theorem isFin_zero64 (s : Bool) : (b64 (zero64 s)).isFin = true := ((isZero_iff _).mp (isZero_zero64 s)).1

@[simp] theorem num64_zero64 (s : Bool) : num64 (zero64 s) = 0 := ((isZero_iff _).mp (isZero_zero64 s)).2

/-! ### Quotients -/

theorem div64_inf_inf (s t : Bool) : div64 (inf64 s) (inf64 t) = nan64 := by rw [div64, b64_inf64, b64_inf64]

theorem div64_inf_right {x : Word64} (hx : (b64 x).isFin = true) (t : Bool) :
    div64 x (inf64 t) = zero64 (x.msb != t) := by
  obtain ⟨s, m, e, hm⟩ := isFin_iff.mp hx
  rw [div64, b64_inf64, hm, msb_of_fin hm]

/-- A quotient of finite words by a nonzero one has the exclusive-or of their signs. -/
theorem div64_msb {x y : Word64} (hx : (b64 x).isFin = true) (hy : (b64 y).isFin = true) (h0 : num64 y ≠ 0) :
    (div64 x y).msb = (x.msb != y.msb) := by
  obtain ⟨s, m, e, hm⟩ := isFin_iff.mp hx
  obtain ⟨t, n, g, hn⟩ := isFin_iff.mp hy
  have hn0 : n ≠ 0 := fun h => h0 (by simp [num64_of_fin hn, h])
  simp [div64, hm, hn, hn0, msb_of_fin hm, msb_of_fin hn]

/-! ### Products -/

theorem mul64_comm (x y : Word64) : mul64 x y = mul64 y x := by
  unfold mul64
  rcases b64 x with _ | s | ⟨s, m, e⟩ <;> rcases b64 y with _ | t | ⟨t, n, g⟩ <;> dsimp only
  · rw [bne_comm]
  · rw [bne_comm]
  · rw [bne_comm]
  · rw [bne_comm, Nat.mul_comm, Int.add_comm]

theorem mul64_zero_right {x : Word64} (hx : (b64 x).isFin = true) (t : Bool) :
    mul64 x (zero64 t) = zero64 (x.msb != t) := by
  obtain ⟨s, m, e, hm⟩ := isFin_iff.mp hx
  rw [mul64_of_fin hm (b64_zero64 t), Nat.mul_zero, round64_zero, msb_of_fin hm]

theorem mul64_zero_inf {x y : Word64} {t : Bool} (hx : (b64 x).isZero = true) (hy : b64 y = .inf t) :
    mul64 x y = nan64 := by
  obtain ⟨s, m, e, hm⟩ := isFin_iff.mp ((isZero_iff x).mp hx).1
  have hm0 : m = 0 := by simpa [hm, Value.isZero] using hx
  rw [mul64, hm, hy]
  exact if_pos hm0

theorem mul64_inf_inf (s t : Bool) : mul64 (inf64 s) (inf64 t) = inf64 (s != t) := by
  rw [mul64, b64_inf64, b64_inf64]

theorem mul64_inf_right {x : Word64} (hx : (b64 x).isFin = true) (h0 : num64 x ≠ 0) (t : Bool) :
    mul64 x (inf64 t) = inf64 (x.msb != t) := by
  obtain ⟨s, m, e, hm⟩ := isFin_iff.mp hx
  have hm0 : m ≠ 0 := fun h => h0 (by simp [num64_of_fin hm, h])
  rw [mul64, hm, b64_inf64, msb_of_fin hm]
  exact if_neg hm0

/-! ### Sums -/

theorem add64_inf_right {x : Word64} (hx : (b64 x).isFin = true) (t : Bool) : add64 x (inf64 t) = inf64 t := by
  obtain ⟨s, m, e, hm⟩ := isFin_iff.mp hx
  rw [add64, b64_inf64, hm]

theorem add64_inf_neg (s : Bool) : add64 (inf64 s) (inf64 (!s)) = nan64 := by
  rw [add64, b64_inf64, b64_inf64]
  simp only [Bool.eq_not_self, if_false]

theorem add64_zero_zero (s t : Bool) : add64 (zero64 s) (zero64 t) = zero64 (s && t) := by
  simp [add64, signed]

/-- A sum of a nonzero number and its opposite is +0. -/
theorem add64_of_num64_add_eq_zero {x y : Word64} (hx : (b64 x).isFin = true) (hy : (b64 y).isFin = true)
    (h0 : num64 x ≠ 0) (h : num64 x + num64 y = 0) : add64 x y = zero64 false := by
  have := sub64_of_num64_eq hx ((isFin_neg64 y).trans hy) (by rw [num64_neg64]; linarith) h0
  rwa [sub64, neg64_neg64] at this

/-! ### The table -/

theorem nan_operand {x y : Word64} (h : b64 x = .nan ∨ b64 y = .nan) :
    b64 (add64 x y) = .nan ∧ b64 (sub64 x y) = .nan ∧ b64 (mul64 x y) = .nan ∧ b64 (div64 x y) = .nan := by
  rcases h with h | h
  · simp [h, sub64]
  · simp [h, sub64, Value.flip]

/-- Settles O36: each row is the rule of its operand classes, after `finite_or_eq_inf64` where a row joins two. -/
theorem specialValuesFollowIeee : Obligations.SpecialValuesFollowIeee := by
  refine ⟨fun x y => nan_operand, fun x y hnan h0 hy => ?divZero, fun x y hx hy => ?zeroDivZero,
    fun x y s t hx hy => ?infDivInf, fun x y t hx hy => ?divInf, fun x y hx hnan h0 => ?zeroDiv,
    fun x y t hx hy => ?zeroMulInf, fun x y t hnan h0 hy => ?mulInf, fun x y hx hy => ?zeroMul,
    fun x y s hx hy => ?infAddInf, fun x y hx hy h0 => ?cancel, add64_zero_zero⟩
  case divZero =>
    rw [eq_zero64_of_isZero hy, msb_zero64]
    rcases finite_or_eq_inf64 hnan h0 with ⟨hx, hx0⟩ | hx
    · exact div64_zero_right hx hx0 _
    · rw [hx, div64_inf_left _ (isFin_zero64 _), msb_inf64, msb_zero64]
  case zeroDivZero => rw [eq_zero64_of_isZero hx, eq_zero64_of_isZero hy, div64_zero_zero, b64_nan64]
  case infDivInf => rw [eq_inf64_of_inf hx, eq_inf64_of_inf hy, div64_inf_inf, b64_nan64]
  case divInf => rw [eq_inf64_of_inf hy, div64_inf_right hx, msb_inf64]
  case zeroDiv =>
    rw [eq_zero64_of_isZero hx, msb_zero64]
    rcases finite_or_eq_inf64 hnan h0 with ⟨hy, hy0⟩ | hy
    · exact div64_zero_left hy hy0
    · rw [hy, div64_inf_right (isFin_zero64 _), msb_inf64, msb_zero64]
  case zeroMulInf =>
    rw [mul64_comm y x, and_self, mul64_zero_inf hx hy, b64_nan64]
  case mulInf =>
    rw [mul64_comm y x, and_self, eq_inf64_of_inf hy, msb_inf64]
    rcases finite_or_eq_inf64 hnan h0 with ⟨hx, hx0⟩ | hx
    · exact mul64_inf_right hx hx0 t
    · rw [hx, mul64_inf_inf, msb_inf64]
  case zeroMul =>
    rw [mul64_comm x y, and_self, eq_zero64_of_isZero hx, mul64_zero_right hy, msb_zero64, bne_comm]
  case infAddInf => rw [eq_inf64_of_inf hx, eq_inf64_of_inf hy, add64_inf_neg, b64_nan64]
  case cancel =>
    exact ⟨add64_of_num64_add_eq_zero hx hy (num64_ne_zero hx h0),
      fun h => sub64_of_num64_eq hx hy (sub_eq_zero.mp h) (num64_ne_zero hx h0)⟩

end Sys2Proof.Machine
end

section
/-! The size and the sign of the kernels' results: they are finite and small, the cosine kernel is not negative and the
sine kernel has its argument's sign, so the sine of a frequency between 0 and 1/2 is not negative (R70 to R73). -/

namespace Sys2Proof.Machine

open Sys2Proof

/-! ### Bounds that are numbers of the format -/

/-- Rounding does not pass a dyadic number from below, and does not overflow below one. -/
theorem Rounded64.abs_le_dyadic {x b : ℚ} {w : Word64} (h : Rounded64 x w) (hb : Dyadic64 b)
    (hover : b < binary64.overflow) (hle : |x| ≤ b) : (b64 w).isFin = true ∧ |num64 w| ≤ b := by
  have hself : |b| = b := abs_of_nonneg ((abs_nonneg x).trans hle)
  obtain ⟨y, hy, hyb⟩ := hb.exists_word (by rwa [hself])
  rw [hself] at hyb
  exact hyb ▸ h.abs_le hy (hyb ▸ hle)

/-- Rounding does not pass a dyadic number from above. -/
theorem Rounded64.dyadic_le_abs {x b : ℚ} {w : Word64} (h : Rounded64 x w) (hw : (b64 w).isFin = true)
    (hb : Dyadic64 b) (h0 : 0 ≤ b) (hle : b ≤ |x|) : b ≤ |num64 w| := by
  have hself : |b| = b := abs_of_nonneg h0
  obtain ⟨y, hy, hyb⟩ := hb.exists_word (by rw [hself]; exact lt_of_le_of_lt hle (h.isFin_iff.mp hw))
  rw [hself] at hyb
  exact hyb ▸ h.le_abs hw hy (hyb ▸ hle)

theorem dyadic64_two_pow {e : ℤ} (he : -1074 ≤ e) : Dyadic64 (2 ^ e) := ⟨1, e, by decide, he, by simp⟩

/-- Whole numbers of sixteenths. -/
theorem dyadic64_sixteenths {x : ℚ} (n : ℤ) (h : |n| < 2 ^ 53) (hx : x = n / 16) : Dyadic64 x :=
  ⟨n, -4, h, by decide, by rw [hx]; norm_num [div_eq_mul_inv]⟩

theorem lt_overflow_of_le_two {b : ℚ} (h : b ≤ 2) : b < binary64.overflow :=
  lt_of_le_of_lt (h.trans (by norm_num)) (two_pow_lt_overflow (k := 1) (by decide))

/-! ### Horner's rule near 1 -/

/-- The number 1/2. -/
def half64 : Word64 := 0x3FE0000000000000

theorem abs_num64_half64 : |num64 half64| = 1 / 2 := by
  have h : b64 half64 = .fin false (2 ^ 52) (-53) := by decide
  rw [num64, h, abs_toRat_fin]
  norm_num

/-- A product of Horner's rule in a square of at most 5/8. -/
theorem horner_product_bound {x2 p : Word64} (hx2 : (b64 x2).isFin = true) (hx2le : |num64 x2| ≤ 5 / 8)
    (hp : (b64 p).isFin = true) (hple : |num64 p| ≤ 3 / 2) :
    (b64 (mul64 p x2)).isFin = true ∧ |num64 (mul64 p x2)| ≤ 15 / 16 := by
  have hdyadic : Dyadic64 (15 / 16) := dyadic64_sixteenths 15 (by decide) (by norm_num)
  refine (rounded64_mul64 hp hx2).abs_le_dyadic hdyadic (lt_overflow_of_le_two (by norm_num)) ?_
  rw [abs_mul]
  calc |num64 p| * |num64 x2| ≤ 3 / 2 * (5 / 8) := mul_le_mul hple hx2le (abs_nonneg _) (by norm_num)
    _ = 15 / 16 := by norm_num

/-- In a square of at most 5/8, coefficients of at most 1/2 keep the sum within 3/2: `3/2 · 5/8 + 1/2 ≤ 3/2`. -/
theorem horner_bound {x2 : Word64} (hx2 : (b64 x2).isFin = true) (hx2le : |num64 x2| ≤ 5 / 8) {cs : List Word64}
    (hcs : ∀ c ∈ cs, c.toNat % 2 ^ 63 ≤ half64.toNat % 2 ^ 63) {p : Word64} (hp : (b64 p).isFin = true)
    (hple : |num64 p| ≤ 3 / 2) : (b64 (horner x2 p cs)).isFin = true ∧ |num64 (horner x2 p cs)| ≤ 3 / 2 := by
  induction cs generalizing p with
  | nil => exact ⟨hp, hple⟩
  | cons c cs ih =>
    obtain ⟨ht, htle⟩ := horner_product_bound hx2 hx2le hp hple
    obtain ⟨hc, hcle⟩ := abs_num64_le_of_mag_le (y := half64) (by decide) (hcs c List.mem_cons_self)
    rw [abs_num64_half64] at hcle
    have hdyadic : Dyadic64 (3 / 2) := dyadic64_sixteenths 24 (by decide) (by norm_num)
    obtain ⟨hs, hsle⟩ := (rounded64_add64 ht hc).abs_le_dyadic hdyadic (lt_overflow_of_le_two (by norm_num))
      ((abs_add_le _ _).trans (by linarith))
    exact ih (fun c' hc' => hcs c' (List.mem_cons_of_mem c hc')) hs hsle

theorem horner_append (x2 p c : Word64) (cs : List Word64) :
    horner x2 p (cs ++ [c]) = add64 (mul64 (horner x2 p cs) x2) c := by
  induction cs generalizing p with
  | nil => rfl
  | cons d cs ih => exact ih _

/-- A kernel's polynomial, which ends with 1.0, adds to 1 a term of at most 15/16: it is not negative. -/
theorem horner_one {x2 : Word64} (hx2 : (b64 x2).isFin = true) (hx2le : |num64 x2| ≤ 5 / 8) {p : Word64}
    {cs : List Word64} (hcs : ∀ c ∈ p :: cs, c.toNat % 2 ^ 63 ≤ half64.toNat % 2 ^ 63) :
    ((b64 (horner x2 p (cs ++ [one64]))).isFin = true ∧ |num64 (horner x2 p (cs ++ [one64]))| ≤ 2) ∧
      (horner x2 p (cs ++ [one64])).msb = false := by
  obtain ⟨hp, hple⟩ := abs_num64_le_of_mag_le (y := half64) (by decide) (hcs p List.mem_cons_self)
  rw [abs_num64_half64] at hple
  obtain ⟨hq, hqle⟩ := horner_bound hx2 hx2le (fun c hc => hcs c (List.mem_cons_of_mem p hc)) hp (by linarith)
  obtain ⟨ht, htle⟩ := horner_product_bound hx2 hx2le hq hqle
  have hround := rounded64_add64 (y := one64) ht (by decide)
  rw [← horner_append, num64_one64] at hround
  obtain ⟨hlo, hhi⟩ := abs_le.mp htle
  have hbound := hround.abs_le_nat (n := 2) (by decide) (abs_le.mpr ⟨by push_cast; linarith, by push_cast; linarith⟩)
  exact ⟨by exact_mod_cast hbound, hround.2.2 (by linarith)⟩

/-! ### The kernels -/

/-- A kernel's square is at most 5/8: `(π/4)² < 5/8`. -/
theorem square_le_five_eighths {x : Word64} (hx : (b64 x).isFin = true) (hle : |num64 x| ≤ num64 0x3FE921FB54442D18) :
    (b64 (mul64 x x)).isFin = true ∧ |num64 (mul64 x x)| ≤ 5 / 8 := by
  have hdyadic : Dyadic64 (5 / 8) := dyadic64_sixteenths 10 (by decide) (by norm_num)
  rw [num64_quarterPi, num64_halfPi] at hle
  refine (rounded64_mul64 hx hx).abs_le_dyadic hdyadic (lt_overflow_of_le_two (by norm_num)) ?_
  rw [abs_mul]
  exact (mul_le_mul hle hle (abs_nonneg _) (by norm_num)).trans (by norm_num)

/-- The polynomial of the sine kernel is finite, at most 2 and not negative. -/
theorem sinHorner_bound {x : Word64} (hx : (b64 x).isFin = true) (hle : |num64 x| ≤ num64 0x3FE921FB54442D18) :
    ((b64 (horner (mul64 x x) sinFirst sinRest)).isFin = true ∧ |num64 (horner (mul64 x x) sinFirst sinRest)| ≤ 2) ∧
      (horner (mul64 x x) sinFirst sinRest).msb = false := by
  obtain ⟨hx2, hx2le⟩ := square_le_five_eighths hx hle
  exact horner_one hx2 hx2le (p := sinFirst) (cs := sinRest.dropLast) (by simp [sinFirst, sinRest, half64])

theorem cosKernel_bound {x : Word64} (hx : (b64 x).isFin = true) (hle : |num64 x| ≤ num64 0x3FE921FB54442D18) :
    ((b64 (cosKernel x)).isFin = true ∧ |num64 (cosKernel x)| ≤ 2) ∧ (cosKernel x).msb = false := by
  obtain ⟨hx2, hx2le⟩ := square_le_five_eighths hx hle
  exact horner_one hx2 hx2le (p := cosFirst) (cs := cosRest.dropLast) (by simp [cosFirst, cosRest, half64])

theorem sinKernel_bound {x : Word64} (hx : (b64 x).isFin = true) (hle : |num64 x| ≤ num64 0x3FE921FB54442D18) :
    ((b64 (sinKernel x)).isFin = true ∧ |num64 (sinKernel x)| ≤ 2) ∧ (sinKernel x).msb = x.msb := by
  obtain ⟨⟨hp, hple⟩, hmsb⟩ := sinHorner_bound hx hle
  have hone : |num64 x| ≤ 1 := hle.trans (by rw [num64_quarterPi, num64_halfPi]; norm_num)
  have hbound := (rounded64_mul64 hx hp).abs_le_nat (n := 2) (by decide) (by
    rw [abs_mul]
    exact (mul_le_of_le_one_left (abs_nonneg _) hone).trans hple)
  refine ⟨by exact_mod_cast hbound, ?_⟩
  rw [sinKernel, mul64_msb hx hp, hmsb, Bool.bne_false]

/-! ### The pair -/

/-- The quadrant selects from the kernels' results and their negations. -/
theorem quadrant_bound {s c : Word64} {b : ℚ} (hs : (b64 s).isFin = true ∧ |num64 s| ≤ b)
    (hc : (b64 c).isFin = true ∧ |num64 c| ≤ b) (k : ℤ) :
    ((b64 (quadrant k s c).1).isFin = true ∧ |num64 (quadrant k s c).1| ≤ b) ∧
      ((b64 (quadrant k s c).2).isFin = true ∧ |num64 (quadrant k s c).2| ≤ b) := by
  have neg {x : Word64} (hx : (b64 x).isFin = true ∧ |num64 x| ≤ b) :
      (b64 (neg64 x)).isFin = true ∧ |num64 (neg64 x)| ≤ b := by
    rwa [isFin_neg64, num64_neg64, abs_neg]
  obtain h | h | h | h : k % 4 = 0 ∨ k % 4 = 1 ∨ k % 4 = 2 ∨ k % 4 = 3 := by omega
  · rw [quadrant_zero h]
    exact ⟨hs, hc⟩
  · rw [quadrant_one h]
    exact ⟨hc, neg hs⟩
  · rw [quadrant_two h]
    exact ⟨neg hs, neg hc⟩
  · rw [quadrant_three h]
    exact ⟨neg hc, hs⟩

/-- The scaled argument of a finite u whose 4u has an integer rounding is within the kernels' range. -/
theorem scaled_reduced_bound {v : Word64} {k : ℤ} (h : rneInt v = some k) :
    (b64 (mul64 (reduced v k) halfPi)).isFin = true ∧
      |num64 (mul64 (reduced v k) halfPi)| ≤ num64 0x3FE921FB54442D18 := by
  obtain ⟨hd, hdnum⟩ := reduced_exact h
  exact scaled_bound hd (hdnum ▸ (rneInt_nearest h).1)

theorem trigTurns_bound {u : Word64} {k : ℤ} (hu : (b64 u).isFin = true) (h : rneInt (mul64 four64 u) = some k) :
    ((b64 (trigTurns u).1).isFin = true ∧ |num64 (trigTurns u).1| ≤ 2) ∧
      ((b64 (trigTurns u).2).isFin = true ∧ |num64 (trigTurns u).2| ≤ 2) := by
  obtain ⟨hx, hxle⟩ := scaled_reduced_bound h
  rw [trigTurns_of_rneInt hu h]
  exact quadrant_bound (sinKernel_bound hx hxle).1 (cosKernel_bound hx hxle).1 k

/-- For FS at least 1 and a finite FREQ, sn and cs are finite and at most 2. -/
theorem trig_bound {f r : Word32} (hr : r ≠ 0) (hf : (b32 f).isFin = true) :
    ((b64 (trig (freqValue f) (fsValue r)).1).isFin = true ∧ |num64 (trig (freqValue f) (fsValue r)).1| ≤ 2) ∧
      ((b64 (trig (freqValue f) (fsValue r)).2).isFin = true ∧ |num64 (trig (freqValue f) (fsValue r)).2| ≤ 2) := by
  obtain ⟨hu, hlt⟩ := turns_finite hr hf
  obtain ⟨k, hk⟩ := (rneInt_isSome _).mpr (mul64_four64_isFin hu hlt)
  exact trigTurns_bound hu hk

/-- For 0 < u < 1/2 the quadrant is 0, 1 or 2, and each selects a sine that is not negative. -/
theorem trigTurns_sine_msb {u : Word64} (hu : (b64 u).isFin = true) (hpos : 0 < num64 u) (hlt : num64 u < 1 / 2) :
    (trigTurns u).1.msb = false := by
  have hfin := mul64_four64_isFin hu (by rw [abs_of_pos hpos]; exact hlt.trans (by norm_num))
  have hv := mul64_four64_exact hu hfin
  obtain ⟨k, hk⟩ := (rneInt_isSome _).mpr hfin
  obtain ⟨hd, hdnum⟩ := reduced_exact hk
  obtain ⟨hx, hxle⟩ := scaled_reduced_bound hk
  have hsin : (sinKernel (mul64 (reduced (mul64 four64 u) k) halfPi)).msb = (reduced (mul64 four64 u) k).msb :=
    (sinKernel_bound hx hxle).2.trans ((mul64_msb hd isFin_halfPi).trans (Bool.bne_false _))
  obtain ⟨hlo, hhi⟩ := abs_le.mp (rneInt_nearest hk).1
  have hk0 : -1 < k := by
    have : ((-1 : ℤ) : ℚ) < k := by push_cast; linarith
    exact_mod_cast this
  have hk3 : k < 3 := by
    have : (k : ℚ) < (3 : ℤ) := by push_cast; linarith
    exact_mod_cast this
  rw [trigTurns_of_rneInt hu hk]
  obtain rfl | rfl | rfl : k = 0 ∨ k = 1 ∨ k = 2 := by omega
  · have hd0 : 0 < num64 (reduced (mul64 four64 u) 0) := by rw [hdnum, hv]; push_cast; linarith
    rw [quadrant_zero (by decide)]
    exact hsin.trans ((msb_eq_decide_neg hd0.ne').trans (decide_eq_false hd0.not_gt))
  · rw [quadrant_one (by decide)]
    exact (cosKernel_bound hx hxle).2
  · have hd0 : num64 (reduced (mul64 four64 u) 2) < 0 := by rw [hdnum, hv]; push_cast; linarith
    rw [quadrant_two (by decide), neg64_msb, hsin, msb_eq_decide_neg hd0.ne, decide_eq_true hd0, Bool.not_true]

end Sys2Proof.Machine
end

section
/-! The coefficients as a function of alpha, cs and Q, and what follows from its shape alone: NaN inputs, the symmetry of
b0 and b2, and the dependence on u (R89 to R92, R94). -/

namespace Sys2Proof.Machine

open Sys2Proof

/-! ### The formatter -/

theorem fmt64_of_nan {v : Word64} (h : b64 v = .nan) : fmt64 v = nan64 := (fmt64_eq v).trans (if_pos h)

theorem fmt64_of_not_nan {v : Word64} (h : b64 v ≠ .nan) : fmt64 v = v := (fmt64_eq v).trans (if_neg h)

theorem fmt64_of_isFin {v : Word64} (h : (b64 v).isFin = true) : fmt64 v = v :=
  fmt64_of_not_nan fun hnan => by simp [hnan, Value.isFin] at h

@[simp] theorem fmt64_nan64 : fmt64 nan64 = nan64 := fmt64_of_nan b64_nan64

@[simp] theorem fmt64_inf64 (s : Bool) : fmt64 (inf64 s) = inf64 s := fmt64_of_not_nan (by simp)

@[simp] theorem fmt64_zero64 (s : Bool) : fmt64 (zero64 s) = zero64 s := fmt64_of_isFin (isFin_zero64 s)

/-! ### From alpha to the coefficients -/

/-- The coefficients from Q, alpha and cs: rules R83 to R89 and the formatter. -/
def coefsOfAlpha (Qd alpha cs : Word64) : CoefSet where
  b0 := fmt64 (div64 (b0uOf Qd alpha) (a0Of alpha))
  b1 := fmt64 (div64 (zero64 false) (a0Of alpha))
  b2 := fmt64 (div64 (neg64 (b0uOf Qd alpha)) (a0Of alpha))
  a1 := fmt64 (div64 (a1uOf cs) (a0Of alpha))
  a2 := fmt64 (div64 (a2uOf alpha) (a0Of alpha))

theorem coefs_eq (f q r : Word32) : coefs f q r = coefsOfAlpha (qValue q)
    (alphaOf (trig (freqValue f) (fsValue r)).1 (qValue q)) (trig (freqValue f) (fsValue r)).2 := rfl

/-- A NaN alpha makes a0 NaN, and so every quotient. -/
theorem coefsOfAlpha_nan {alpha : Word64} (h : b64 alpha = .nan) (Qd cs : Word64) :
    coefsOfAlpha Qd alpha cs = ⟨nan64, nan64, nan64, nan64, nan64⟩ := by
  have ha0 : b64 (a0Of alpha) = .nan := by rw [a0Of, add64_nan_right _ _ h, b64_nan64]
  simp [coefsOfAlpha, div64_nan_right _ _ ha0]

/-- Q is read by the conversion that reads FREQ (R66, R80). -/
theorem qValue_eq_freqValue (q : Word32) : qValue q = freqValue q := rfl

/-- A NaN sine or a NaN Q makes alpha NaN (R82). -/
theorem alphaOf_nan {sn Qd : Word64} (h : b64 sn = .nan ∨ b64 Qd = .nan) : b64 (alphaOf sn Qd) = .nan := by
  rcases h with h | h
  · rw [alphaOf, div64_nan_left _ _ h, b64_nan64]
  · rw [alphaOf, mul64_nan_right _ _ h, div64_nan_right _ _ b64_nan64, b64_nan64]

theorem coefs_of_nan_input {f q r : Word32} (h : r = 0 ∨ (b32 f).isFin = false ∨ b32 q = .nan) :
    coefs f q r = ⟨nan64, nan64, nan64, nan64, nan64⟩ := by
  refine coefsOfAlpha_nan (alphaOf_nan ?_) _ _
  rcases or_assoc.mpr h with hu | hq
  · exact .inl (nonFiniteTurnsGiveNaN.2 f r hu).1
  · exact .inr (by rw [qValue_eq_freqValue, freqValue_nan hq, b64_nan64])

/-- Settles O46: sn or Q is NaN, so alpha is (`alphaOf_nan`), so the five quotients are (`coefsOfAlpha_nan`). -/
theorem naNInputsGiveFiveNaNs : Obligations.NaNInputsGiveFiveNaNs := by
  intro f q r h
  rw [coefs_of_nan_input h]
  exact ⟨rfl, by decide⟩

theorem neg64_nan_iff (v : Word64) : b64 (neg64 v) = .nan ↔ b64 v = .nan := by
  rw [b64_neg64]
  cases b64 v <;> simp [Value.flip]

/-- Settles O53: the quotient of the negated b0u is the negated quotient, or both are NaN (`div64_neg_left`). -/
theorem b2IsNegatedB0 : Obligations.B2IsNegatedB0 := by
  intro f q r
  rw [coefs_eq]
  generalize alphaOf _ _ = alpha
  dsimp only [coefsOfAlpha]
  have hcases := div64_neg_left (b0uOf (qValue q) alpha) (a0Of alpha)
  by_cases hb0 : b64 (div64 (b0uOf (qValue q) alpha) (a0Of alpha)) = .nan
  · have hb2 : b64 (div64 (neg64 (b0uOf (qValue q) alpha)) (a0Of alpha)) = .nan := by
      rcases hcases with ⟨-, hnan⟩ | hneg
      · exact hnan
      · rw [hneg, neg64_nan_iff, hb0]
    rw [fmt64_of_nan hb0, fmt64_of_nan hb2]
    exact ⟨fun h => absurd b64_nan64 h, fun _ => ⟨rfl, rfl⟩⟩
  · rw [hcases.resolve_left fun h => hb0 h.1, fmt64_of_not_nan hb0, fmt64_of_not_nan (mt (neg64_nan_iff _).mp hb0)]
    exact ⟨fun _ => rfl, fun h => absurd h hb0⟩

/-! ### Equal ratios -/

/-- Between two numbers as near as each other every number is nearer. -/
theorem abs_sub_lt_of_between {a m b x : ℚ} (ham : a < m) (hmb : m < b) (h : |a - x| = |b - x|) :
    |m - x| < |a - x| :=
  abs_lt.mpr ⟨by linarith [neg_abs_le (a - x)], by linarith [le_abs_self (b - x)]⟩

/-- No magnitude is below another one as near: both would be even, and the one between them nearer. -/
theorem nearestEven_not_lt {x : ℚ} {g g' : Nat} (h : binary64.NearestEven x g) (h' : binary64.NearestEven x g') :
    ¬g < g' := by
  intro hlt
  unfold Format.NearestEven at h h'
  split at h
  · rename_i hover
    rw [if_pos hover] at h'
    omega
  · rename_i hover
    rw [if_neg hover] at h'
    obtain ⟨hg, hnear⟩ := h
    obtain ⟨hg', hnear'⟩ := h'
    have htie := le_antisymm (hnear g' hg').1 (hnear' g hg).1
    have heven := (hnear g' hg').2 htie hlt.ne'
    have heven' := (hnear' g hg).2 htie.symm hlt.ne
    have hbetween := (hnear (g + 1) (by omega)).1
    rw [magNum_eq_unboundedNum _ hg, magNum_eq_unboundedNum _ hg'] at htie
    rw [magNum_eq_unboundedNum _ hg, magNum_eq_unboundedNum _ (by omega)] at hbetween
    exact not_le.mpr (abs_sub_lt_of_between (unboundedNum_strictMono binary64 (show g < g + 1 by omega))
      (unboundedNum_strictMono binary64 (show g + 1 < g' by omega)) htie) hbetween

theorem nearestEven_unique {x : ℚ} {g g' : Nat} (h : binary64.NearestEven x g) (h' : binary64.NearestEven x g') :
    g = g' :=
  le_antisymm (not_lt.mp (nearestEven_not_lt h' h)) (not_lt.mp (nearestEven_not_lt h h'))

/-- A nonzero number has one rounding. -/
theorem Rounded64.unique {x : ℚ} {w w' : Word64} (h : Rounded64 x w) (h' : Rounded64 x w') (h0 : x ≠ 0) : w = w' := by
  obtain ⟨hmag, hneg, hpos⟩ := h
  obtain ⟨hmag', hneg', hpos'⟩ := h'
  have hsign : w.msb = w'.msb := by
    rcases lt_or_gt_of_ne h0 with hx | hx
    · rw [hneg hx, hneg' hx]
    · rw [hpos hx, hpos' hx]
  rw [← pack64_self w, ← pack64_self w', nearestEven_unique hmag hmag', hsign]

/-- `⊘` is correctly rounded, so equal ratios of the same sign bit have one quotient (R94). -/
theorem turns_eq_of_ratio {f f' r r' : Word32} (hr : r ≠ 0) (hr' : r' ≠ 0) (hf : (b32 f).isFin = true)
    (hf' : (b32 f').isFin = true) (hsign : f.msb = f'.msb) (h : num32 f * r'.toNat = num32 f' * r.toNat) :
    turns (freqValue f) (fsValue r) = turns (freqValue f') (fsValue r') := by
  have hrate : (r.toNat : ℚ) ≠ 0 := by linarith [one_le_rate hr]
  have hrate' : (r'.toNat : ℚ) ≠ 0 := by linarith [one_le_rate hr']
  have hratio : num32 f / r.toNat = num32 f' / r'.toNat := (div_eq_div_iff hrate hrate').mpr h
  have hzero {g : Word32} (hg : (b32 g).isFin = true) (h0 : num32 g = 0) : (b32 g).isZero = true := by
    by_contra hne
    exact num32_ne_zero hg (Bool.eq_false_iff.mpr hne) h0
  by_cases h0 : num32 f = 0
  · have h0' : num32 f' = 0 := by
      rw [h0, zero_mul] at h
      exact (mul_eq_zero.mp h.symm).resolve_right hrate
    rw [turns_zero hr (hzero hf h0), turns_zero hr' (hzero hf' h0'), hsign]
  · have hround' := turns_rounded hr' hf'
    rw [← hratio] at hround'
    exact (turns_rounded hr hf).unique hround' (div_ne_zero h0 hrate)

/-- Settles O54: FREQ and FS enter through u only, and `turns_eq_of_ratio` gives the same u. -/
theorem equalRatiosGiveEqualCoefficients : Obligations.EqualRatiosGiveEqualCoefficients := by
  have through_turns {f f' r r' : Word32} (q : Word32)
      (h : turns (freqValue f) (fsValue r) = turns (freqValue f') (fsValue r')) : coefs f q r = coefs f' q r' := by
    rw [coefs_eq, coefs_eq, trig, trig, h]
  refine ⟨fun f f' q r r' h => through_turns q h, fun f f' q r r' hr hr' hf hf' hsign h => ?_⟩
  have hturns := turns_eq_of_ratio hr hr' hf hf' hsign h
  exact ⟨hturns, through_turns q hturns⟩

end Sys2Proof.Machine
end

section
/-! Zero and infinite alpha, alpha = −1, and the inputs that have them: the rows of R92 with a zero or infinite Q, the row
with a zero a0, and the closed forms of R93. -/

namespace Sys2Proof.Machine

open Sys2Proof

/-! ### The mask -/

@[simp] theorem isNonFinite64_inf64 (s : Bool) : isNonFinite64 (inf64 s) = true := by cases s <;> decide

@[simp] theorem isNonFinite64_zero64 (s : Bool) : isNonFinite64 (zero64 s) = false := by cases s <;> decide

@[simp] theorem isNonFinite64_nan64 : isNonFinite64 nan64 = true := by decide

theorem isNonFinite64_of_isFin {w : Word64} (h : (b64 w).isFin = true) : isNonFinite64 w = false := by
  rw [isNonFinite64_eq, h, Bool.not_true]

/-! ### Twice a number -/

theorem num64_two64 : num64 two64 = 2 := by
  have h : b64 two64 = .fin false (2 ^ 52) (-51) := by decide
  rw [num64_of_fin h]
  norm_num

/-- The product with 2 is exact where it does not overflow (R81, R87). -/
theorem mul64_two64_exact {x : Word64} (hx : (b64 x).isFin = true) (hlt : |num64 x| < 2 ^ 128) :
    (b64 (mul64 two64 x)).isFin = true ∧ num64 (mul64 two64 x) = 2 * num64 x ∧ (mul64 two64 x).msb = x.msb := by
  have hround := rounded64_mul64 (x := two64) (by decide) hx
  have hdyadic := (dyadic64_num64 x).mul_two_pow 1
  rw [num64_two64] at hround
  rw [pow_one] at hdyadic
  have hfin := hround.isFin_iff.mpr (by
    rw [abs_mul, abs_of_pos two_pos]
    calc 2 * |num64 x| < 2 ^ 129 := by linarith
      _ < binary64.overflow := two_pow_lt_overflow (by decide))
  exact ⟨hfin, hround.exact hdyadic hfin, (mul64_msb (by decide) hx).trans (Bool.false_bne _)⟩

/-- a1u is exactly −2cs, with the inverse of the sign bit of cs (R87). -/
theorem a1uOf_exact {cs : Word64} (hc : (b64 cs).isFin = true) (hle : |num64 cs| ≤ 2) :
    (b64 (a1uOf cs)).isFin = true ∧ num64 (a1uOf cs) = -(2 * num64 cs) ∧ (a1uOf cs).msb = !cs.msb := by
  obtain ⟨hfin, hnum, hmsb⟩ := mul64_two64_exact hc (lt_of_le_of_lt hle (by norm_num))
  exact ⟨(isFin_neg64 _).trans hfin, by rw [a1uOf, num64_neg64, hnum], by rw [a1uOf, neg64_msb, hmsb]⟩

/-- Q widens exactly, and twoQ is exactly 2Q (R80, R81). -/
theorem qValue_exact {q : Word32} (hq : (b32 q).isFin = true) :
    ((b64 (qValue q)).isFin = true ∧ num64 (qValue q) = num32 q ∧ (qValue q).msb = q.msb) ∧
      (b64 (mul64 two64 (qValue q))).isFin = true ∧ num64 (mul64 two64 (qValue q)) = 2 * num32 q ∧
      (mul64 two64 (qValue q)).msb = q.msb := by
  have hnan : b32 q ≠ .nan := fun h => by simp [h, Value.isFin] at hq
  obtain ⟨hQ, hnum⟩ := freqValue_exact hq
  have hmsb := freqValue_msb hnan
  obtain ⟨htwo, htwonum, htwomsb⟩ := mul64_two64_exact hQ (hnum ▸ abs_num32_lt hq)
  exact ⟨⟨hQ, hnum, hmsb⟩, htwo, hnum ▸ htwonum, htwomsb.trans hmsb⟩

/-! ### Alpha for each class of Q -/

theorem alphaOf_zero_zero {sn : Word64} (hs : (b64 sn).isZero = true) (t : Bool) :
    b64 (alphaOf sn (zero64 t)) = .nan := by
  rw [alphaOf, mul64_zero_right (by decide), eq_zero64_of_isZero hs, div64_zero_zero, b64_nan64]

/-- A zero Q makes alpha infinite at a nonzero sine (R82). -/
theorem alphaOf_zero_right {sn : Word64} (hs : (b64 sn).isFin = true) (h0 : num64 sn ≠ 0) (t : Bool) :
    alphaOf sn (zero64 t) = inf64 (sn.msb != t) := by
  have htwo : mul64 two64 (zero64 t) = zero64 t := by cases t <;> decide
  rw [alphaOf, htwo, div64_zero_right hs h0]

/-- An infinite Q makes alpha a zero (R82). -/
theorem alphaOf_inf_right {sn : Word64} (hs : (b64 sn).isFin = true) (t : Bool) :
    alphaOf sn (inf64 t) = zero64 (sn.msb != t) := by
  have htwo : mul64 two64 (inf64 t) = inf64 t := by cases t <;> decide
  rw [alphaOf, htwo, div64_inf_right hs]

/-- At a zero sine alpha is a zero too, for a finite nonzero Q (R82). -/
theorem alphaOf_zero_left {q : Word32} (hq : (b32 q).isFin = true) (h0 : (b32 q).isZero = false) (s : Bool) :
    alphaOf (zero64 s) (qValue q) = zero64 (s != q.msb) := by
  obtain ⟨-, htwo, htwonum, htwomsb⟩ := qValue_exact hq
  have htwo0 : num64 (mul64 two64 (qValue q)) ≠ 0 := htwonum ▸ mul_ne_zero two_ne_zero (num32_ne_zero hq h0)
  rw [alphaOf, div64_zero_left htwo htwo0, htwomsb]

/-! ### The coefficients for each special alpha -/

/-- A nonzero number of the format is its own rounding. -/
theorem Rounded64.eq_self {x w : Word64} (h : Rounded64 (num64 x) w) (hx : (b64 x).isFin = true) (h0 : num64 x ≠ 0) :
    w = x := by
  have hfin := h.isFin_iff.mpr (abs_num64_lt_overflow hx)
  have hnum := h.exact (dyadic64_num64 x) hfin
  exact eq_of_num64_eq hfin hx hnum (hnum ▸ h0)

theorem num64_one64_ne_zero : num64 one64 ≠ 0 := by
  rw [num64_one64]
  exact one_ne_zero

/-- Dividing by 1 changes no number (R89). -/
theorem div64_one64 {x : Word64} (hx : (b64 x).isFin = true) : div64 x one64 = x := by
  by_cases h0 : num64 x = 0
  · rw [eq_zero64_of_num64_eq_zero hx h0, div64_zero_left (by decide) num64_one64_ne_zero]
    exact congrArg zero64 (Bool.bne_false _)
  · have hround := rounded64_div64 (y := one64) hx (by decide) num64_one64_ne_zero
    rw [num64_one64, div_one] at hround
    exact hround.eq_self hx h0

/-- Adding a zero changes no nonzero number. -/
theorem add64_zero_right {x : Word64} (hx : (b64 x).isFin = true) (h0 : num64 x ≠ 0) (s : Bool) :
    add64 x (zero64 s) = x := by
  have hround := rounded64_add64 hx (isFin_zero64 s)
  rw [num64_zero64, add_zero] at hround
  exact hround.eq_self hx h0

/-- A zero alpha makes a0 and a2u 1. -/
theorem coefsOfAlpha_zero {cs : Word64} (hc : (b64 cs).isFin = true) (hle : |num64 cs| ≤ 2) (Qd : Word64) (s : Bool) :
    coefsOfAlpha Qd (zero64 s) cs = ⟨fmt64 (div64 (mul64 Qd (zero64 s)) one64), zero64 false,
      fmt64 (div64 (neg64 (mul64 Qd (zero64 s))) one64), a1uOf cs, one64⟩ := by
  have ha0 : a0Of (zero64 s) = one64 := add64_zero_right (by decide) num64_one64_ne_zero s
  have ha2u : a2uOf (zero64 s) = one64 := by
    rw [a2uOf, sub64, neg64_zero64, add64_zero_right (by decide) num64_one64_ne_zero]
  have ha1u := (a1uOf_exact hc hle).1
  have hone : (b64 one64).isFin = true := by decide
  simp only [coefsOfAlpha, b0uOf, ha0, ha2u]
  rw [div64_one64 ha1u, div64_one64 hone, div64_one64 (isFin_zero64 false), fmt64_of_isFin ha1u, fmt64_of_isFin hone,
    fmt64_zero64]

/-- An infinite alpha makes a0 that infinity and a2u the opposite one. -/
theorem coefsOfAlpha_inf {cs : Word64} (hc : (b64 cs).isFin = true) (hle : |num64 cs| ≤ 2) (s t : Bool) :
    coefsOfAlpha (zero64 t) (inf64 s) cs = ⟨nan64, zero64 s, nan64, zero64 (!cs.msb != s), nan64⟩ := by
  have ha0 : a0Of (inf64 s) = inf64 s := add64_inf_right (by decide) s
  have ha2u : a2uOf (inf64 s) = inf64 (!s) := by rw [a2uOf, sub64, neg64_inf64, add64_inf_right (by decide)]
  have hb0u : b0uOf (zero64 t) (inf64 s) = nan64 := mul64_zero_inf (isZero_zero64 t) (b64_inf64 s)
  obtain ⟨ha1u, -, hmsb⟩ := a1uOf_exact hc hle
  have hb2u : b64 (neg64 nan64) = .nan := by decide
  simp only [coefsOfAlpha, ha0, ha2u, hb0u]
  rw [div64_nan_left _ _ b64_nan64, div64_nan_left _ _ hb2u, div64_inf_inf, div64_inf_right ha1u,
    div64_inf_right (isFin_zero64 false), hmsb, msb_zero64, Bool.false_bne, fmt64_nan64, fmt64_zero64, fmt64_zero64,
    Bool.not_bne]

/-- A product of a nonzero number with −1 is finite and nonzero. -/
theorem mul64_neg_one64 {x : Word64} (hx : (b64 x).isFin = true) (h0 : num64 x ≠ 0) :
    (b64 (mul64 x (neg64 one64))).isFin = true ∧ num64 (mul64 x (neg64 one64)) ≠ 0 := by
  have hround := rounded64_mul64 (y := neg64 one64) hx (by decide)
  have habs : |num64 x * num64 (neg64 one64)| = |num64 x| := by rw [num64_neg64, num64_one64, mul_neg_one, abs_neg]
  have hfin := (hround.abs_le hx habs.le).1
  exact ⟨hfin, abs_pos.mp (lt_of_lt_of_le (abs_pos.mpr h0) (hround.le_abs hfin hx habs.ge))⟩

/-- alpha = −1 makes a0 +0 and a2u 2, so every quotient is one by +0. -/
theorem coefsOfAlpha_neg_one {Qd cs : Word64} (hQ : (b64 Qd).isFin = true) (hQ0 : num64 Qd ≠ 0)
    (hc : (b64 cs).isFin = true) (hle : |num64 cs| ≤ 2) :
    coefsOfAlpha Qd (neg64 one64) cs = ⟨inf64 (b0uOf Qd (neg64 one64)).msb, nan64,
      inf64 (!(b0uOf Qd (neg64 one64)).msb), if (b64 cs).isZero then nan64 else inf64 (!cs.msb), inf64 false⟩ := by
  have ha0 : a0Of (neg64 one64) = zero64 false := by decide
  have ha2u : div64 (a2uOf (neg64 one64)) (zero64 false) = inf64 false := by decide
  obtain ⟨hb0u, hb0u0⟩ : (b64 (b0uOf Qd (neg64 one64))).isFin = true ∧ num64 (b0uOf Qd (neg64 one64)) ≠ 0 :=
    mul64_neg_one64 hQ hQ0
  have hb2u : (b64 (neg64 (b0uOf Qd (neg64 one64)))).isFin = true := (isFin_neg64 _).trans hb0u
  have hb2u0 : num64 (neg64 (b0uOf Qd (neg64 one64))) ≠ 0 := by rw [num64_neg64]; exact neg_ne_zero.mpr hb0u0
  obtain ⟨ha1u, ha1unum, ha1umsb⟩ := a1uOf_exact hc hle
  have ha1 : fmt64 (div64 (a1uOf cs) (zero64 false)) = if (b64 cs).isZero then nan64 else inf64 (!cs.msb) := by
    split
    · rename_i hzero
      have : num64 (a1uOf cs) = 0 := by rw [ha1unum, ((isZero_iff cs).mp hzero).2, mul_zero, neg_zero]
      rw [eq_zero64_of_num64_eq_zero ha1u this, div64_zero_zero, fmt64_nan64]
    · rename_i hzero
      have : num64 (a1uOf cs) ≠ 0 := by
        rw [ha1unum]
        exact neg_ne_zero.mpr (mul_ne_zero two_ne_zero (num64_ne_zero hc (Bool.eq_false_iff.mpr hzero)))
      rw [div64_zero_right ha1u this, ha1umsb, Bool.bne_false, fmt64_inf64]
  simp only [coefsOfAlpha, ha0, ha2u, ha1]
  rw [div64_zero_right hb0u hb0u0, div64_zero_right hb2u hb2u0, div64_zero_zero, neg64_msb, Bool.bne_false,
    Bool.bne_false, fmt64_inf64, fmt64_inf64, fmt64_inf64, fmt64_nan64]

/-! ### The rows -/

/-- Settles O47: alpha is NaN at a zero sine (`alphaOf_zero_zero`) and otherwise infinite (`alphaOf_zero_right`). -/
theorem zeroQGivesSignedZerosAndNaNs : Obligations.ZeroQGivesSignedZerosAndNaNs := by
  intro f q r hr hf hq t
  obtain ⟨⟨hs, -⟩, hc, hcle⟩ := trig_bound hr hf
  have hQ : qValue q = zero64 q.msb := freqValue_zero hq
  rw [coefs_eq, hQ]
  refine ⟨fun h0 => coefsOfAlpha_nan (alphaOf_zero_zero h0 q.msb) _ _, fun h0 => ?_⟩
  rw [alphaOf_zero_right hs (num64_ne_zero hs h0), coefsOfAlpha_inf hc hcle]
  exact ⟨rfl, by simp [CoefSet.nfMask]⟩

/-- Settles O48: alpha is a zero (`alphaOf_inf_right`), and its product with Q is NaN. -/
theorem infiniteQGivesUnityA2 : Obligations.InfiniteQGivesUnityA2 := by
  intro f q r neg hr hf hq
  obtain ⟨⟨hs, -⟩, hc, hcle⟩ := trig_bound hr hf
  have hQ : qValue q = inf64 neg := freqValue_inf hq
  have hb0u (s : Bool) : mul64 (inf64 neg) (zero64 s) = nan64 := by
    rw [mul64_comm]
    exact mul64_zero_inf (isZero_zero64 s) (b64_inf64 neg)
  have hnan : b64 (neg64 nan64) = .nan := by decide
  have hone : isNonFinite64 one64 = false := by decide
  rw [coefs_eq, hQ, alphaOf_inf_right hs, coefsOfAlpha_zero hc hcle, hb0u, div64_nan_left _ _ b64_nan64,
    div64_nan_left _ _ hnan, fmt64_nan64]
  exact ⟨rfl, by simp [CoefSet.nfMask, isNonFinite64_of_isFin (a1uOf_exact hc hcle).1, hone]⟩

/-- A finite nonzero alpha needs FS at least 1, a finite FREQ and a finite nonzero Q: each other class makes it NaN,
infinite or a zero. -/
theorem regular_of_alphaOf {f q r : Word32}
    (hfin : (b64 (alphaOf (trig (freqValue f) (fsValue r)).1 (qValue q))).isFin = true)
    (h0 : num64 (alphaOf (trig (freqValue f) (fsValue r)).1 (qValue q)) ≠ 0) :
    r ≠ 0 ∧ (b32 f).isFin = true ∧ (b32 q).isFin = true ∧ (b32 q).isZero = false := by
  have not_nan : b64 (alphaOf (trig (freqValue f) (fsValue r)).1 (qValue q)) ≠ .nan := fun h => by
    simp [h, Value.isFin] at hfin
  have hin : ¬(r = 0 ∨ (b32 f).isFin = false) := fun h =>
    not_nan (alphaOf_nan (.inl (nonFiniteTurnsGiveNaN.2 f r h).1))
  obtain ⟨hr, hf⟩ := not_or.mp hin
  rw [Bool.not_eq_false] at hf
  have hs := (trig_bound hr hf).1.1
  refine ⟨hr, hf, ?_⟩
  cases hq : b32 q with
  | nan => exact absurd (alphaOf_nan (.inr (by rw [qValue_eq_freqValue, freqValue_nan hq, b64_nan64]))) not_nan
  | inf t =>
    rw [qValue_eq_freqValue, freqValue_inf hq, alphaOf_inf_right hs] at h0
    exact absurd (num64_zero64 _) h0
  | fin t n g =>
    refine ⟨rfl, Bool.eq_false_iff.mpr fun hzero => ?_⟩
    rw [← hq] at hzero
    rw [qValue_eq_freqValue, freqValue_zero hzero] at hfin not_nan
    by_cases hs0 : (b64 (trig (freqValue f) (fsValue r)).1).isZero = true
    · exact not_nan (alphaOf_zero_zero hs0 _)
    · rw [alphaOf_zero_right hs (num64_ne_zero hs (Bool.eq_false_iff.mpr hs0)), b64_inf64] at hfin
      cases hfin

/-- Settles O49: alpha = −1 needs regular inputs (`regular_of_alphaOf`), and then `coefsOfAlpha_neg_one` divides by
+0. -/
theorem alphaMinusOneGivesInfinities : Obligations.AlphaMinusOneGivesInfinities := by
  intro f q r t alpha b0u halpha
  have hfin : (b64 alpha).isFin = true := by rw [halpha]; decide
  have h0 : num64 alpha ≠ 0 := by rw [halpha, num64_neg64, num64_one64]; norm_num
  obtain ⟨hr, hf, hq, hq0⟩ := regular_of_alphaOf hfin h0
  obtain ⟨-, hc, hcle⟩ := trig_bound hr hf
  obtain ⟨⟨hQ, hQnum, -⟩, -⟩ := qValue_exact hq
  have hcoefs : coefs f q r = coefsOfAlpha (qValue q) (neg64 one64) t.2 := by rw [coefs_eq, ← halpha]
  rw [hcoefs, coefsOfAlpha_neg_one hQ (hQnum ▸ num32_ne_zero hq hq0) hc hcle, ← halpha]
  refine ⟨rfl, ?_⟩
  split <;> simp [CoefSet.nfMask]

/-! ### Closed forms -/

/-- At a zero sine b0u is that zero, and a0 and a2u are 1 (R93). -/
theorem coefs_of_zero_sine {f q r : Word32} {s : Bool} {cs : Word64}
    (ht : trig (freqValue f) (fsValue r) = (zero64 s, cs)) (hc : (b64 cs).isFin = true) (hle : |num64 cs| ≤ 2)
    (hq : (b32 q).isFin = true) (h0 : (b32 q).isZero = false) :
    coefs f q r = ⟨zero64 s, zero64 false, zero64 (!s), a1uOf cs, one64⟩ := by
  obtain ⟨⟨hQ, -, hQmsb⟩, -⟩ := qValue_exact hq
  have hb0u : mul64 (qValue q) (zero64 (s != q.msb)) = zero64 s := by
    rw [mul64_zero_right hQ, hQmsb]
    cases s <;> cases q.msb <;> rfl
  rw [coefs_eq, ht, alphaOf_zero_left hq h0, coefsOfAlpha_zero hc hle, hb0u, neg64_zero64,
    div64_one64 (isFin_zero64 s), div64_one64 (isFin_zero64 !s), fmt64_zero64, fmt64_zero64]

theorem trigTurns_zero : trigTurns (zero64 false) = (zero64 false, one64) := by decide +kernel

theorem trigTurns_half : trigTurns half64 = (zero64 true, neg64 one64) := by decide +kernel

/-- Settles O52: both are zero sines (`coefs_of_zero_sine`), with cosines 1 and −1. -/
theorem zeroAndNyquistFrequencyClosedForms : Obligations.ZeroAndNyquistFrequencyClosedForms := by
  refine ⟨fun q r hr hq h0 => ?_, fun f q r hu hq h0 _ => ?_⟩
  · have ht : trig (freqValue 0) (fsValue r) = (zero64 false, one64) := by
      rw [trig, turns_zero hr (by decide)]
      exact trigTurns_zero
    rw [coefs_of_zero_sine ht (by decide) (by rw [num64_one64]; norm_num) hq h0]
    decide
  · have ht : trig (freqValue f) (fsValue r) = (zero64 true, neg64 one64) := by
      rw [trig, hu]
      exact trigTurns_half
    rw [coefs_of_zero_sine ht (by decide) (by rw [num64_neg64, num64_one64]; norm_num) hq h0]
    decide

end Sys2Proof.Machine
end

section
/-! Regular inputs: every term is finite, a0 is at least 2^−53 when it is not zero, and so no quotient overflows (R81 to
R89, the last row of R92); and the valid parameters, which are such inputs (R93). -/

namespace Sys2Proof.Machine

open Sys2Proof

/-! ### Bounds that are powers of two -/

theorem Rounded64.abs_le_two_pow {x : ℚ} {w : Word64} (h : Rounded64 x w) {k : Nat} (hk : k ≤ 1023)
    (hx : |x| ≤ 2 ^ k) : (b64 w).isFin = true ∧ |num64 w| ≤ 2 ^ k := by
  have hdyadic : Dyadic64 ((2 : ℚ) ^ k) := by
    rw [← zpow_natCast]
    exact dyadic64_two_pow (by omega)
  exact h.abs_le_dyadic hdyadic (two_pow_lt_overflow hk) hx

/-- From 2^(52 + i) on a finite word is at the place of 2^i or above, for negative i too. -/
theorem le_exponent {v : Word64} {s : Bool} {m : Nat} {e i : ℤ} (h : b64 v = .fin s m e)
    (hv : (2 : ℚ) ^ (52 + i) ≤ |num64 v|) : i ≤ e := by
  by_contra hlt
  have hm : (m : ℚ) < 2 ^ (53 : ℤ) := by exact_mod_cast (b64_fin_bounds h).1
  have : |num64 v| < 2 ^ (52 + i) := by
    calc |num64 v| = m * 2 ^ e := by rw [num64, h, abs_toRat_fin]
      _ < 2 ^ (53 : ℤ) * 2 ^ e := mul_lt_mul_of_pos_right hm (by positivity)
      _ = 2 ^ (53 + e) := (zpow_add₀ two_ne_zero _ _).symm
      _ ≤ 2 ^ (52 + i) := zpow_le_zpow_right₀ one_le_two (by omega)
  linarith

/-! ### The terms -/

/-- |sn| is at most 2 and |twoQ| at least 2^−148, so alpha does not overflow (R82). -/
theorem alphaOf_bound {sn : Word64} (hs : (b64 sn).isFin = true) (hsle : |num64 sn| ≤ 2) {q : Word32}
    (hq : (b32 q).isFin = true) (h0 : (b32 q).isZero = false) :
    Rounded64 (num64 sn / num64 (mul64 two64 (qValue q))) (alphaOf sn (qValue q)) ∧
      (b64 (alphaOf sn (qValue q))).isFin = true ∧ |num64 (alphaOf sn (qValue q))| ≤ 2 ^ 149 := by
  obtain ⟨-, htwo, htwonum, -⟩ := qValue_exact hq
  have hround := rounded64_div64 hs htwo (htwonum ▸ mul_ne_zero two_ne_zero (num32_ne_zero hq h0))
  refine ⟨hround, hround.abs_le_two_pow (by decide) ?_⟩
  have hlo : (2 : ℚ) / 2 ^ 149 ≤ 2 * |num32 q| := by
    have := le_abs_num32 hq h0
    rw [zpow_neg] at this
    rw [div_eq_mul_inv]
    exact mul_le_mul_of_nonneg_left (by exact_mod_cast this) two_pos.le
  rw [htwonum, abs_div, abs_mul, abs_of_pos (a := (2 : ℚ)) two_pos]
  calc |num64 sn| / (2 * |num32 q|) ≤ 2 / (2 / 2 ^ 149) := div_le_div₀ two_pos.le hsle (by positivity) hlo
    _ = 2 ^ 149 := by norm_num

/-- |Q| is below 2^128 (R83). -/
theorem b0uOf_bound {q : Word32} (hq : (b32 q).isFin = true) {alpha : Word64} (ha : (b64 alpha).isFin = true)
    (hle : |num64 alpha| ≤ 2 ^ 149) : Rounded64 (num64 (qValue q) * num64 alpha) (b0uOf (qValue q) alpha) ∧
      (b64 (b0uOf (qValue q) alpha)).isFin = true ∧ |num64 (b0uOf (qValue q) alpha)| ≤ 2 ^ 277 := by
  obtain ⟨⟨hQ, hQnum, -⟩, -⟩ := qValue_exact hq
  have hround := rounded64_mul64 hQ ha
  refine ⟨hround, hround.abs_le_two_pow (by decide) ?_⟩
  rw [hQnum, abs_mul]
  calc |num32 q| * |num64 alpha| ≤ 2 ^ 128 * 2 ^ 149 :=
        mul_le_mul (abs_num32_lt hq).le hle (abs_nonneg _) (by positivity)
    _ = 2 ^ 277 := (pow_add 2 128 149).symm

theorem a0Of_bound {alpha : Word64} (ha : (b64 alpha).isFin = true) (hle : |num64 alpha| ≤ 2 ^ 149) :
    Rounded64 (1 + num64 alpha) (a0Of alpha) ∧ (b64 (a0Of alpha)).isFin = true := by
  have hround := rounded64_add64 (x := one64) (by decide) ha
  rw [num64_one64] at hround
  refine ⟨hround, (hround.abs_le_two_pow (k := 150) (by decide) ?_).1⟩
  calc |1 + num64 alpha| ≤ |1| + |num64 alpha| := abs_add_le _ _
    _ ≤ 2 ^ 150 := by rw [abs_one]; linarith

theorem a2uOf_bound {alpha : Word64} (ha : (b64 alpha).isFin = true) (hle : |num64 alpha| ≤ 2 ^ 149) :
    Rounded64 (1 - num64 alpha) (a2uOf alpha) ∧ (b64 (a2uOf alpha)).isFin = true ∧
      |num64 (a2uOf alpha)| ≤ 2 ^ 150 := by
  have hround := rounded64_sub64 (x := one64) (by decide) ha
  rw [num64_one64] at hround
  refine ⟨hround, hround.abs_le_two_pow (by decide) ?_⟩
  calc |1 - num64 alpha| ≤ |1| + |num64 alpha| := abs_sub _ _
    _ ≤ 2 ^ 150 := by rw [abs_one]; linarith

/-- From |alpha| = 1/2 on, 1 + alpha is a whole number of 2^−53, so it is 0 or at least that (the argument on row 11). -/
theorem le_abs_one_add {alpha : Word64} (ha : (b64 alpha).isFin = true) (hne : num64 alpha ≠ -1) :
    (2 : ℚ) ^ (-53 : ℤ) ≤ |1 + num64 alpha| := by
  by_cases hsmall : |num64 alpha| < 1 / 2
  · have := (abs_lt.mp hsmall).1
    refine le_trans ?_ (le_abs_self _)
    norm_num
    linarith
  · obtain ⟨s, m, e, hval⟩ := isFin_iff.mp ha
    have he : -53 ≤ e := le_exponent hval (by norm_num at hsmall ⊢; exact hsmall)
    obtain ⟨i, hi⟩ := Int.eq_ofNat_of_zero_le (show 0 ≤ e + 53 by omega)
    have hplace : 1 + num64 alpha = ((2 ^ 53 + signed s m * 2 ^ i : ℤ) : ℚ) * 2 ^ (-53 : ℤ) := by
      obtain rfl : e = i + -53 := by omega
      rw [num64_of_fin hval, zpow_add₀ two_ne_zero, zpow_natCast]
      push_cast
      rw [signed_cast, add_mul, mul_assoc, mul_assoc]
      norm_num
    have hint : (2 ^ 53 + signed s m * 2 ^ i : ℤ) ≠ 0 := by
      intro h0
      rw [h0, Int.cast_zero, zero_mul] at hplace
      exact hne (by linarith)
    have hone : (1 : ℚ) ≤ |((2 ^ 53 + signed s m * 2 ^ i : ℤ) : ℚ)| := by exact_mod_cast Int.one_le_abs hint
    rw [hplace, abs_mul, abs_of_pos (a := (2 : ℚ) ^ (-53 : ℤ)) (by positivity)]
    exact le_mul_of_one_le_left (by positivity) hone

/-- a0 is at least 2^−53 when alpha is not −1 (the argument on row 11). -/
theorem le_abs_a0Of {alpha : Word64} (ha : (b64 alpha).isFin = true) (hle : |num64 alpha| ≤ 2 ^ 149)
    (hne : alpha ≠ neg64 one64) : (2 : ℚ) ^ (-53 : ℤ) ≤ |num64 (a0Of alpha)| := by
  obtain ⟨hround, hfin⟩ := a0Of_bound ha hle
  refine hround.dyadic_le_abs hfin (dyadic64_two_pow (by decide)) (by positivity) (le_abs_one_add ha fun h => hne ?_)
  exact eq_of_num64_eq ha (by decide) (by rw [h, num64_neg64, num64_one64]) (by rw [h]; norm_num)

/-! ### The quotients -/

/-- A quotient by an a0 of at least 2^−53 is at most 2^53 times the term, and the formatter leaves it (R89, R96). -/
theorem quotient_rounded {n a0 : Word64} {k : Nat} (hn : (b64 n).isFin = true) (hle : |num64 n| ≤ 2 ^ k)
    (hk : k ≤ 277) (ha0 : (b64 a0).isFin = true) (hlo : (2 : ℚ) ^ (-53 : ℤ) ≤ |num64 a0|) :
    Rounded64 (num64 n / num64 a0) (fmt64 (div64 n a0)) ∧ (b64 (fmt64 (div64 n a0))).isFin = true := by
  have hround := rounded64_div64 hn ha0 (abs_pos.mp (lt_of_lt_of_le (by positivity) hlo))
  have hfin := (hround.abs_le_two_pow (k := k + 53) (by omega) (by
    rw [abs_div]
    calc |num64 n| / |num64 a0| ≤ 2 ^ k / 2 ^ (-53 : ℤ) := div_le_div₀ (by positivity) hle (by positivity) hlo
      _ = 2 ^ (k + 53) := by rw [zpow_neg, div_inv_eq_mul, pow_add]; norm_cast)).1
  rw [fmt64_of_isFin hfin]
  exact ⟨hround, hfin⟩

/-- The five quotients of a regular alpha are finite, each rounded once (R89). -/
theorem coefsOfAlpha_regular {q : Word32} (hq : (b32 q).isFin = true) {alpha cs : Word64}
    (ha : (b64 alpha).isFin = true) (hle : |num64 alpha| ≤ 2 ^ 149) (hne : alpha ≠ neg64 one64)
    (hc : (b64 cs).isFin = true) (hcle : |num64 cs| ≤ 2) :
    let c := coefsOfAlpha (qValue q) alpha cs
    let a0 := num64 (a0Of alpha)
    (∀ w ∈ [c.b0, c.b1, c.b2, c.a1, c.a2], (b64 w).isFin = true) ∧
      Rounded64 (num64 (b0uOf (qValue q) alpha) / a0) c.b0 ∧ Rounded64 (0 / a0) c.b1 ∧
      Rounded64 (-num64 (b0uOf (qValue q) alpha) / a0) c.b2 ∧ Rounded64 (num64 (a1uOf cs) / a0) c.a1 ∧
      Rounded64 (num64 (a2uOf alpha) / a0) c.a2 := by
  intro c a0
  obtain ⟨-, hb0u, hb0ule⟩ := b0uOf_bound hq ha hle
  obtain ⟨-, ha0⟩ := a0Of_bound ha hle
  obtain ⟨ha1u, ha1unum, -⟩ := a1uOf_exact hc hcle
  obtain ⟨-, ha2u, ha2ule⟩ := a2uOf_bound ha hle
  have hlo := le_abs_a0Of ha hle hne
  have ha1ule : |num64 (a1uOf cs)| ≤ 2 ^ 2 := by
    rw [ha1unum, abs_neg, abs_mul, abs_of_pos two_pos]
    linarith
  obtain ⟨hb0, hb0fin⟩ := quotient_rounded hb0u hb0ule (by decide) ha0 hlo
  obtain ⟨hb1, hb1fin⟩ := quotient_rounded (k := 0) (isFin_zero64 false) (by rw [num64_zero64]; norm_num) (by decide)
    ha0 hlo
  obtain ⟨hb2, hb2fin⟩ := quotient_rounded ((isFin_neg64 _).trans hb0u) (by rwa [num64_neg64, abs_neg]) (by decide)
    ha0 hlo
  obtain ⟨ha1, ha1fin⟩ := quotient_rounded ha1u ha1ule (by decide) ha0 hlo
  obtain ⟨ha2, ha2fin⟩ := quotient_rounded ha2u ha2ule (by decide) ha0 hlo
  rw [num64_zero64] at hb1
  rw [num64_neg64] at hb2
  exact ⟨by simp [c, coefsOfAlpha, hb0fin, hb1fin, hb2fin, ha1fin, ha2fin], hb0, hb1, hb2, ha1, ha2⟩

/-- Settles O58: the terms in turn, each bounded by the ones before it, and the quotients by `coefsOfAlpha_regular`. -/
theorem regularCoefficientsRoundTermByTerm : Obligations.RegularCoefficientsRoundTermByTerm := by
  intro f q r t Qd twoQ alpha b0u a0 a1u a2u hr hf hq hq0 hne
  obtain ⟨⟨hs, hsle⟩, hc, hcle⟩ := trig_bound hr hf
  obtain ⟨⟨hQ, hQnum, -⟩, htwo, htwonum, -⟩ := qValue_exact hq
  obtain ⟨halpha, ha, hle⟩ := alphaOf_bound hs hsle hq hq0
  obtain ⟨hb0u, hb0ufin, -⟩ := b0uOf_bound hq ha hle
  obtain ⟨ha0, ha0fin⟩ := a0Of_bound ha hle
  obtain ⟨ha1ufin, ha1u, ha1umsb⟩ := a1uOf_exact hc hcle
  obtain ⟨ha2u, ha2ufin, -⟩ := a2uOf_bound ha hle
  have ha0ne : num64 a0 ≠ 0 := abs_pos.mp (lt_of_lt_of_le (by positivity) (le_abs_a0Of ha hle hne))
  obtain ⟨-, hquotients⟩ := coefsOfAlpha_regular hq ha hle hne hc hcle
  have hterms : ∀ w ∈ [t.1, t.2, Qd, twoQ, alpha, b0u, a0, a1u, a2u], (b64 w).isFin = true := by
    simp only [List.forall_mem_cons, List.not_mem_nil, false_implies, implies_true, and_true]
    exact ⟨hs, hc, hQ, htwo, ha, hb0ufin, ha0fin, ha1ufin, ha2ufin⟩
  exact ⟨hterms, hQnum, htwonum.trans (by rw [hQnum]), halpha, hb0u, ha0, ha0ne, ha1u, ha1umsb, ha2u, hquotients⟩

theorem nfMask_of_isFin {c : CoefSet} (h : ∀ w ∈ [c.b0, c.b1, c.b2, c.a1, c.a2], (b64 w).isFin = true) :
    c.nfMask = 0b00000 := by
  simp only [List.forall_mem_cons] at h
  obtain ⟨hb0, hb1, hb2, ha1, ha2, -⟩ := h
  simp [CoefSet.nfMask, isNonFinite64_of_isFin, hb0, hb1, hb2, ha1, ha2]

/-- Settles O50: the five quotients are finite (`coefsOfAlpha_regular`), and b1 is +0 by a nonzero a0. -/
theorem regularInputsGiveFiniteCoefficients : Obligations.RegularInputsGiveFiniteCoefficients := by
  intro f q r alpha hr hf hq hq0 hne
  obtain ⟨⟨hs, hsle⟩, hc, hcle⟩ := trig_bound hr hf
  obtain ⟨-, ha, hle⟩ := alphaOf_bound hs hsle hq hq0
  obtain ⟨-, ha0⟩ := a0Of_bound ha hle
  have ha0ne : num64 (a0Of alpha) ≠ 0 := abs_pos.mp (lt_of_lt_of_le (by positivity) (le_abs_a0Of ha hle hne))
  refine ⟨nfMask_of_isFin (coefsOfAlpha_regular hq ha hle hne hc hcle).1, ?_⟩
  change fmt64 (div64 (zero64 false) (a0Of alpha)) = _
  rw [div64_zero_left ha0 ha0ne, fmt64_zero64, Bool.false_bne]

/-! ### Valid parameters -/

/-- The model's comparison with 1/2 in whole numbers (R93). -/
theorem lt_half_of_shift {m : Nat} {e : ℤ} (hm : 0 < m) (h : m * 2 ^ (1 + e).toNat < 2 ^ (-(1 + e)).toNat) :
    (m : ℚ) * 2 ^ e < 1 / 2 := by
  rcases le_or_gt 0 (1 + e) with he | he
  · rw [Int.toNat_of_nonpos (show -(1 + e) ≤ 0 by omega), pow_zero] at h
    exact absurd h (not_lt.mpr (Nat.mul_pos hm (by positivity)))
  · obtain ⟨i, hi⟩ := Int.eq_ofNat_of_zero_le (show 0 ≤ -(1 + e) by omega)
    rw [hi, Int.toNat_natCast, Int.toNat_of_nonpos he.le, pow_zero, mul_one] at h
    have hm' : (m : ℚ) < 2 ^ i := by exact_mod_cast h
    obtain rfl : e = -(i : ℤ) + -1 := by omega
    rw [zpow_add₀ two_ne_zero, zpow_neg, zpow_natCast, ← mul_assoc, ← div_eq_mul_inv, zpow_neg_one, one_div]
    exact mul_lt_of_lt_one_left (by norm_num) ((div_lt_one (by positivity)).mpr hm')

/-- What the host's duty gives (R93, R135). -/
theorem of_validParams {f q r : Word32} (h : validParams f q r = true) :
    r ≠ 0 ∧ (b32 f).isFin = true ∧ ((b32 q).isFin = true ∧ (b32 q).isZero = false ∧ q.msb = false) ∧
      (b64 (turns (freqValue f) (fsValue r))).isFin = true ∧ 0 < num64 (turns (freqValue f) (fsValue r)) ∧
      num64 (turns (freqValue f) (fsValue r)) < 1 / 2 := by
  unfold validParams at h
  split at h
  · rename_i s n g n' g' m e hf hq hu
    simp only [Bool.and_eq_true, decide_eq_true_eq] at h
    obtain ⟨⟨⟨hr, hn'⟩, hm⟩, hhalf⟩ := h
    have hmsb : q.msb = false := by rw [← b32_neg (by simp [hq]), hq, Value.neg]
    have hm' : (0 : ℚ) < m := by exact_mod_cast hm
    rw [num64_of_fin hu, if_neg Bool.false_ne_true, one_mul, hf, hq, hu]
    exact ⟨hr, rfl, ⟨rfl, beq_eq_false_iff_ne.mpr hn'.ne', hmsb⟩, rfl, by positivity, lt_half_of_shift hm hhalf⟩
  · cases h

/-- Settles O51: the sine is not negative (`trigTurns_sine_msb`), so neither is alpha, and a0 is at least 1; O50 gives
the rest. -/
theorem validParametersGiveFiniteCoefficients : Obligations.ValidParametersGiveFiniteCoefficients := by
  intro f q r hvalid
  obtain ⟨hr, hf, ⟨hq, hq0, hqmsb⟩, hu, hupos, hulthalf⟩ := of_validParams hvalid
  obtain ⟨hs, hsle⟩ := (trig_bound hr hf).1
  have hsmsb : (trig (freqValue f) (fsValue r)).1.msb = false := trigTurns_sine_msb hu hupos hulthalf
  obtain ⟨-, htwo, htwonum, htwomsb⟩ := qValue_exact hq
  obtain ⟨-, ha, hle⟩ := alphaOf_bound hs hsle hq hq0
  have hamsb : (alphaOf (trig (freqValue f) (fsValue r)).1 (qValue q)).msb = false := by
    rw [alphaOf, div64_msb hs htwo (htwonum ▸ mul_ne_zero two_ne_zero (num32_ne_zero hq hq0)), hsmsb, htwomsb, hqmsb,
      Bool.bne_false]
  have hne : alphaOf (trig (freqValue f) (fsValue r)).1 (qValue q) ≠ neg64 one64 := fun h => by
    rw [h] at hamsb
    exact absurd hamsb (by decide)
  have hanum := num64_eq_sign_mul_abs (alphaOf (trig (freqValue f) (fsValue r)).1 (qValue q))
  rw [hamsb, if_neg Bool.false_ne_true, one_mul] at hanum
  have ha0msb := (a0Of_bound ha hle).1.2.2 (by rw [hanum]; positivity)
  obtain ⟨hmask, hb1⟩ := regularInputsGiveFiniteCoefficients f q r hr hf hq hq0 hne
  exact ⟨hmask, hb1.trans (congrArg zero64 ha0msb), ha0msb⟩

end Sys2Proof.Machine
end

section
/-! The formatter's canonical NaN in the coefficients: each of the five is an answer of the formatter, so a NaN among
them is the canonical one (R95 to R97). -/

namespace Sys2Proof.Machine

open Sys2Proof

/-- The only NaN word the formatter answers is the canonical one (R97). -/
theorem fmt64_eq_nan64_of_nan {v : Word64} (h : b64 (fmt64 v) = .nan) : fmt64 v = nan64 := by
  by_cases hv : b64 v = .nan
  · exact fmt64_of_nan hv
  · rw [fmt64_of_not_nan hv] at h
    exact absurd h hv

/-- Every coefficient passes through the formatter, in the index order of R95. -/
theorem formatCoefs_words (n : Normalized) :
    [(formatCoefs n).b0, (formatCoefs n).b1, (formatCoefs n).b2, (formatCoefs n).a1, (formatCoefs n).a2] =
      [n.n0, n.n1, n.n2, n.n3, n.n4].map fmt64 := rfl

/-- Settles O55: a coefficient is `fmt64 v` for some v (`formatCoefs_words`), and the only NaN among the formatter's
answers is the canonical one (`fmt64_eq_nan64_of_nan`). -/
theorem formatterOutputsCanonicalNaNOnly : Obligations.FormatterOutputsCanonicalNaNOnly := by
  refine ⟨fun _ => fmt64_of_not_nan, fun _ => fmt64_of_nan, fun f q r => ?_⟩
  rw [coefs, formatCoefs_words, List.forall_mem_map]
  exact fun _ _ => fmt64_eq_nan64_of_nan

end Sys2Proof.Machine
end


section
/-! The example consumer (R106) on NaN operands: a NaN operand makes its product NaN, and a NaN product makes every
partial sum after it NaN, the output sample included (R90, R109). -/

namespace Sys2Proof.Machine

open Sys2Proof

theorem add64_nan {x y : Word64} (h : b64 x = .nan ∨ b64 y = .nan) : b64 (add64 x y) = .nan := (nan_operand h).1

theorem sub64_nan {x y : Word64} (h : b64 x = .nan ∨ b64 y = .nan) : b64 (sub64 x y) = .nan := (nan_operand h).2.1

theorem mul64_nan {x y : Word64} (h : b64 x = .nan ∨ b64 y = .nan) : b64 (mul64 x y) = .nan := (nan_operand h).2.2.1

/-- The output sample y[n] of the example consumer (R106). -/
theorem consume_exampleArith_sample (o : Outputs) (x : Word64) (h : History Word64) :
    (consume exampleArith o x h).1 =
      sub64 (sub64 (add64 (add64 (mul64 o.coefB0 x) (mul64 o.coefB1 h.x1)) (mul64 o.coefB2 h.x2))
        (mul64 o.coefA1 h.y1)) (mul64 o.coefA2 h.y2) := rfl

/-- A NaN among the five products of the difference equation reaches y[n] through the sums after it. -/
theorem sample_nan_of_product_nan {o : Outputs} {x : Word64} {h : History Word64}
    (hp : b64 (mul64 o.coefB0 x) = .nan ∨ b64 (mul64 o.coefB1 h.x1) = .nan ∨ b64 (mul64 o.coefB2 h.x2) = .nan ∨
      b64 (mul64 o.coefA1 h.y1) = .nan ∨ b64 (mul64 o.coefA2 h.y2) = .nan) :
    b64 (consume exampleArith o x h).1 = .nan := by
  rw [consume_exampleArith_sample]
  rcases hp with hb0 | hb1 | hb2 | ha1 | ha2
  · exact sub64_nan (.inl (sub64_nan (.inl (add64_nan (.inl (add64_nan (.inl hb0)))))))
  · exact sub64_nan (.inl (sub64_nan (.inl (add64_nan (.inl (add64_nan (.inr hb1)))))))
  · exact sub64_nan (.inl (sub64_nan (.inl (add64_nan (.inr hb2)))))
  · exact sub64_nan (.inl (sub64_nan (.inr ha1)))
  · exact sub64_nan (.inr ha2)

/-- Settles O56: a NaN coefficient is an operand of one of the five products, a NaN in y-history an operand of one of
the last two (`mul64_nan`), and a NaN product reaches the output (`sample_nan_of_product_nan`). -/
theorem naNCoefficientPoisonsExampleConsumer : Obligations.NaNCoefficientPoisonsExampleConsumer := by
  refine fun o x h => ⟨fun hset => sample_nan_of_product_nan ?coefficient,
    fun hy => sample_nan_of_product_nan ?history, rfl⟩
  case coefficient =>
    simp only [List.exists_mem_cons_iff, List.not_mem_nil, false_and, exists_false, or_false] at hset
    rcases hset with hb0 | hb1 | hb2 | ha1 | ha2
    · exact .inl (mul64_nan (.inl hb0))
    · exact .inr (.inl (mul64_nan (.inl hb1)))
    · exact .inr (.inr (.inl (mul64_nan (.inl hb2))))
    · exact .inr (.inr (.inr (.inl (mul64_nan (.inl ha1)))))
    · exact .inr (.inr (.inr (.inr (mul64_nan (.inl ha2)))))
  case history =>
    rcases hy with hy1 | hy2
    · exact .inr (.inr (.inr (.inl (mul64_nan (.inr hy1)))))
    · exact .inr (.inr (.inr (.inr (mul64_nan (.inr hy2)))))

end Sys2Proof.Machine
end

section
/-! PROOFS. Exceptions and priorities: every command completes and its opcode decides the response, a reserved opcode
leaves no trace but its response, no run from a consistent state stops, and the order of the events at one edge (R42,
R115, R116, R120). -/

namespace Sys2Proof.Machine

open Sys2Proof

/-! ### The response -/

/-- The reserved opcodes as the ranges of R40, in opcodes instead of their numbers. -/
theorem reserved_iff (op : Opcode) : op.reserved = true ↔ op = 0x0 ∨ 0x6 ≤ op := by
  revert op
  decide

/-- Settles O13: every command answers (`exec_answers`) with the pulses of its opcode (`exec_pulses`), which is the op
field of the command word. -/
theorem everyCommandCompletesWithOneCode : Obligations.EveryCommandCompletesWithOneCode := by
  intro c s
  obtain ⟨t, ht⟩ := exec_answers (decodeCommand c) s
  obtain ⟨-, idle, invalid, -⟩ := exec_schedule ht
  obtain ⟨hrsp, hupdate⟩ := exec_pulses ht
  rw [decodeCommand_opcode] at hrsp hupdate
  refine ⟨t, ht, idle, invalid, ?_, ?_⟩
  · simp only [hrsp, reserved_iff]
  · rw [hupdate, Bool.not_eq_true', ← Bool.not_eq_true, reserved_iff, not_or, BitVec.not_le]

/-- What `raise Illegal` writes no later command reads. -/
theorem exec_raiseIllegal (j : Instr) (op : Opcode) (s : State) : exec j (raiseIllegal op s) = exec j s :=
  exec_congr j rfl rfl rfl rfl rfl

/-- The ports after `raise Illegal`: the mask of the old coefficients, and the response, over after one step. -/
theorem outputs_raiseIllegal (op : Opcode) (s : State) (rst : Bool) :
    ((raiseIllegal op s).outputs rst).nfMask = (s.outputs rst).nfMask ∧
      ((raiseIllegal op s).outputs rst).rspValid = true ∧ ((raiseIllegal op s).outputs rst).rspCode = 0b01 ∧
      ((raiseIllegal op s).outputs rst).rspOp = op ∧ ((raiseIllegal op s).tick.outputs rst).rspValid = false :=
  ⟨rfl, rfl, rfl, rfl, rfl⟩

/-- The rows of R40: each reserved command with its opcode. -/
def reservedRows : List (Instr × Opcode) :=
  [(.reserved0, 0x0), (.reserved6, 0x6), (.reserved7, 0x7), (.reserved8, 0x8), (.reserved9, 0x9), (.reservedA, 0xA),
    (.reservedB, 0xB), (.reservedC, 0xC), (.reservedD, 0xD), (.reservedE, 0xE), (.reservedF, 0xF)]

theorem reserved_of_mem_reservedRows {i : Instr} {op : Opcode} (h : (i, op) ∈ reservedRows) :
    i.reserved = true ∧ i.opcode = op :=
  (by decide : ∀ row ∈ reservedRows, row.1.reserved = true ∧ row.1.opcode = row.2) (i, op) h

/-- Settles O12: each of the eleven is reserved, so its commit is `raise Illegal` (`exec_of_reserved`), of which
`outputs_raiseIllegal` gives the ports and `exec_raiseIllegal` the commands after it. -/
theorem reservedOpcodesCompleteIllegal : Obligations.ReservedOpcodesCompleteIllegal := by
  intro i op hrow s
  obtain ⟨hres, rfl⟩ := reserved_of_mem_reservedRows hrow
  exact ⟨_, exec_of_reserved hres s, rfl, outputs_raiseIllegal _ s, fun j => exec_raiseIllegal j _ s⟩

/-! ### Runs that never stop -/

/-- A step stops only in the event that R20 rules out. -/
theorem step_answers {s : State} (h : s.event ≠ .impossible) : ∃ t, step s = .next t := by
  rw [step]
  cases he : s.event with
  | reset => exact ⟨_, rfl⟩
  | commit c => exact exec_answers (decodeCommand c) s.tick
  | accept c => exact ⟨_, rfl⟩
  | nothing => exact ⟨_, rfl⟩
  | impossible => exact absurd he h

/-- An engine that is busy only with a command pending never meets the impossible event. -/
theorem event_ne_impossible {s : State} (hb : s.busy = s.pend.isSome) : s.event ≠ .impossible := by
  rw [State.event]
  cases s.action with
  | reset => simp
  | offer c => cases s.busy <;> simp
  | commit => cases hp : s.pend <;> simp [hb, hp]
  | quiet => simp

/-- Settles O32: by induction on the number of steps; a consistent state's step answers (`step_answers`) with a
consistent state (`stepKeepsConsistency`). -/
theorem consistentStatesNeverStop : Obligations.ConsistentStatesNeverStop := by
  intro s hs k
  induction k generalizing s with
  | zero => exact ⟨s, run_zero s⟩
  | succ k ih =>
    obtain ⟨u, hu⟩ := step_answers (event_ne_impossible hs.busy_iff_pend)
    obtain ⟨t, ht⟩ := ih u (stepKeepsConsistency s u hs hu)
    exact ⟨t, (run_succ hu k).trans ht⟩

/-! ### The order of the events at one edge -/

/-- The clock commits at an edge without reset at which a commit is due. -/
theorem edgeAction_eq_commit_iff {due : Option Nat} {p : Pins} :
    edgeAction due p = .commit ↔ p.rst = false ∧ due = some 0 := by
  cases hr : p.rst with
  | true => simp [hr]
  | false =>
    by_cases hd : due = some 0
    · simp [hr, hd]
    · cases hv : p.cmdValid <;> simp [edgeAction, hr, hd, hv]

/-- The event is a commit exactly when the engine acts in its busy window, and it is that of the pending command. -/
theorem event_eq_commit_iff {s : State} {c : Command} :
    s.event = .commit c ↔ s.action = .commit ∧ s.busy = true ∧ s.pend = some c := by
  rw [State.event]
  cases s.action with
  | reset => simp
  | offer d => cases s.busy <;> simp
  | commit => cases s.busy <;> cases s.pend <;> simp
  | quiet => simp

/-- Settles O23: the event at an edge is the clock's action there, met by the engine (`event_eq_commit_iff`,
`exists_event_accept_iff`); the count is running at a commit edge, so `BUSY` is 1. -/
theorem edgeEventsHavePriority : Obligations.EdgeEventsHavePriority := by
  intro s due p hb
  have commit (c : Command) : (s.atEdge due p).event = .commit c ↔
      p.rst = false ∧ due = some 0 ∧ s.pend = some c := by
    rw [event_eq_commit_iff, atEdge_action, edgeAction_eq_commit_iff, atEdge_busy, atEdge_pend, and_assoc]
    have busy : due = some 0 → s.busy = true := fun hd => by rw [← hb, hd]; rfl
    tauto
  have uncounted (idle : s.busy = false) : due = none := by simpa [idle] using hb
  refine ⟨fun hr => by simp [State.event, hr], commit, fun c hc => (event_eq_commit_iff.mp hc).2.1, fun c => ?_⟩
  constructor
  · intro hc
    obtain ⟨hv, idle, hr⟩ := (exists_event_accept_iff hb).mp ⟨c, hc⟩
    exact ⟨hr, idle, hv, by simpa [uncounted idle, hr, hv] using (event_accept hc).2⟩
  · rintro ⟨hr, idle, hv, rfl⟩
    simp [State.event, uncounted idle, hr, hv, idle]

end Sys2Proof.Machine
end

section
/-! PROOFS. Reset: what a reset edge writes, and what becomes of a pending command when a reset edge comes before its
commit, at the commit edge or after it (R120, R131, R132). -/

namespace Sys2Proof.Machine

open Sys2Proof

/-! ### The reset edge -/

/-- Nothing of the state before a reset edge is left but what the agents do in the coming steps. -/
theorem resetEdge_eq (s : State) : resetEdge s = { State.reset with schedule := s.schedule } := rfl

/-- The ports after a reset edge: nothing ready while `rst` stays 1, no response, no pulse, a mask of five ones. -/
theorem outputs_resetEdge (s : State) (rst : Bool) :
    ((resetEdge s).outputs rst).nfMask = 0b11111 ∧ ((resetEdge s).outputs rst).busy = false ∧
      ((resetEdge s).outputs rst).rspValid = false ∧ ((resetEdge s).outputs rst).coefUpdate = false ∧
      ((resetEdge s).outputs true).cmdReady = false :=
  ⟨(by decide : CoefSet.reset.nfMask = 0b11111), rfl, rfl, rfl, rfl⟩

/-- Settles O22: a reset step is `resetEdge`, of which `outputs_resetEdge` gives the ports, and the clock resets at
every edge with `rst` 1; CONSTRUCT 0, 0, 0 computes the five NaNs of a reset (`coefs_zero`). -/
theorem resetEdgeSetsEveryRegister : Obligations.ResetEdgeSetsEveryRegister := by
  refine ⟨fun s ha => ⟨_, step_reset ha, rfl, outputs_resetEdge s.tick⟩, fun s due p hr => ?edge, fun s => ?construct⟩
  case edge => rw [atEdge_action, edgeAction_rst hr]
  case construct =>
    refine ⟨commitOk 0x1 0 0 0 s, rfl, ?_, fun _ => ⟨rfl, rfl⟩⟩
    rw [commitOk_coef, coefs_zero]
    rfl

/-! ### A reset in the busy window -/

/-- A step at which the engine does not act answers, and emits no pulse. -/
theorem step_of_action_ne_commit {s : State} (h : s.action ≠ .commit) :
    ∃ t, step s = .next t ∧ t.rsp = none ∧ t.coefUpdate = false := by
  have possible : s.event ≠ .impossible := by
    rw [State.event]
    cases ha : s.action with
    | commit => exact absurd ha h
    | offer c => cases s.busy <;> simp
    | reset => simp
    | quiet => simp
  have uncommitted (c : Command) : s.event ≠ .commit c := fun he => h (event_eq_commit_iff.mp he).1
  obtain ⟨t, ht⟩ := step_answers possible
  exact ⟨t, ht, step_no_pulse uncommitted ht⟩

/-- Waiting steps answer from every busy state, whatever pulses it still has, and use up the schedule. -/
theorem run_waits {s : State} {d l : List AgentStep} (hb : s.busy = true) (hd : ∀ a ∈ d, a ≠ .reset ∧ a ≠ .commit)
    (hs : s.schedule = d ++ l) : ∃ t : State, Host.Core.run core d.length s = .next t ∧ t.schedule = l := by
  cases d with
  | nil => exact ⟨s, rfl, hs⟩
  | cons a d =>
    obtain ⟨ha, hd⟩ := List.forall_mem_cons.mp hd
    have hact : s.action = a := action_of_cons hs
    have first := step_busy hb (hact ▸ ha.1) (hact ▸ ha.2)
    exact ⟨_, (run_succ first d.length).trans (run_busy (s := s.tick) hb hd (by simp [hs]) rfl rfl), rfl⟩

/-- Waiting steps and a reset after them leave the state of a reset: the pending command is gone. -/
theorem run_waits_reset {s : State} {d rest : List AgentStep} (hb : s.busy = true)
    (hd : ∀ a ∈ d, a ≠ .reset ∧ a ≠ .commit) (hs : s.schedule = d ++ .reset :: rest) :
    Host.Core.run core (d.length + 1) s = .next { State.reset with schedule := rest } := by
  obtain ⟨t, hrun, hsched⟩ := run_waits hb hd hs
  have reset : step t = .next { State.reset with schedule := rest } := by
    rw [step_reset (action_of_cons hsched), resetEdge_eq, tick_schedule, hsched, List.tail_cons]
  exact (run_add hrun 1).trans ((run_one t).trans reset)

/-- No step up to the reset emits a pulse. -/
theorem run_waits_no_pulse {s : State} {d rest : List AgentStep} (hb : s.busy = true)
    (hd : ∀ a ∈ d, a ≠ .reset ∧ a ≠ .commit) (hs : s.schedule = d ++ .reset :: rest) {k : Nat} (hk : k ≤ d.length) :
    ∃ t : State, Host.Core.run core (k + 1) s = .next t ∧ t.rsp = none ∧ t.coefUpdate = false := by
  obtain ⟨u, hrun, hsched⟩ := run_waits (d := d.take k) (l := d.drop k ++ .reset :: rest) hb
    (fun a ha => hd a (List.mem_of_mem_take ha)) (by simp [hs, ← List.append_assoc])
  have waiting : u.action ≠ .commit := by
    cases hdrop : d.drop k with
    | nil =>
      rw [action_of_cons (hsched.trans (by rw [hdrop, List.nil_append]))]
      simp
    | cons a l =>
      rw [action_of_cons (hsched.trans (by rw [hdrop, List.cons_append]))]
      exact (hd a (List.mem_of_mem_drop (hdrop ▸ List.mem_cons_self))).2
  obtain ⟨t, hstep, pulses⟩ := step_of_action_ne_commit waiting
  rw [List.length_take_of_le hk] at hrun
  exact ⟨t, (run_add hrun 1).trans ((run_one u).trans hstep), pulses⟩

/-- The schedule of a busy window that a reset cuts short, at the commit edge at the latest. -/
theorem clock_waits_reset (cfg : Config) {n : Nat} {p : Pins} {ps : List Pins} (hl : ps.length ≤ n)
    (hps : ∀ q ∈ ps, q.rst = false) (hr : p.rst = true) (qs : List Pins) :
    clock cfg (some n) (ps ++ p :: qs) = clock cfg (some n) ps ++ .reset :: clock cfg none qs := by
  rw [clock_append, nextDue_foldl_waits cfg hl hps, clock, edgeAction_rst hr, nextDue_rst hr]

/-- Settles O29: the steps before the reset only pass, so it finds the command pending and discards it
(`run_waits_reset`, `run_waits_no_pulse`); the clock's schedule up to a reset edge is such a window
(`clock_waits_reset`, `clock_waits`); the pulses of a commit are in the state after it (`step_pulses_of_commit`). -/
theorem resetDiscardsPendingCommand : Obligations.ResetDiscardsPendingCommand := by
  refine ⟨fun s d rest hb hd hs => ⟨run_waits_reset hb hd hs, fun k hk => ?discarded⟩,
    fun cfg n p ps qs hl hps hr => ⟨clock_waits_reset cfg hl hps hr qs, clock_waits cfg hl hps⟩,
    fun s c he => ?committed⟩
  case discarded =>
    obtain ⟨t, hrun, hrsp, hupdate⟩ := run_waits_no_pulse hb hd hs hk
    exact ⟨t, hrun, fun _ => by simp [State.outputs, hrsp, hupdate]⟩
  case committed =>
    obtain ⟨t, ht⟩ := step_answers (s := s) (by simp [he])
    obtain ⟨hrsp, hupdate⟩ := step_pulses_of_commit he ht
    exact ⟨t, ht, fun _ => by simp [State.outputs, hrsp, hupdate]⟩

end Sys2Proof.Machine
end

section
/-! PROOFS. The trig approximator on finite inputs (R66, R68 to R73), and the commits of the five commands as full
next states (R52 to R56). -/

namespace Sys2Proof.Machine

open Sys2Proof

/-- Settles O45: `trig_bound`, by which both outputs are not only finite but at most 2. -/
theorem trigIsFinite : Obligations.TrigIsFinite := by
  intro f r hr hf
  obtain ⟨⟨hsn, _⟩, hcs, _⟩ := trig_bound hr hf
  exact ⟨hsn, hcs⟩

/-! ### The five commands

None of their opcodes is reserved, so each is the case of its own triple in `exec_of_not_reserved`. -/

/-- Settles O7: CONSTRUCT leaves its own three arguments. -/
theorem constructCommits : Obligations.ConstructCommits := fun _ _ _ s => exec_of_not_reserved rfl s

/-- Settles O8: SET_FREQ leaves its argument and the QF and FS it found. -/
theorem setFreqCommits : Obligations.SetFreqCommits := fun _ s => exec_of_not_reserved rfl s

/-- Settles O9: SET_FS leaves its argument and the FREQ and QF it found. -/
theorem setFsCommits : Obligations.SetFsCommits := fun _ s => exec_of_not_reserved rfl s

/-- Settles O10: SET_Q leaves its argument and the FREQ and FS it found. -/
theorem setQCommits : Obligations.SetQCommits := fun _ s => exec_of_not_reserved rfl s

/-- Settles O11: CALC leaves the triple it found. -/
theorem calcCommits : Obligations.CalcCommits := fun s => exec_of_not_reserved rfl s

/-- Settles O18: the coefficients `calcCommits` gives are the consistent state's own (R17), and so is their mask. -/
theorem calcChangesNoRegister : Obligations.CalcChangesNoRegister := by
  intro s h
  have current : coefs s.freq s.qf s.fs = s.coef := h.coef_current.symm
  exact ⟨_, calcCommits s, rfl, rfl, rfl, current, congrArg CoefSet.nfMask current, rfl, rfl⟩

end Sys2Proof.Machine
end
